-- ==== Sys2Proof/Word.lean ====
section
/-! DEFINITION. The word types of the FBC-128x64: bytes of the buffers and 32-bit command words. -/

namespace Sys2Proof

/-- One byte: a buffer byte, a device byte or the byte of a quad. -/
abbrev Byte := BitVec 8

/-- One command word on the command port (R70). -/
abbrev Word := BitVec 32

end Sys2Proof
end

