-- ==== Sys2Proof/Syntax.lean ====
section
/-! DEFINITION. What the block and its display are told to do: quads, device commands, what arrives
from outside, and the instructions, one constructor for each row of spec/opcode_table.json. -/

namespace Sys2Proof

/-- The mode line of a quad (R143). -/
inductive QuadMode where
  | cmd
  | data
  deriving DecidableEq, Repr

/-- What the Transmission Layer sends (R81, R143): two plane selects, the mode and a byte. -/
structure Quad where
  cs0 : Bool
  cs1 : Bool
  mode : QuadMode
  byte : Byte
  deriving DecidableEq, Repr

/-- The device commands that DEV_ENC gives a byte (R161). -/
inductive DevCmd where
  | setPage (p : BitVec 3)
  | setColumn (c : BitVec 6)
  | setStartLine (l : BitVec 6)
  | display (on : Bool)
  deriving DecidableEq, Repr

/-- What arrives from outside: a word on the command port (R70), or a quad on the display's lines
that no command of the block sent (log 12). -/
inductive InboxItem where
  | command (w : Word)
  | quad (q : Quad)
  deriving DecidableEq, Repr

/-- The instructions. The ten commands of R73; the illegal opcodes of R76, each with the whole word
that arrived; and the device command forms of R161 to R168, each with the selects of its quad. -/
inductive Instr where
  | init
  | reset
  | setPixel (v : Bool) (x y : BitVec 8)
  | clear
  | fill
  | setInverted (v : Bool)
  | getInverted
  | flush
  | enterBatch
  | leaveBatch
  | illegalOp0 (w : Word)
  | illegalOpB (w : Word)
  | illegalOpC (w : Word)
  | illegalOpD (w : Word)
  | illegalOpE (w : Word)
  | illegalOpF (w : Word)
  | devSetColumn (cs0 cs1 : Bool) (c : BitVec 6)
  | devSetPage (cs0 cs1 : Bool) (p : BitVec 3)
  | devSetStartLine (cs0 cs1 : Bool) (l : BitVec 6)
  | devWriteData (cs0 cs1 : Bool) (d : Byte)
  | devDisplayOnOff (cs0 cs1 : Bool) (d : Bool)
  deriving DecidableEq, Repr

end Sys2Proof
end

