-- ==== Sys2Proof/Config.lean ====
section
/-! DEFINITION. What an instance of the block fixes once (R6), and the values the spec leaves free.
The parameters are data of the state that no step writes, so that one model covers every instance
(log 1). The free values have no body: nothing can be proved of what they are (log 8, 9). -/

namespace Sys2Proof

inductive DrawMode where
  | buffered
  | immediate
  deriving DecidableEq, Repr

inductive TxMode where
  | parallel
  | serial
  deriving DecidableEq, Repr

inductive InitAddrMethod where
  | zeroCmds
  | hwReset
  deriving DecidableEq, Repr

/-- Which bit of a serial frame is shifted first (R147). -/
inductive ShiftOrder where
  | msbFirst
  | lsbFirst
  deriving DecidableEq, Repr

/-- The display-side signal a shift-register output drives (R147). -/
inductive SerSignal where
  | cs0
  | cs1
  | rs
  | data (b : Fin 8)
  | e
  | unused
  deriving DecidableEq, Repr

/-- DEV_ENC (R161): the byte of each device command, as one list for each constructor, indexed by
the command's field. `displayBytes` holds the byte of DISPLAY_OFF, then of DISPLAY_ON (log 10). -/
structure DevEnc where
  pageBytes : List Byte
  columnBytes : List Byte
  startLineBytes : List Byte
  displayBytes : List Byte
  deriving DecidableEq, Repr

/-- The display-side signals (R144). -/
structure Lines where
  cs0 : Bool
  cs1 : Bool
  rs : Bool
  d : Byte
  e : Bool
  deriving DecidableEq, Repr

/-- The wires the serial transmitter drives (R144). -/
structure Wires where
  sdata : Bool
  sclk : Bool
  slatch : Bool
  deriving DecidableEq, Repr

/-- IDLE_LEVELS: the pin levels after INIT step 1 (R6, R100) and once INIT has completed (R33). -/
structure IdleLevels where
  lines : Lines
  wires : Wires
  rst : Bool
  deriving DecidableEq, Repr

/-- One quad of INIT_EXTRA. R6 calls them "device command quads" and R142 says that the block never
selects both planes or none, so an element is a plane (false is plane 0) and a command byte; sel and
the mode follow (log 20). -/
structure SetupQuad where
  plane : Bool
  byte : Byte
  deriving DecidableEq, Repr

/-- The configuration parameters of R6. SER_N is the length of `serMap` (log 15). -/
structure Config where
  drawMode : DrawMode
  txMode : TxMode
  depthBits : Nat
  initAddrMethod : InitAddrMethod
  initExtra : List SetupQuad
  devEnc : DevEnc
  csActiveHigh : Bool
  rsDataLevel : Bool
  idleLevels : IdleLevels
  serMap : List SerSignal
  serOrder : ShiftOrder
  serStrobe : List Bool
  tSetup : Nat
  tStrobe : Nat
  tHold : Nat
  tLatch : Nat
  tRst : Nat
  tRstRecover : Nat
  rstActiveLevel : Bool
  deriving DecidableEq, Repr

/-- Device PAGE of a plane (false is plane 0) after the n-th RESET_PULSE: any value (R169). -/
opaque Config.drawnPage (n : Nat) (k : Bool) : BitVec 3

/-- Device COL of a plane after the n-th RESET_PULSE: any value (R169). -/
opaque Config.drawnCol (n : Nat) (k : Bool) : BitVec 6

/-- Device START of a plane after the n-th RESET_PULSE: any value (R169). -/
opaque Config.drawnStart (n : Nat) (k : Bool) : BitVec 6

/-- Device RAM byte of a plane at an address after the n-th RESET_PULSE: any value (R169). -/
opaque Config.drawnByte (n : Nat) (k : Bool) (a : Nat) : Byte

/-- Display on/off of a plane after the n-th RESET_PULSE: any value (R169, log 11). -/
opaque Config.drawnOn (n : Nat) (k : Bool) : Bool

/-- What the host reads from the response port, after so many commands, when no GET_INVERTED has
just completed: an unspecified value (R32). -/
opaque Config.unspecifiedResp (cmdCount : Nat) : Word

end Sys2Proof
end

