-- ==== Sys2Proof/WellFormed.lean ====
section
/-! DEFINITION. The checks: on an instruction (an illegal word carries the opcode of its row), on a
configuration (R211), and on a device encoding (its bytes can be told apart). -/

namespace Sys2Proof

/-- The word has this opcode in OP[31:28] (R71). -/
def hasOpcode (op : BitVec 4) (w : Word) : Bool := w.extractLsb' 28 4 == op

/-- An instruction is well formed when the word an illegal row carries has that row's opcode; the
operands of every other row are exactly as wide as their fields. -/
def Instr.wf : Instr → Bool
  | .init => true
  | .reset => true
  | .setPixel _ _ _ => true
  | .clear => true
  | .fill => true
  | .setInverted _ => true
  | .getInverted => true
  | .flush => true
  | .enterBatch => true
  | .leaveBatch => true
  | .illegalOp0 w => hasOpcode 0x0#4 w
  | .illegalOpB w => hasOpcode 0xB#4 w
  | .illegalOpC w => hasOpcode 0xC#4 w
  | .illegalOpD w => hasOpcode 0xD#4 w
  | .illegalOpE w => hasOpcode 0xE#4 w
  | .illegalOpF w => hasOpcode 0xF#4 w
  | .devSetColumn _ _ _ => true
  | .devSetPage _ _ _ => true
  | .devSetStartLine _ _ _ => true
  | .devWriteData _ _ _ => true
  | .devDisplayOnOff _ _ _ => true

/-- A device encoding gives every field value a byte, and no byte to two commands (log 10). -/
def DevEnc.wf (e : DevEnc) : Bool :=
  e.pageBytes.length == 8 && e.columnBytes.length == 64 && e.startLineBytes.length == 64
    && e.displayBytes.length == 2
    && decide (e.pageBytes ++ e.columnBytes ++ e.startLineBytes ++ e.displayBytes).Nodup

/-- The signals SER_MAP must name exactly once (R211). -/
def requiredSignals : List SerSignal :=
  [.cs0, .cs1, .rs, .data 0, .data 1, .data 2, .data 3, .data 4, .data 5, .data 6, .data 7, .e]

/-- SER_MAP names each of CS0, CS1, RS, D0..D7 and E exactly once (R211). -/
def Config.serMapValid (c : Config) : Bool :=
  requiredSignals.all fun σ => c.serMap.count σ == 1

/-- R211. That DRAW_MODE and TX_MODE are exactly one of their values is in their types. -/
def Config.valid (c : Config) : Bool :=
  decide (1 ≤ c.depthBits) && decide (c.depthBits ≤ 16)
    && (c.txMode == .parallel || c.serMapValid)

end Sys2Proof
end

