-- ==== Sys2Proof/Decode.lean ====
section
/-! DEFINITION. Decoding a command word or a quad to an instruction, total, rejecting by name; the
encoder, from the same tables (R71 to R80, R161); and the default DEV_ENC. -/

namespace Sys2Proof

/-- Why an item from outside is no instruction of the table. -/
inductive DecodeReject where
  /-- A must-be-zero bit of the word is set (R74). -/
  | reservedField
  /-- The command byte is none of DEV_ENC (R168). -/
  | deviceDefined
  deriving DecidableEq, Repr

/-! ## Command words -/

/-- OP (R71). -/
def opcode (w : Word) : BitVec 4 := w.extractLsb' 28 4

/-- V, X and Y as R72 takes them from a word. -/
def operandV (w : Word) : Bool := w.getLsbD 16
def operandX (w : Word) : BitVec 8 := w.extractLsb' 8 8
def operandY (w : Word) : BitVec 8 := w.extractLsb' 0 8

/-- A word is a row's instruction when it matches the row under its mask (R73); otherwise a
must-be-zero bit is set (R74). -/
def row (mask fixed w : Word) (i : Instr) : Except DecodeReject Instr :=
  if w &&& mask = fixed then .ok i else .error .reservedField

/-- R73, R76 and the first two lines of R80. -/
def decodeWord (w : Word) : Except DecodeReject Instr :=
  match (opcode w).toNat with
  | 0x0 => .ok (.illegalOp0 w)
  | 0x1 => row 0xFFFFFFFF#32 0x10000000#32 w .init
  | 0x2 => row 0xFFFFFFFF#32 0x20000000#32 w .reset
  | 0x3 => row 0xFFFE0000#32 0x30000000#32 w (.setPixel (operandV w) (operandX w) (operandY w))
  | 0x4 => row 0xFFFFFFFF#32 0x40000000#32 w .clear
  | 0x5 => row 0xFFFFFFFF#32 0x50000000#32 w .fill
  | 0x6 => row 0xFFFEFFFF#32 0x60000000#32 w (.setInverted (operandV w))
  | 0x7 => row 0xFFFFFFFF#32 0x70000000#32 w .getInverted
  | 0x8 => row 0xFFFFFFFF#32 0x80000000#32 w .flush
  | 0x9 => row 0xFFFFFFFF#32 0x90000000#32 w .enterBatch
  | 0xA => row 0xFFFFFFFF#32 0xA0000000#32 w .leaveBatch
  | 0xB => .ok (.illegalOpB w)
  | 0xC => .ok (.illegalOpC w)
  | 0xD => .ok (.illegalOpD w)
  | 0xE => .ok (.illegalOpE w)
  | _ => .ok (.illegalOpF w)

/-- `(OP << 28) | (v << 16) | (x << 8) | y` (R78). -/
def commandWord (op : BitVec 4) (v : Bool) (x y : BitVec 8) : Word :=
  (op.zeroExtend 32 <<< 28) ||| ((BitVec.ofBool v).zeroExtend 32 <<< 16)
    ||| (x.zeroExtend 32 <<< 8) ||| y.zeroExtend 32

/-- The word of a command that takes no operand. -/
def plainWord (op : BitVec 4) : Word := commandWord op false 0 0

/-! ## Device command bytes -/

/-- The three constructors the block's rules use (R161), under a DEV_ENC. -/
def DevEnc.setPage (e : DevEnc) (p : BitVec 3) : Byte := e.pageBytes.getD p.toNat 0
def DevEnc.setColumn (e : DevEnc) (c : BitVec 6) : Byte := e.columnBytes.getD c.toNat 0
def DevEnc.setStartLine (e : DevEnc) (l : BitVec 6) : Byte := e.startLineBytes.getD l.toNat 0
def DevEnc.display (e : DevEnc) (on : Bool) : Byte := e.displayBytes.getD on.toNat 0

def DevEnc.byteOf (e : DevEnc) : DevCmd → Byte
  | .setPage p => e.setPage p
  | .setColumn c => e.setColumn c
  | .setStartLine l => e.setStartLine l
  | .display on => e.display on

/-- What a command byte means to the device; none is a device-defined byte (R162, R168). -/
def DevEnc.decodeByte (e : DevEnc) (b : Byte) : Option DevCmd :=
  match e.pageBytes.idxOf? b with
  | some n => some (.setPage (BitVec.ofNat 3 n))
  | none =>
    match e.columnBytes.idxOf? b with
    | some n => some (.setColumn (BitVec.ofNat 6 n))
    | none =>
      match e.startLineBytes.idxOf? b with
      | some n => some (.setStartLine (BitVec.ofNat 6 n))
      | none =>
        match e.displayBytes.idxOf? b with
        | some n => some (.display (n != 0))
        | none => none

/-- The default DEV_ENC (R161). -/
def DevEnc.default : DevEnc where
  pageBytes := (List.range 8).map fun p => 0xB8#8 ||| BitVec.ofNat 8 p
  columnBytes := (List.range 64).map fun c => 0x40#8 ||| BitVec.ofNat 8 c
  startLineBytes := (List.range 64).map fun l => 0xC0#8 ||| BitVec.ofNat 8 l
  displayBytes := [0x3E#8, 0x3F#8]

/-- The instruction of a device command sent with these selects. -/
def deviceInstr (cs0 cs1 : Bool) : DevCmd → Instr
  | .setPage p => .devSetPage cs0 cs1 p
  | .setColumn c => .devSetColumn cs0 cs1 c
  | .setStartLine l => .devSetStartLine cs0 cs1 l
  | .display on => .devDisplayOnOff cs0 cs1 on

/-- The instruction of a quad (R162). -/
def decodeQuad (e : DevEnc) (q : Quad) : Except DecodeReject Instr :=
  match q.mode with
  | .data => .ok (.devWriteData q.cs0 q.cs1 q.byte)
  | .cmd =>
    match e.decodeByte q.byte with
    | some d => .ok (deviceInstr q.cs0 q.cs1 d)
    | none => .error .deviceDefined

/-! ## Both -/

/-- Decoding whatever arrives, under the instance's DEV_ENC. -/
def decode (e : DevEnc) : InboxItem → Except DecodeReject Instr
  | .command w => decodeWord w
  | .quad q => decodeQuad e q

/-- The word or quad of an instruction (R73, R78, R161). -/
def encode (e : DevEnc) : Instr → InboxItem
  | .init => .command (plainWord 0x1#4)
  | .reset => .command (plainWord 0x2#4)
  | .setPixel v x y => .command (commandWord 0x3#4 v x y)
  | .clear => .command (plainWord 0x4#4)
  | .fill => .command (plainWord 0x5#4)
  | .setInverted v => .command (commandWord 0x6#4 v 0 0)
  | .getInverted => .command (plainWord 0x7#4)
  | .flush => .command (plainWord 0x8#4)
  | .enterBatch => .command (plainWord 0x9#4)
  | .leaveBatch => .command (plainWord 0xA#4)
  | .illegalOp0 w => .command w
  | .illegalOpB w => .command w
  | .illegalOpC w => .command w
  | .illegalOpD w => .command w
  | .illegalOpE w => .command w
  | .illegalOpF w => .command w
  | .devSetColumn cs0 cs1 c => .quad ⟨cs0, cs1, .cmd, e.setColumn c⟩
  | .devSetPage cs0 cs1 p => .quad ⟨cs0, cs1, .cmd, e.setPage p⟩
  | .devSetStartLine cs0 cs1 l => .quad ⟨cs0, cs1, .cmd, e.setStartLine l⟩
  | .devWriteData cs0 cs1 d => .quad ⟨cs0, cs1, .data, d⟩
  | .devDisplayOnOff cs0 cs1 on => .quad ⟨cs0, cs1, .cmd, e.display on⟩

/-! ## The opcode table's own numbering of bits -/

/-- A device form of the table as a number: byte in bits 7..0, mode in bit 8, and the selects it is
sent with above them, cs0 in bit 9 and cs1 in bit 10 (log 12). -/
def quadOfTable (w : Nat) : Quad :=
  { cs0 := w.testBit 9, cs1 := w.testBit 10
    mode := if w.testBit 8 then .data else .cmd
    byte := BitVec.ofNat 8 w }

/-- The item of a table row: 32 bits are a command word, fewer are a device form. -/
def itemOfTable (nbits w : Nat) : InboxItem :=
  if nbits ≤ 16 then .quad (quadOfTable (w % 2 ^ nbits)) else .command (BitVec.ofNat 32 w)

/-- The instruction the decoder reads from a row's bits, under the default DEV_ENC. -/
def decodeTableWord (nbits w : Nat) : Option Instr :=
  match decode DevEnc.default (itemOfTable nbits w) with
  | .ok i => some i
  | .error _ => none

end Sys2Proof
end

