-- ==== Sys2Proof/Machine/Defaults.lean ====
section
/-! DEFINITION. The instance whose power-on state `State.reset` is: the spec's defaults, and the
model's choices where R6 gives none (log 1). -/

namespace Sys2Proof.Machine

/-- All display-side signals low (log 1, 7). -/
def linesLow : Lines := { cs0 := false, cs1 := false, rs := false, d := 0, e := false }

/-- All serial wires low (log 1, 7). -/
def wiresLow : Wires := { sdata := false, sclk := false, slatch := false }

/-- R6's defaults (DEPTH_BITS 8, INIT_EXTRA empty, DEV_ENC of R161, RS_DATA_LEVEL 1, SER_STROBE
[0, 1, 0]); everything else is the model's choice (log 1). -/
def defaultConfig : Config where
  drawMode := .buffered
  txMode := .parallel
  depthBits := 8
  initAddrMethod := .zeroCmds
  initExtra := []
  devEnc := DevEnc.default
  csActiveHigh := true
  rsDataLevel := true
  idleLevels := { lines := linesLow, wires := wiresLow, rst := true }
  serMap := [.data 0, .data 1, .data 2, .data 3, .data 4, .data 5, .data 6, .data 7,
    .rs, .cs0, .cs1, .e]
  serOrder := .msbFirst
  serStrobe := [false, true, false]
  tSetup := 0
  tStrobe := 0
  tHold := 0
  tLatch := 0
  tRst := 0
  tRstRecover := 0
  rstActiveLevel := false

end Sys2Proof.Machine
end

