-- ==== Sys2Proof/Machine/State.lean ====
section
/-! DEFINITION. The state of the block and of the display it drives, as plain data (R29, R160), the
reasons a step can stop, and the state after power-on (R33, R200). -/

namespace Sys2Proof.Machine

/-- Bytes by address, addresses strictly rising, no entry 0x00, which is what an unlisted address
reads as (log 4). -/
abbrev Memory := List Host.Cell

/-- One plane of the display device (R160), and its display on/off (R161, log 11). DRAM byte
(page p, column c) is at address 64p + c. -/
structure Plane where
  page : BitVec 3
  col : BitVec 6
  start : BitVec 6
  dram : Memory
  on : Bool
  deriving DecidableEq, Repr

/-- The display device: two planes, addressed independently (R31). -/
structure Device where
  plane0 : Plane
  plane1 : Plane
  deriving DecidableEq, Repr

/-- The output signals (R144): the display side, the serial wires, RST_PIN, and the stages of the
shift register that the wires feed (stage i drives the signal SER_MAP(i), R147). -/
structure OutPort where
  lines : Lines
  wires : Wires
  rst : Bool
  shift : List Bool
  deriving DecidableEq, Repr

/-- One output event (R152). -/
inductive TraceEvent where
  | quad (q : Quad)
  | resetPulse
  deriving DecidableEq, Repr

/-- The cause codes of R180. Codes 8 to 15 are reserved and never raised. -/
inductive FaultCause where
  | none
  | illegalOpcode
  | reservedField
  | modeUnavailable
  | notInitialized
  | reinit
  | batchUnderflow
  | batchOverflow
  deriving DecidableEq, Repr

/-- The whole state: the register set of R29, the device of R31, TRACE (R152), the configuration of
R6 (log 1), the command port (R70, log 2), and the model's own draw counter (log 8). -/
structure State where
  cfg : Config
  fb : Memory
  inv : Bool
  dirty : Bool
  depth : BitVec 16
  initDone : Bool
  fault : FaultCause
  faultIndex : Nat
  faultWord : Word
  cmdCount : Nat
  resp : Word
  respStamp : Option Nat
  port : OutPort
  trace : List TraceEvent
  dev : Device
  draws : Nat
  inbox : List InboxItem
  deriving DecidableEq, Repr

/-- Why the machine stops. -/
inductive Fault where
  /-- Raised by every command, and by a step that finds nothing on the port, while FAULT ≠ NONE: the
  block is stuck and accepts no command (R26, R181). Safe: the model stops where the spec says that
  the block does. -/
  | stuck (cause : FaultCause)
  deriving DecidableEq, Repr

/-- Why the model gives no meaning. -/
inductive Refusal where
  /-- An instruction the model gives no meaning yet; no arm of exec uses it. Safe. -/
  | notModelled (mnemonic : String)
  /-- Raised by step: the configuration describes no instance of the block (R211). Safe: the spec
  says that a model refuses it. -/
  | invalidConfig
  deriving DecidableEq, Repr

/-- A plane after power-on: unspecified by R170; zeros by log 6. -/
def Plane.powerOn : Plane := { page := 0, col := 0, start := 0, dram := [], on := false }

/-- The output signals after power-on: unspecified by R33; all low by log 7. -/
def OutPort.powerOn (stages : Nat) : OutPort :=
  { lines := linesLow, wires := wiresLow, rst := false, shift := List.replicate stages false }

/-- The state after power-on (R33, R200) of the instance of log 1. INIT_DONE, FAULT, DEPTH,
CMD_COUNT and TRACE are the spec's; the values of FB, INV, DIRTY, RESP, FAULT_INDEX, FAULT_WORD, the
signals and the device are the model's choice (log 4 to 7). -/
def State.reset : State where
  cfg := defaultConfig
  fb := []
  inv := false
  dirty := false
  depth := 0
  initDone := false
  fault := .none
  faultIndex := 0
  faultWord := 0
  cmdCount := 0
  resp := 0
  respStamp := none
  port := OutPort.powerOn defaultConfig.serMap.length
  trace := []
  dev := { plane0 := Plane.powerOn, plane1 := Plane.powerOn }
  draws := 0
  inbox := []

end Sys2Proof.Machine
end

