-- ==== Sys2Proof/Machine/Ops.lean ====
section
/-! DEFINITION. The operations every instruction shares: reading and writing bytes, completing a
command, raising a fault (the only exception entry the block has; there is no return, R185), and the
checks before a command's rule runs (R80). -/

namespace Sys2Proof.Machine

abbrev Outcome := Host.Outcome State Fault Refusal

/-! ## Memory: FB and the display RAM, one byte at a time (R53) -/

/-- MemRead(a, 1) (R9). -/
def Memory.read : Memory → Nat → Byte
  | [], _ => 0
  | (k, v) :: m, a => if a = k then v else Memory.read m a

/-- One entry in front, unless it is what an unlisted address reads as. -/
def Memory.cons (a : Nat) (v : Byte) (m : Memory) : Memory := if v = 0 then m else (a, v) :: m

/-- MemWrite(a, 1, v) (R9), keeping the canonical form. -/
def Memory.write : Memory → Nat → Byte → Memory
  | [], a, v => Memory.cons a v []
  | (k, w) :: m, a, v =>
    if a < k then Memory.cons a v ((k, w) :: m)
    else if a = k then Memory.cons a v m
    else (k, w) :: Memory.write m a v

/-- The addresses from `a` on, `n` of them, each written with `f` of it. -/
def Memory.build (f : Nat → Byte) : Nat → Nat → Memory
  | _, 0 => []
  | a, n + 1 => Memory.cons a (f a) (Memory.build f (a + 1) n)

/-- How many bytes FB has (R20), and how many each plane's display RAM has (R160). -/
def fbSize : Nat := 1024
def dramSize : Nat := 512

/-- "for a in 0..1023: MemWrite(a, 1, f(a))" (R111, R112, R120), where f reads FB as it was. Every
byte is written and no byte is read after another is written, so the order does not show (log 21). -/
def writeAll (f : Nat → Byte) : Memory := Memory.build f 0 fbSize

/-- The canonical form: addresses from `lo` on, strictly rising, below `hi`, no entry 0x00. -/
def Memory.wfFrom (hi : Nat) : Nat → Memory → Bool
  | _, [] => true
  | lo, (k, v) :: m =>
    decide (lo ≤ k) && decide (k < hi) && (v != 0) && Memory.wfFrom hi (k + 1) m

/-- The canonical form of a memory of `size` bytes. -/
def Memory.wf (size : Nat) (m : Memory) : Bool := Memory.wfFrom size 0 m

/-! ## How a command ends -/

/-- A command completes: "CMD_COUNT <- CMD_COUNT + 1" (R21). -/
def complete (s : State) : Outcome := .next { s with cmdCount := s.cmdCount + 1 }

/-- `raise F(W)` (R181): the cause, the index and the word are recorded and nothing else changes.
The block is stuck from then on (`accept`). Taken as a next state, so that what is recorded can be
seen (log 3). -/
def raise (c : FaultCause) (w : Word) (s : State) : Outcome :=
  .next { s with fault := c, faultIndex := s.cmdCount, faultWord := w }

/-- "While FAULT ≠ 0 the block accepts no command (it is stuck)" (R26). -/
def accept (run : State → Outcome) (s : State) : Outcome :=
  if s.fault = .none then run s else .fault (.stuck s.fault)

/-! ## Before a command's rule runs -/

/-- The last four checks of R80, in its order: availability in DRAW_MODE, then INIT_DONE. -/
def admission (w : Word) (s : State) : Option FaultCause :=
  if opcode w = 0x8#4 ∧ s.cfg.drawMode = .immediate then some .modeUnavailable
  else if (opcode w = 0x9#4 ∨ opcode w = 0xA#4) ∧ s.cfg.drawMode = .buffered then
    some .modeUnavailable
  else if opcode w = 0x1#4 ∧ s.initDone = true then some .reinit
  else if opcode w ≠ 0x1#4 ∧ s.initDone = false then some .notInitialized
  else none

/-- A command of the table: the block accepts its word, checks it (R80), and runs its rule. -/
def command (w : Word) (rule : State → Outcome) : State → Outcome :=
  accept fun s =>
    match admission w s with
    | some c => raise c w s
    | none => rule s

/-- A word with an illegal opcode (R76). -/
def illegalCommand (w : Word) : State → Outcome := accept (raise .illegalOpcode w)

/-- A word with a must-be-zero bit set (R74). -/
def reservedCommand (w : Word) : State → Outcome := accept (raise .reservedField w)

/-- Between commands the block is idle and keeps all state (R192); a faulted block does not get
there, since a faulted state is never a normal end of a run (R181). -/
def idle : State → Outcome := accept .next

end Sys2Proof.Machine
end

