-- ==== Sys2Proof/Machine/Operands.lean ====
section
/-! DEFINITION. Where a pixel lives: the mapping from coordinates to a buffer byte and a bit, and
from a buffer address to the display (R51, R52, R58, R60). -/

namespace Sys2Proof.Machine

/-- The coordinates lie in the 128 × 64 plane (R58). -/
def inRange (x y : BitVec 8) : Bool := decide (x.toNat < 128) && decide (y.toNat < 64)

/-- addr(x, y) = {x[6], y[5:3], x[5:0]} (R51). -/
def pixelAddr (x y : BitVec 8) : BitVec 10 :=
  (x.extractLsb' 6 1 ++ y.extractLsb' 3 3) ++ x.extractLsb' 0 6

/-- bit(y) = y[2:0] (R51). -/
def pixelBit (y : BitVec 8) : BitVec 3 := y.extractLsb' 0 3

/-- Plane, page and column of a buffer address (R52, R60); plane false is plane 0. -/
def addrPlane (a : BitVec 10) : Bool := a.getLsbD 9
def addrPage (a : BitVec 10) : BitVec 3 := a.extractLsb' 6 3
def addrColumn (a : BitVec 10) : BitVec 6 := a.extractLsb' 0 6

/-- The column and the rows of pixels that a buffer address holds (R52). -/
def addrX (a : BitVec 10) : BitVec 8 := (0#1 ++ a.extractLsb' 9 1) ++ addrColumn a
def addrY (a : BitVec 10) (b : BitVec 3) : BitVec 8 := (0#2 ++ addrPage a) ++ b

/-- Where byte (page p, column c) lies in a plane's display RAM (R160). -/
def dramAddr (p : BitVec 3) (c : BitVec 6) : Nat := p.toNat * 64 + c.toNat

end Sys2Proof.Machine
end

