-- ==== Sys2Proof/Machine/Device.lean ====
section
/-! DEFINITION. The display device's response to a quad (R162 to R168), and to a reset pulse (R169). -/

namespace Sys2Proof.Machine

/-- SET_PAGE(p) on a selected plane (R163). -/
def Plane.setPage (p : BitVec 3) (pl : Plane) : Plane := { pl with page := p }

/-- SET_COLUMN(c) on a selected plane (R165). -/
def Plane.setColumn (c : BitVec 6) (pl : Plane) : Plane := { pl with col := c }

/-- SET_START_LINE(l) on a selected plane (R166). -/
def Plane.setStartLine (l : BitVec 6) (pl : Plane) : Plane := { pl with start := l }

/-- DISPLAY_ON or DISPLAY_OFF on a selected plane: "d = 1 on, 0 off" (R161); pointers, start line and
RAM are unchanged (R168, log 11, 19). -/
def Plane.display (on : Bool) (pl : Plane) : Plane := { pl with on := on }

/-- WRITE_DATA(b) on a selected plane: the byte lands at (PAGE, COL), then COL goes up by one,
modulo 64, and PAGE stays (R164). -/
def Plane.writeData (b : Byte) (pl : Plane) : Plane :=
  { pl with dram := Memory.write pl.dram (dramAddr pl.page pl.col) b, col := pl.col + 1 }

/-- A device command on a selected plane (R162). -/
def Plane.exec : DevCmd → Plane → Plane
  | .setPage p => Plane.setPage p
  | .setColumn c => Plane.setColumn c
  | .setStartLine l => Plane.setStartLine l
  | .display on => Plane.display on

/-- "the device applies the quad to every plane k whose select cs_k = 1, in the same way for each"
(R162). -/
def Device.onSelected (cs0 cs1 : Bool) (f : Plane → Plane) (d : Device) : Device :=
  { plane0 := if cs0 then f d.plane0 else d.plane0
    plane1 := if cs1 then f d.plane1 else d.plane1 }

/-- What a byte does to a selected plane: data is written; a command byte is decoded by DEV_ENC; a
device-defined byte changes nothing modelled (R162, R168, log 19). -/
def planeResponse (e : DevEnc) (mode : QuadMode) (b : Byte) : Plane → Plane :=
  match mode with
  | .data => Plane.writeData b
  | .cmd =>
    match e.decodeByte b with
    | some c => Plane.exec c
    | none => id

/-- The device's response to one quad (R162). -/
def Device.apply (e : DevEnc) (d : Device) (q : Quad) : Device :=
  Device.onSelected q.cs0 q.cs1 (planeResponse e q.mode q.byte) d

/-- A plane after the n-th reset pulse: every element is a draw (R169, log 8). -/
def drawnPlane (n : Nat) (k : Bool) : Plane where
  page := Config.drawnPage n k
  col := Config.drawnCol n k
  start := Config.drawnStart n k
  dram := Memory.build (Config.drawnByte n k) 0 dramSize
  on := Config.drawnOn n k

/-- The device after the n-th reset pulse (R169). -/
def drawnDevice (n : Nat) : Device := { plane0 := drawnPlane n false, plane1 := drawnPlane n true }

/-- A device command that reaches the display's lines from outside the block (log 12): only the
device changes. -/
def deviceCommand (cs0 cs1 : Bool) (f : Plane → Plane) (s : State) : Outcome :=
  .next { s with dev := Device.onSelected cs0 cs1 f s.dev }

/-- A quad whose byte is device-defined (R168): nothing modelled changes. -/
def deviceDefinedQuad (s : State) : Outcome := .next s

end Sys2Proof.Machine
end

