-- ==== Sys2Proof/Machine/DeviceOps.lean ====
section
/-! DEFINITION. The device command forms of the table, as quads that reach the display's lines
(R163 to R166, R161): on every plane whose select is 1 (R162). -/

namespace Sys2Proof.Machine

/-- SET_COLUMN(c) (R165). -/
def execDevSetColumn (cs0 cs1 : Bool) (c : BitVec 6) : State → Outcome :=
  deviceCommand cs0 cs1 (Plane.setColumn c)

/-- SET_PAGE(p) (R163). -/
def execDevSetPage (cs0 cs1 : Bool) (p : BitVec 3) : State → Outcome :=
  deviceCommand cs0 cs1 (Plane.setPage p)

/-- SET_START_LINE(l) (R166). -/
def execDevSetStartLine (cs0 cs1 : Bool) (l : BitVec 6) : State → Outcome :=
  deviceCommand cs0 cs1 (Plane.setStartLine l)

/-- WRITE_DATA(d) (R164). -/
def execDevWriteData (cs0 cs1 : Bool) (d : Byte) : State → Outcome :=
  deviceCommand cs0 cs1 (Plane.writeData d)

/-- DISPLAY_ON (d = 1) and DISPLAY_OFF (d = 0) (R161, R168, log 11). -/
def execDevDisplayOnOff (cs0 cs1 : Bool) (d : Bool) : State → Outcome :=
  deviceCommand cs0 cs1 (Plane.display d)

end Sys2Proof.Machine
end

