-- ==== Sys2Proof/Machine/Flags.lean ====
section
/-! DEFINITION. The flags and the counter: INV, DIRTY and DEPTH as commands read and write them
(R22 to R24), the polarity of what is stored (R110 to R112), and the packed views CONFIG and STATUS
(R27, R28). -/

namespace Sys2Proof.Machine

/-- One bit as a Bool's number. -/
def bit (b : Bool) : BitVec 1 := BitVec.ofBool b

/-! ## DIRTY and DEPTH, hardwired 0 in the other mode (R23, R24) -/

def readDirty (s : State) : Bool := decide (s.cfg.drawMode = .buffered) && s.dirty

/-- "if DRAW_MODE = Buffered: DIRTY <- v". -/
def writeDirty (v : Bool) (s : State) : State :=
  if s.cfg.drawMode = .buffered then { s with dirty := v } else s

def readDepth (s : State) : BitVec 16 := if s.cfg.drawMode = .immediate then s.depth else 0

def writeDepth (d : BitVec 16) (s : State) : State :=
  if s.cfg.drawMode = .immediate then { s with depth := d } else s

/-- DEPTH is at its maximum, 2^DEPTH_BITS − 1 (R131). -/
def depthAtMax (s : State) : Bool := (readDepth s).toNat == 2 ^ s.cfg.depthBits - 1

/-! ## Polarity (R22) -/

/-- The byte CLEAR stores: 0xFF when INV = 1, else 0x00 (R111). -/
def clearByte (inv : Bool) : Byte := if inv then 0xFF else 0x00

/-- The byte FILL stores: 0x00 when INV = 1, else 0xFF (R112). -/
def fillByte (inv : Bool) : Byte := if inv then 0x00 else 0xFF

/-- `(old & ~(1 << b)) | (s << b)` with `s = v ^ INV` (R110). -/
def pixelByte (old : Byte) (b : BitVec 3) (v inv : Bool) : Byte :=
  (old &&& ~~~(1#8 <<< b.toNat)) ||| ((bit (v ^^ inv)).zeroExtend 8 <<< b.toNat)

/-! ## Packed views (no command reads them) -/

/-- The 4-bit code of a cause (R180). -/
def FaultCause.code : FaultCause → BitVec 4
  | .none => 0
  | .illegalOpcode => 1
  | .reservedField => 2
  | .modeUnavailable => 3
  | .notInitialized => 4
  | .reinit => 5
  | .batchUnderflow => 6
  | .batchOverflow => 7

/-- CONFIG (R27): bits [0] DRAW_MODE, [1] TX_MODE, [2] INIT_ADDR_METHOD, [12:8] DEPTH_BITS. -/
def configView (c : Config) : Word :=
  ((((0#19 ++ BitVec.ofNat 5 c.depthBits) ++ 0#5)
    ++ bit (decide (c.initAddrMethod = .hwReset)))
    ++ bit (decide (c.txMode = .serial)))
    ++ bit (decide (c.drawMode = .immediate))

/-- STATUS (R28): bits [0] INIT_DONE, [1] INV, [2] DIRTY, [23:8] DEPTH, [27:24] FAULT. -/
def statusView (s : State) : Word :=
  (((((0#4 ++ s.fault.code) ++ readDepth s) ++ 0#5) ++ bit (readDirty s)) ++ bit s.inv)
    ++ bit s.initDone

end Sys2Proof.Machine
end

