-- ==== Sys2Proof/Machine/Transmission.lean ====
section
/-! DEFINITION. The output side: the levels a quad puts on the pins (R144), the parallel and the
serial transmitter as pin waveforms (R145 to R148), TX and the reset pulse (R143, R146), and the
procedures FULL_TX and BYTE_TX (R140, R141). -/

namespace Sys2Proof.Machine

/-! ## Levels (R144) -/

def csLevel (c : Config) (cs : Bool) : Bool := if c.csActiveHigh then cs else !cs

def rsLevel (c : Config) (mode : QuadMode) : Bool :=
  match mode with
  | .data => c.rsDataLevel
  | .cmd => !c.rsDataLevel

/-- The display-side levels that carry a quad, with E at a given level. -/
def quadLines (c : Config) (q : Quad) (e : Bool) : Lines where
  cs0 := csLevel c q.cs0
  cs1 := csLevel c q.cs1
  rs := rsLevel c q.mode
  d := q.byte
  e := e

/-- The quad that display-side levels carry: the level mapping of R144 read backwards. -/
def linesQuad (c : Config) (l : Lines) : Quad where
  cs0 := csLevel c l.cs0
  cs1 := csLevel c l.cs1
  mode := if l.rs = c.rsDataLevel then .data else .cmd
  byte := l.d

/-! ## Waveforms: what the pins hold, one after another, each for how long (R145, log 17) -/

structure PinStep where
  port : OutPort
  wait : Nat
  deriving DecidableEq, Repr

/-- What the pins hold after a waveform that starts from `p`. -/
def portAfter (p : OutPort) (steps : List PinStep) : OutPort :=
  match steps.getLast? with
  | some st => st.port
  | none => p

/-- E_PIN <- v. -/
def OutPort.setE (v : Bool) (p : OutPort) : OutPort := { p with lines := { p.lines with e := v } }

/-- TX_PAR (R145): the lines are set, then E is raised and lowered. -/
def parallelWave (c : Config) (q : Quad) (p : OutPort) : List PinStep :=
  let driven : OutPort := { p with lines := quadLines c q p.lines.e }
  [⟨driven, c.tSetup⟩, ⟨driven.setE true, c.tStrobe⟩, ⟨driven.setE false, c.tHold⟩]

/-- The level of the signal that a shift-register output drives; an unused one is 0 (R147). -/
def signalLevel (l : Lines) : SerSignal → Bool
  | .cs0 => l.cs0
  | .cs1 => l.cs1
  | .rs => l.rs
  | .data b => l.d.getLsbD b
  | .e => l.e
  | .unused => false

/-- build(q, e) (R147): the frame, bit i at index i. -/
def serialFrame (c : Config) (q : Quad) (e : Bool) : List Bool :=
  c.serMap.map (signalLevel (quadLines c q e))

/-- The frame's bits in the order they are shifted (SER_ORDER, R147). -/
def shiftSequence (c : Config) (f : List Bool) : List Bool :=
  match c.serOrder with
  | .msbFirst => f.reverse
  | .lsbFirst => f

/-- One shift of the register: the new bit enters at the end that makes the first bit shifted end up
where SER_ORDER puts it (R147, log 15). -/
def shiftIn (c : Config) (b : Bool) (stages : List Bool) : List Bool :=
  match c.serOrder with
  | .msbFirst => (b :: stages).take c.serMap.length
  | .lsbFirst => (stages ++ [b]).drop (stages.length + 1 - c.serMap.length)

/-- The level a signal gets from the register's outputs; one that no output drives keeps its own. -/
def outputLevel (c : Config) (stages : List Bool) (old : Bool) (σ : SerSignal) : Bool :=
  match (c.serMap.zip stages).find? fun x => x.1 == σ with
  | some x => x.2
  | none => old

/-- The display-side signals once the register has been transferred to its outputs (R148). -/
def outputLines (c : Config) (stages : List Bool) (old : Lines) : Lines where
  cs0 := outputLevel c stages old.cs0 .cs0
  cs1 := outputLevel c stages old.cs1 .cs1
  rs := outputLevel c stages old.rs .rs
  d := BitVec.ofFnLE fun b : Fin 8 => outputLevel c stages (old.d.getLsbD b) (.data b)
  e := outputLevel c stages old.e .e

/-- SDATA <- v. -/
def OutPort.setSdata (v : Bool) (p : OutPort) : OutPort :=
  { p with wires := { p.wires with sdata := v } }

/-- SCLK <- v, which shifts on the rising edge (R148). -/
def OutPort.setSclk (c : Config) (v : Bool) (p : OutPort) : OutPort :=
  { p with
    wires := { p.wires with sclk := v }
    shift := if v && !p.wires.sclk then shiftIn c p.wires.sdata p.shift else p.shift }

/-- SLATCH <- v, which transfers to the outputs when it rises (R148). -/
def OutPort.setSlatch (c : Config) (v : Bool) (p : OutPort) : OutPort :=
  { p with
    wires := { p.wires with slatch := v }
    lines := if v && !p.wires.slatch then outputLines c p.shift p.lines else p.lines }

/-- "SDATA <- f[..]; SCLK <- 1; SCLK <- 0" for each bit (R148). R212 counts SER_N shift clocks into a
quad's time and gives a shift clock no length: each of its writes has wait 0 here (DESIGN CHOICE,
log 17). -/
def shiftWave (c : Config) : List Bool → OutPort → List PinStep
  | [], _ => []
  | b :: bs, p =>
    let p1 := p.setSdata b
    let p2 := p1.setSclk c true
    let p3 := p2.setSclk c false
    ⟨p1, 0⟩ :: ⟨p2, 0⟩ :: ⟨p3, 0⟩ :: shiftWave c bs p3

/-- One frame of TX_SER: its bits, then the latch pulse, then T_LATCH (R148). R212 counts one latch into
a frame's time and gives it no length: the pulse has wait 0 here (DESIGN CHOICE, log 17). -/
def frameWave (c : Config) (f : List Bool) (p : OutPort) : List PinStep :=
  let shifting := shiftWave c (shiftSequence c f) p
  let p1 := (portAfter p shifting).setSlatch c true
  let p2 := p1.setSlatch c false
  shifting ++ [⟨p1, 0⟩, ⟨p2, c.tLatch⟩]

/-- TX_SER (R148): one frame for each level of SER_STROBE. -/
def serialWave (c : Config) (q : Quad) : List Bool → OutPort → List PinStep
  | [], _ => []
  | e :: es, p =>
    let frame := frameWave c (serialFrame c q e) p
    frame ++ serialWave c q es (portAfter p frame)

/-- The transmission multiplexer (R143): the waveform of the transmitter TX_MODE names. -/
def quadWave (c : Config) (q : Quad) (p : OutPort) : List PinStep :=
  match c.txMode with
  | .parallel => parallelWave c q p
  | .serial => serialWave c q c.serStrobe p

/-- The display-side levels at each falling edge of E, given the levels before: where the device
takes a quad (R145). -/
def strobed : Lines → List PinStep → List Lines
  | _, [] => []
  | l, st :: sts =>
    if l.e && !st.port.lines.e then st.port.lines :: strobed st.port.lines sts
    else strobed st.port.lines sts

/-- The named delays of a waveform added up, in the unit of the T_* parameters. R212 says that a quad
takes at least these, and for Serial its shift clocks and latches too, whose lengths it does not give:
they count 0 here (DESIGN CHOICE, log 17). -/
def waveDuration (steps : List PinStep) : Nat := (steps.map PinStep.wait).sum

/-- The pins after one quad. -/
def driveQuad (c : Config) (p : OutPort) (q : Quad) : OutPort := portAfter p (quadWave c q p)

/-- Every output signal of the configured transmitter goes to IDLE_LEVELS (R33, R100): the display-side
signals in Parallel mode, the three wires in Serial mode, and RST_PIN, which is there only with HW_RESET
(R144). What an instance does not have keeps its level, and the wires go in the order SDATA, SCLK,
SLATCH (log 23). -/
def driveIdle (c : Config) (p : OutPort) : OutPort :=
  let p1 : OutPort :=
    match c.txMode with
    | .parallel => { p with lines := c.idleLevels.lines }
    | .serial =>
      ((p.setSdata c.idleLevels.wires.sdata).setSclk c c.idleLevels.wires.sclk).setSlatch c
        c.idleLevels.wires.slatch
  match c.initAddrMethod with
  | .zeroCmds => p1
  | .hwReset => { p1 with rst := c.idleLevels.rst }

/-- The pin waveform of the reset pulse (R146). -/
def resetPulseWave (c : Config) (p : OutPort) : List PinStep :=
  [⟨{ p with rst := c.rstActiveLevel }, c.tRst⟩, ⟨{ p with rst := !c.rstActiveLevel }, c.tRstRecover⟩]

/-! ## TX (R143) -/

/-- TX for each quad in turn: it is appended to TRACE, driven onto the wires, and applied by the
device once, in order (R143, R150, R152, log 13). -/
def txAll (qs : List Quad) (s : State) : State :=
  { s with
    trace := s.trace ++ qs.map .quad
    port := qs.foldl (driveQuad s.cfg) s.port
    dev := qs.foldl (Device.apply s.cfg.devEnc) s.dev }

/-- The output signals go to IDLE_LEVELS, and nothing else changes. -/
def idlePins (s : State) : State := { s with port := driveIdle s.cfg s.port }

/-- DEVICE_RESET_PULSE (R146), and the device's response to it (R169). -/
def resetPulse (s : State) : State :=
  { s with
    trace := s.trace ++ [.resetPulse]
    port := portAfter s.port (resetPulseWave s.cfg s.port)
    dev := drawnDevice s.draws
    draws := s.draws + 1 }

/-! ## What the procedures send -/

/-- TX(sel(k), mode, b): sel(0) = (1, 0), sel(1) = (0, 1) (R142); k false is plane 0. -/
def quadTo (k : Bool) (mode : QuadMode) (b : Byte) : Quad :=
  { cs0 := !k, cs1 := k, mode := mode, byte := b }

/-- A device command byte to a plane. -/
def commandTo (e : DevEnc) (k : Bool) (d : DevCmd) : Quad := quadTo k .cmd (e.byteOf d)

/-- What INIT_EXTRA sends (R100 step 3): each element's command byte to its plane (R142, log 20). -/
def initExtraQuads (c : Config) : List Quad := c.initExtra.map fun q => quadTo q.plane .cmd q.byte

/-- Set page p, then the 64 bytes of that page in increasing column order (R140). -/
def pageQuads (e : DevEnc) (fb : Memory) (k : Bool) (p : Nat) : List Quad :=
  commandTo e k (.setPage (BitVec.ofNat 3 p)) ::
    (List.range 64).map fun c => quadTo k .data (Memory.read fb (k.toNat * 512 + p * 64 + c))

/-- One plane of FULL_TX: the column once, then its eight pages (R140, R205). -/
def planeQuads (e : DevEnc) (fb : Memory) (k : Bool) : List Quad :=
  commandTo e k (.setColumn 0) :: (List.range 8).flatMap (pageQuads e fb k)

/-- What FULL_TX sends (R140). -/
def fullTxQuads (e : DevEnc) (fb : Memory) : List Quad :=
  planeQuads e fb false ++ planeQuads e fb true
    ++ [commandTo e false (.setPage 0), commandTo e true (.setPage 0)]

/-- What BYTE_TX(a) sends (R141). -/
def byteTxQuads (e : DevEnc) (fb : Memory) (a : BitVec 10) : List Quad :=
  [commandTo e (addrPlane a) (.setPage (addrPage a)),
   commandTo e (addrPlane a) (.setColumn (addrColumn a)),
   quadTo (addrPlane a) .data (Memory.read fb a.toNat)]

/-- The start line, page and column of both planes, set to 0 (R100 step 2, R101). -/
def zeroPointerQuads (e : DevEnc) : List Quad :=
  [false, true].flatMap fun k =>
    [commandTo e k (.setStartLine 0), commandTo e k (.setPage 0), commandTo e k (.setColumn 0)]

/-- FULL_TX() (R140). -/
def fullTx (s : State) : State := txAll (fullTxQuads s.cfg.devEnc s.fb) s

/-- BYTE_TX(a) (R141). -/
def byteTx (a : BitVec 10) (s : State) : State := txAll (byteTxQuads s.cfg.devEnc s.fb a) s

/-- What CLEAR, FILL and SET_INVERTED do once FB is written: "if DRAW_MODE = Buffered: DIRTY <- 1,
else: FULL_TX()", whatever DEPTH holds (R111, R112, R120). -/
def publishAll (s : State) : State :=
  match s.cfg.drawMode with
  | .buffered => writeDirty true s
  | .immediate => fullTx s

end Sys2Proof.Machine
end

