-- ==== Sys2Proof/Machine/FlushBatch.lean ====
section
/-! DEFINITION. FLUSH, ENTER_BATCH and LEAVE_BATCH (R130 to R132). -/

namespace Sys2Proof.Machine

/-- FLUSH (R130). -/
def execFlush : State → Outcome :=
  command (plainWord 0x8#4) fun s =>
    complete (writeDirty false (if readDirty s then fullTx s else s))

/-- ENTER_BATCH (R131). -/
def execEnterBatch : State → Outcome :=
  command (plainWord 0x9#4) fun s =>
    if depthAtMax s then raise .batchOverflow (plainWord 0x9#4) s
    else complete (writeDepth (readDepth s + 1) s)

/-- LEAVE_BATCH (R132). -/
def execLeaveBatch : State → Outcome :=
  command (plainWord 0xA#4) fun s =>
    if readDepth s = 0 then raise .batchUnderflow (plainWord 0xA#4) s
    else
      let s1 := writeDepth (readDepth s - 1) s
      complete (if readDepth s1 = 0 then fullTx s1 else s1)

end Sys2Proof.Machine
end

