-- ==== Sys2Proof/Machine/Illegal.lean ====
section
/-! DEFINITION. The illegal opcodes 0x0 and 0xB to 0xF: each raises ILLEGAL_OPCODE with the word that
arrived (R76, R80). -/

namespace Sys2Proof.Machine

def execIllegalOp0 (w : Word) : State → Outcome := illegalCommand w
def execIllegalOpB (w : Word) : State → Outcome := illegalCommand w
def execIllegalOpC (w : Word) : State → Outcome := illegalCommand w
def execIllegalOpD (w : Word) : State → Outcome := illegalCommand w
def execIllegalOpE (w : Word) : State → Outcome := illegalCommand w
def execIllegalOpF (w : Word) : State → Outcome := illegalCommand w

end Sys2Proof.Machine
end

