-- ==== Sys2Proof/Machine/Inversion.lean ====
section
/-! DEFINITION. SET_INVERTED and GET_INVERTED (R120, R121), and what the host reads from the response
port (R32, R75). -/

namespace Sys2Proof.Machine

/-- SET_INVERTED (R120): every byte complemented when v ≠ INV, otherwise a no-op (R193). -/
def execSetInverted (v : Bool) : State → Outcome :=
  command (commandWord 0x6#4 v 0 0) fun s =>
    complete (if v = s.inv then s
      else publishAll { s with fb := writeAll fun a => ~~~Memory.read s.fb a, inv := v })

/-- GET_INVERTED (R121): `respond(zext_32(INV))`. The stamp is CMD_COUNT right after it, up to which
RESP may be read (R32, log 9). -/
def execGetInverted : State → Outcome :=
  command (plainWord 0x7#4) fun s =>
    complete { s with resp := (bit s.inv).zeroExtend 32, respStamp := some (s.cmdCount + 1) }

/-- What the host reads from the response port (R32): RESP after the GET_INVERTED that wrote it and
before the next command, otherwise an unspecified value (log 9). -/
def hostReadResp (s : State) : Word :=
  if s.respStamp = some s.cmdCount ∧ s.fault = .none then s.resp
  else Config.unspecifiedResp s.cmdCount

end Sys2Proof.Machine
end

