-- ==== Sys2Proof/Machine/Lifecycle.lean ====
section
/-! DEFINITION. INIT and RESET (R100, R101). -/

namespace Sys2Proof.Machine

/-- The body of RESET (R101): INV off, the pointers of both planes to 0, FB cleared, the whole
buffer sent, DIRTY cleared (Buffered). -/
def resetBody (s : State) : State :=
  let s1 := txAll (zeroPointerQuads s.cfg.devEnc) { s with inv := false }
  writeDirty false (fullTx { s1 with fb := writeAll fun _ => 0x00 })

/-- RESET (R101). -/
def execReset : State → Outcome := command (plainWord 0x2#4) fun s => complete (resetBody s)

/-- INIT step 2 (R100): zero the addressing registers by command or by reset pulse. -/
def initAddressing (s : State) : State :=
  match s.cfg.initAddrMethod with
  | .zeroCmds => txAll (zeroPointerQuads s.cfg.devEnc) s
  | .hwReset => resetPulse s

/-- INIT up to its full reset (R100): the output lines, the addressing registers, INIT_EXTRA, and
INIT_DONE. -/
def initSetup (s : State) : State :=
  let s1 := initAddressing (idlePins s)
  { txAll (initExtraQuads s1.cfg) s1 with initDone := true }

/-- INIT (R100). The quads of its full reset leave their own levels on the output signals, and R33
says that these are at IDLE_LEVELS when INIT completes, so INIT ends by driving them there, as its
step 1 does (log 14). -/
def execInit : State → Outcome :=
  command (plainWord 0x1#4) fun s => complete (idlePins (resetBody (initSetup s)))

end Sys2Proof.Machine
end

