-- ==== Sys2Proof/Machine/PixelOps.lean ====
section
/-! DEFINITION. SET_PIXEL, CLEAR and FILL (R110 to R112). -/

namespace Sys2Proof.Machine

/-- SET_PIXEL with coordinates in the plane (R110): one bit of one byte, then DIRTY (Buffered), the
byte sent (Immediate, outside a batch), or nothing (Immediate, inside one). -/
def drawPixel (v : Bool) (x y : BitVec 8) (s : State) : State :=
  let a := pixelAddr x y
  let byte := pixelByte (Memory.read s.fb a.toNat) (pixelBit y) v s.inv
  let s1 := { s with fb := Memory.write s.fb a.toNat byte }
  match s.cfg.drawMode with
  | .buffered => writeDirty true s1
  | .immediate => if readDepth s1 = 0 then byteTx a s1 else s1

/-- SET_PIXEL (R110); outside the plane it is a silent no-op (R193). -/
def execSetPixel (v : Bool) (x y : BitVec 8) : State → Outcome :=
  command (commandWord 0x3#4 v x y) fun s =>
    complete (if inRange x y then drawPixel v x y s else s)

/-- CLEAR (R111). -/
def execClear : State → Outcome :=
  command (plainWord 0x4#4) fun s =>
    complete (publishAll { s with fb := writeAll fun _ => clearByte s.inv })

/-- FILL (R112). -/
def execFill : State → Outcome :=
  command (plainWord 0x5#4) fun s =>
    complete (publishAll { s with fb := writeAll fun _ => fillByte s.inv })

end Sys2Proof.Machine
end

