-- ==== Sys2Proof/Machine/Dispatch.lean ====
section
/-! DEFINITION. One arm for each instruction, each a direct call of its meaning. -/

namespace Sys2Proof.Machine

def exec (i : Instr) (s : State) : Host.Outcome State Fault Refusal :=
  match i with
  | .init => Sys2Proof.Machine.execInit s
  | .reset => Sys2Proof.Machine.execReset s
  | .setPixel v x y => Sys2Proof.Machine.execSetPixel v x y s
  | .clear => Sys2Proof.Machine.execClear s
  | .fill => Sys2Proof.Machine.execFill s
  | .setInverted v => Sys2Proof.Machine.execSetInverted v s
  | .getInverted => Sys2Proof.Machine.execGetInverted s
  | .flush => Sys2Proof.Machine.execFlush s
  | .enterBatch => Sys2Proof.Machine.execEnterBatch s
  | .leaveBatch => Sys2Proof.Machine.execLeaveBatch s
  | .illegalOp0 w => Sys2Proof.Machine.execIllegalOp0 w s
  | .illegalOpB w => Sys2Proof.Machine.execIllegalOpB w s
  | .illegalOpC w => Sys2Proof.Machine.execIllegalOpC w s
  | .illegalOpD w => Sys2Proof.Machine.execIllegalOpD w s
  | .illegalOpE w => Sys2Proof.Machine.execIllegalOpE w s
  | .illegalOpF w => Sys2Proof.Machine.execIllegalOpF w s
  | .devSetColumn cs0 cs1 c => Sys2Proof.Machine.execDevSetColumn cs0 cs1 c s
  | .devSetPage cs0 cs1 p => Sys2Proof.Machine.execDevSetPage cs0 cs1 p s
  | .devSetStartLine cs0 cs1 l => Sys2Proof.Machine.execDevSetStartLine cs0 cs1 l s
  | .devWriteData cs0 cs1 d => Sys2Proof.Machine.execDevWriteData cs0 cs1 d s
  | .devDisplayOnOff cs0 cs1 d => Sys2Proof.Machine.execDevDisplayOnOff cs0 cs1 d s

end Sys2Proof.Machine
end

