-- ==== Sys2Proof/Machine/Fetch.lean ====
section
/-! DEFINITION. Accepting what arrives (R70), and what a step does with an item that is no
instruction. -/

namespace Sys2Proof.Machine

/-- What the next step takes, and the state once it is taken; none when nothing has arrived. -/
def fetch (s : State) : Option (InboxItem × State) :=
  match s.inbox with
  | [] => none
  | item :: rest => some (item, { s with inbox := rest })

/-- A word with a must-be-zero bit set raises RESERVED_FIELD (R74); a quad with a device-defined byte
changes nothing modelled (R168). -/
def rejected (item : InboxItem) : State → Outcome :=
  match item with
  | .command w => reservedCommand w
  | .quad _ => deviceDefinedQuad

/-- The item becomes the next one to be taken, in the place of the one that was (log 2). -/
def placeNext (item : InboxItem) (s : State) : State := { s with inbox := item :: s.inbox.drop 1 }

end Sys2Proof.Machine
end

