-- ==== Sys2Proof/Machine/Step.lean ====
section
/-! DEFINITION. One step: the next item from outside is taken, decoded and executed to completion
(R70, R77); and how a row's word is put where the next step takes it. -/

namespace Sys2Proof.Machine

/-- One step. A configuration that describes no instance is refused (R211); with nothing on the port
the block is idle (R192). -/
def step (s : State) : Host.Outcome State Fault Refusal :=
  if s.cfg.valid then
    match fetch s with
    | none => idle s
    | some (item, s1) =>
      match decode s.cfg.devEnc item with
      | .ok i => exec i s1
      | .error _ => rejected item s1
  else .refused .invalidConfig

/-- The state with a table row's word as what the next step takes (log 2). -/
def State.withFetchWord (s : State) (nbits w : Nat) : State := placeNext (itemOfTable nbits w) s

end Sys2Proof.Machine
end

