-- ==== Sys2Proof/Machine/Assembler.lean ====
section
/-! DEFINITION. The assembler syntax of command streams: one command a line, `;` starts a comment,
operands in decimal or 0x hexadecimal (R78). What R78 leaves open of a line's spelling is the model's
choice (DESIGN CHOICE, log 24), marked where it is made. -/

namespace Sys2Proof.Machine

/-- What counts as blank: space, tab and carriage return (DESIGN CHOICE, log 24). -/
def isBlank (c : Char) : Bool := c == ' ' || c == '\t' || c == '\r'

/-- The characters without blanks at either end. -/
def trim (cs : List Char) : List Char :=
  ((cs.dropWhile isBlank).reverse.dropWhile isBlank).reverse

/-- The parts between the commas. -/
def splitCommas : List Char → List (List Char)
  | [] => [[]]
  | c :: cs =>
    match splitCommas cs with
    | [] => [[c]]
    | part :: parts => if c = ',' then [] :: part :: parts else (c :: part) :: parts

/-- The value of a digit below the base. A hexadecimal digit may be of either case (DESIGN CHOICE,
log 24). -/
def digitValue (base : Nat) (c : Char) : Option Nat :=
  let n := c.toNat
  let v := if 48 ≤ n ∧ n ≤ 57 then n - 48
    else if 97 ≤ n ∧ n ≤ 102 then n - 87
    else if 65 ≤ n ∧ n ≤ 70 then n - 55
    else base
  if v < base then some v else none

def digitsValue (base : Nat) : Nat → List Char → Option Nat
  | acc, [] => some acc
  | acc, c :: cs =>
    match digitValue base c with
    | some v => digitsValue base (acc * base + v) cs
    | none => none

/-- "0..255 decimal or 0x hex": the x is lower case, and leading zeros are allowed in both (DESIGN
CHOICE, log 24). -/
def coordinate (cs : List Char) : Option (BitVec 8) :=
  let value :=
    match cs with
    | [] => none
    | '0' :: 'x' :: c :: rest => digitsValue 16 0 (c :: rest)
    | c :: rest => digitsValue 10 0 (c :: rest)
  match value with
  | some n => if n < 256 then some (BitVec.ofNat 8 n) else none
  | none => none

/-- "v: 0 or 1": the one digit, never 0x hexadecimal and without leading zeros (DESIGN CHOICE,
log 24). -/
def bitOperand : List Char → Option Bool
  | ['0'] => some false
  | ['1'] => some true
  | _ => none

/-- The command of a mnemonic and its operands, `(OP << 28) | (v << 16) | (x << 8) | y`. -/
def assembleCommand (mnemonic : String) (operands : List (List Char)) : Option Word :=
  match mnemonic, operands with
  | "INIT", [[]] => some (plainWord 0x1#4)
  | "RESET", [[]] => some (plainWord 0x2#4)
  | "SET_PIXEL", [xs, ys, vs] =>
    match coordinate xs, coordinate ys, bitOperand vs with
    | some x, some y, some v => some (commandWord 0x3#4 v x y)
    | _, _, _ => none
  | "CLEAR", [[]] => some (plainWord 0x4#4)
  | "FILL", [[]] => some (plainWord 0x5#4)
  | "SET_INVERTED", [vs] =>
    match bitOperand vs with
    | some v => some (commandWord 0x6#4 v 0 0)
    | none => none
  | "GET_INVERTED", [[]] => some (plainWord 0x7#4)
  | "FLUSH", [[]] => some (plainWord 0x8#4)
  | "ENTER_BATCH", [[]] => some (plainWord 0x9#4)
  | "LEAVE_BATCH", [[]] => some (plainWord 0xA#4)
  | _, _ => none

/-- What a line of a command stream says. -/
inductive AssembledLine where
  /-- Nothing but blanks and a comment: no word (DESIGN CHOICE, log 24). -/
  | empty
  | word (w : Word)
  /-- Any other line: R78 gives it no meaning (DESIGN CHOICE, log 24). -/
  | malformed
  deriving DecidableEq, Repr

/-- One line (R78): a mnemonic, then blanks, then its operands with commas between them. Blanks may
stand at either end of the line and around an operand; a line of nothing but blanks and a comment gives
no word, and every line that is not one of the ten forms is malformed (DESIGN CHOICE, log 24). -/
def assembleLine (line : List Char) : AssembledLine :=
  let code := trim (line.takeWhile (· != ';'))
  match code with
  | [] => .empty
  | _ =>
    let mnemonic := code.takeWhile fun c => !isBlank c
    let operands := (splitCommas (code.dropWhile fun c => !isBlank c)).map trim
    match assembleCommand (String.ofList mnemonic) operands with
    | some w => .word w
    | none => .malformed

end Sys2Proof.Machine
end

