-- ==== Sys2Proof/Machine/Views.lean ====
section
/-! DEFINITION. The observation's derived views (D32): the logical pixel (R30), the shown image (R167),
and whether the display holds what the buffer holds (R61). -/

namespace Sys2Proof.Machine

/-- The byte of FB at a buffer address (R20, R60). -/
def fbByte (s : State) (a : BitVec 10) : Byte := Memory.read s.fb a.toNat

/-- A plane of the device; false is plane 0. -/
def Device.plane (d : Device) (k : Bool) : Plane := if k then d.plane1 else d.plane0

/-- DRAM_k[p][c] (R160). -/
def dramByte (s : State) (k : Bool) (p : BitVec 3) (c : BitVec 6) : Byte :=
  Memory.read (s.dev.plane k).dram (dramAddr p c)

/-- The stored bit of a pixel (R30: the physical pixel, once transmitted). -/
def storedBit (s : State) (x y : BitVec 8) : Bool :=
  (fbByte s (pixelAddr x y)).getLsbD (pixelBit y).toNat

/-- LPIX(x, y), for coordinates in the plane (R30). -/
def logicalPixel (s : State) (x y : BitVec 8) : Bool := storedBit s x y ^^ s.inv

/-- SYNC (R61). -/
def Sync (s : State) : Prop :=
  ∀ a : BitVec 10, dramByte s (addrPlane a) (addrPage a) (addrColumn a) = fbByte s a

/-- SHOW(x, r) (R167): the lit pixels, rotated by START_k. -/
def shownPixel (s : State) (x : BitVec 7) (r : BitVec 6) : Bool :=
  let k := x.getLsbD 6
  let row := r + (s.dev.plane k).start
  (dramByte s k (row.extractLsb' 3 3) (x.extractLsb' 0 6)).getLsbD (row.extractLsb' 0 3).toNat

/-- The quads among the events sent (R152). -/
def TraceEvent.quad? : TraceEvent → Option Quad
  | .quad q => some q
  | .resetPulse => none

end Sys2Proof.Machine
end

