-- ==== Sys2Proof/Safety.lean ====
section
/-! DEFINITION. What the claims about runs say: a safe run, a power-on state, the structural
invariant of a state, and the consistency of buffer and display (R61). -/

namespace Sys2Proof.Machine

/-- `n` steps from `s` answer a next state each time, and no state on the way is faulted ("A faulted
state is never a normal end of a run", R181). -/
def SafeRun (n : Nat) (s : State) : Prop :=
  ∀ k ≤ n, ∃ t, Sys2Proof.core.run k s = .next t ∧ t.fault = .none

/-- What the spec fixes of a state after power-on, for any instance (R33, R200). Everything else is
unspecified there. -/
def PowerOn (s : State) : Prop :=
  s.initDone = false ∧ s.fault = .none ∧ s.depth = 0 ∧ s.cmdCount = 0 ∧ s.trace = []
    ∧ s.respStamp = none ∧ (s.cfg.drawMode = .immediate → s.dirty = false)

/-- INIT has run and nothing has faulted: a command available in DRAW_MODE runs its rule (R80). -/
def Ready (s : State) : Prop := s.fault = .none ∧ s.initDone = true

/-- The ten command rows of R73, as (mask, match). -/
def commandRows : List (Word × Word) :=
  [(0xFFFFFFFF, 0x10000000), (0xFFFFFFFF, 0x20000000), (0xFFFE0000, 0x30000000),
   (0xFFFFFFFF, 0x40000000), (0xFFFFFFFF, 0x50000000), (0xFFFEFFFF, 0x60000000),
   (0xFFFFFFFF, 0x70000000), (0xFFFFFFFF, 0x80000000), (0xFFFFFFFF, 0x90000000),
   (0xFFFFFFFF, 0xA0000000)]

/-- The instruction is a command of the block, not a device form. -/
def isCommand : Instr → Bool
  | .devSetColumn _ _ _ => false
  | .devSetPage _ _ _ => false
  | .devSetStartLine _ _ _ => false
  | .devWriteData _ _ _ => false
  | .devDisplayOnOff _ _ _ => false
  | _ => true

/-- The form every state keeps. -/
structure WellFormed (s : State) : Prop where
  /-- The configuration describes an instance (R211). -/
  cfg : s.cfg.valid = true
  /-- The memories are canonical and no larger than R20 and R160 say. -/
  fb : Memory.wf fbSize s.fb = true
  dram0 : Memory.wf dramSize s.dev.plane0.dram = true
  dram1 : Memory.wf dramSize s.dev.plane1.dram = true
  /-- DIRTY and DEPTH are hardwired 0 in the mode that does not use them (R23, R24). -/
  dirty : s.cfg.drawMode = .immediate → s.dirty = false
  depth : s.cfg.drawMode = .buffered → s.depth = 0
  /-- DEPTH has DEPTH_BITS bits (R24). -/
  depthBits : s.depth.toNat < 2 ^ s.cfg.depthBits
  /-- Nothing has happened before INIT (R25, R200). -/
  fresh : s.initDone = false → s.cmdCount = 0 ∧ s.depth = 0 ∧ s.trace = [] ∧ s.respStamp = none
  /-- The faulting command is the one after the completed ones (R180). -/
  faultIndex : s.fault ≠ .none → s.faultIndex = s.cmdCount
  /-- RESP was written by a completed command (R32). -/
  respStamp : ∀ n, s.respStamp = some n → n ≤ s.cmdCount

/-- No quad from outside the block waits: R150's "no other quad is applied". -/
def NoForeignQuad (s : State) : Prop := ∀ item ∈ s.inbox, ∃ w, item = .command w

/-- When the display holds what the buffer holds (R61). -/
def Consistent (s : State) : Prop :=
  s.initDone = true →
    (s.cfg.drawMode = .immediate → s.depth = 0 → Sync s)
      ∧ (s.cfg.drawMode = .buffered → s.dirty = false → Sync s)

end Sys2Proof.Machine
end

