-- ==== Sys2Proof/Certificates/Slice0/Obligations.lean ====
section
/-! DEFINITION. The statements for the provers: encodings, the rule of every command, faults, the
display, and what every step keeps. -/

open Sys2Proof Sys2Proof.Machine

/-! ## Encodings -/

/-- Decoding what a well-formed instruction is encoded as gives it back, whatever the DEV_ENC, as long
as it tells its bytes apart (30_encoding.md sections 1 and 2, 45_display_device.md section 1). -/
def Obligations.DecodeOfEncodeIsTheInstruction : Prop :=
  ∀ (e : DevEnc) (i : Instr), e.wf = true → i.wf = true → decode e (encode e i) = .ok i

/-- Every word and every quad that decodes is the encoding of what it decodes to: no two words mean the
same instruction. -/
def Obligations.EncodeOfDecodeIsTheWord : Prop :=
  (∀ (e : DevEnc) (w : Word) (i : Instr), decodeWord w = .ok i → encode e i = .command w) ∧
  (∀ (e : DevEnc) (q : Quad) (i : Instr), e.wf = true → decodeQuad e q = .ok i →
    encode e i = .quad q)

/-- The words of 95_test_vectors.md section 2.1 and quads of section 2.8 decode as written there. -/
def Obligations.SpecWordsDecodeAsWritten : Prop :=
  decodeTableWord 32 0x10000000 = some .init ∧
  decodeTableWord 32 0x30010203 = some (.setPixel true 2 3) ∧
  decodeTableWord 32 0x30017F3F = some (.setPixel true 127 63) ∧
  decodeTableWord 32 0x30008040 = some (.setPixel false 128 64) ∧
  decodeTableWord 32 0x60010000 = some (.setInverted true) ∧
  decodeTableWord 32 0xA0000000 = some .leaveBatch ∧
  decodeTableWord 32 0x40010000 = none ∧
  decodeTableWord 32 0xFFFFFFFF = some (.illegalOpF 0xFFFFFFFF) ∧
  decode DevEnc.default (.quad ⟨true, false, .cmd, 0xBB⟩) = .ok (.devSetPage true false 3) ∧
  decode DevEnc.default (.quad ⟨true, false, .cmd, 0x7E⟩) = .ok (.devSetColumn true false 62) ∧
  decode DevEnc.default (.quad ⟨false, true, .cmd, 0xC0⟩) = .ok (.devSetStartLine false true 0) ∧
  decode DevEnc.default (.quad ⟨true, false, .data, 0x11⟩) = .ok (.devWriteData true false 0x11)

/-- The assembler of R78: the word of each of its ten forms, x and y in decimal or in 0x hexadecimal;
a comment changes nothing; and whatever the line, a word it gives is one of the ten commands and decodes
to an instruction. Which other spellings a line may have is the model's choice (log 24), and no clause
says. -/
def Obligations.AssembledLinesAreLegalCommands : Prop :=
  assembleLine "INIT".toList = .word 0x10000000 ∧
  assembleLine "RESET".toList = .word 0x20000000 ∧
  (∀ (v : Bool) (x y : BitVec 8) (xs ys : List Char),
    (xs = Nat.toDigits 10 x.toNat ∨ xs = '0' :: 'x' :: Nat.toDigits 16 x.toNat) →
    (ys = Nat.toDigits 10 y.toNat ∨ ys = '0' :: 'x' :: Nat.toDigits 16 y.toNat) →
    assembleLine ("SET_PIXEL ".toList ++ xs ++ ", ".toList ++ ys ++ ", ".toList
        ++ [if v then '1' else '0'])
      = .word (BitVec.ofNat 32
          (0x3 * 2 ^ 28 + (if v then 1 else 0) * 2 ^ 16 + x.toNat * 2 ^ 8 + y.toNat))) ∧
  assembleLine "CLEAR".toList = .word 0x40000000 ∧
  assembleLine "FILL".toList = .word 0x50000000 ∧
  assembleLine "SET_INVERTED 0".toList = .word 0x60000000 ∧
  assembleLine "SET_INVERTED 1".toList = .word 0x60010000 ∧
  assembleLine "GET_INVERTED".toList = .word 0x70000000 ∧
  assembleLine "FLUSH".toList = .word 0x80000000 ∧
  assembleLine "ENTER_BATCH".toList = .word 0x90000000 ∧
  assembleLine "LEAVE_BATCH".toList = .word 0xA0000000 ∧
  (∀ line comment : List Char, assembleLine (line ++ ';' :: comment) = assembleLine line) ∧
  (∀ (line : List Char) (w : Word), assembleLine line = .word w →
    1 ≤ (opcode w).toNat ∧ (opcode w).toNat ≤ 10 ∧ ∃ i, decodeWord w = .ok i)

/-- The pixel mapping of R51 by its arithmetic, and that it and the inverse mapping of R52 undo each
other: a bijection from the 8192 pixels onto (buffer address, bit) pairs. -/
def Obligations.PixelMappingIsABijection : Prop :=
  (∀ x y : BitVec 8, x.toNat < 128 → y.toNat < 64 →
    (pixelAddr x y).toNat = x.toNat / 64 * 512 + y.toNat / 8 * 64 + x.toNat % 64 ∧
    (pixelBit y).toNat = y.toNat % 8 ∧
    addrX (pixelAddr x y) = x ∧ addrY (pixelAddr x y) (pixelBit y) = y) ∧
  (∀ (a : BitVec 10) (b : BitVec 3),
    (addrX a).toNat = 64 * (a.toNat / 512) + a.toNat % 64 ∧
    (addrY a b).toNat = 8 * (a.toNat / 64 % 8) + b.toNat ∧
    pixelAddr (addrX a) (addrY a b) = a ∧ pixelBit (addrY a b) = b)

/-! ## Steps and faults -/

/-- What a step does around exec: it takes the oldest item and runs what that decodes to (R70); a word
with a must-be-zero bit set raises RESERVED_FIELD, a device-defined quad passes, an empty port idles,
and an invalid configuration is refused (R74, R168, R192, R211). That a foreign quad is an item at all
is the model's choice (log 12). -/
def Obligations.StepRunsTheDecodedInstruction : Prop :=
  ∀ s : State,
    (∀ item rest i, s.cfg.valid = true → s.inbox = item :: rest →
      decode s.cfg.devEnc item = .ok i → step s = exec i { s with inbox := rest }) ∧
    (∀ w rest r, s.cfg.valid = true → s.inbox = .command w :: rest → decodeWord w = .error r →
      s.fault = .none →
      step s = .next { s with
        inbox := rest, fault := .reservedField, faultIndex := s.cmdCount, faultWord := w }) ∧
    (∀ q rest r, s.cfg.valid = true → s.inbox = .quad q :: rest →
      decodeQuad s.cfg.devEnc q = .error r → step s = .next { s with inbox := rest }) ∧
    (s.cfg.valid = true → s.inbox = [] → s.fault = .none → step s = .next s) ∧
    (s.cfg.valid = false → step s = .refused .invalidConfig)

/-- R74: a word with OP 0x1 to 0xA that fails its row's mask is no instruction, and raises
RESERVED_FIELD, whatever the mode and whether or not INIT has run. -/
def Obligations.MustBeZeroBitsRaiseReservedField : Prop :=
  ∀ (s : State) (w : Word) (rest : List InboxItem) (mask fixed : Word),
    s.cfg.valid = true → s.fault = .none → s.inbox = .command w :: rest →
    (mask, fixed) ∈ commandRows → opcode w = opcode fixed → w &&& mask ≠ fixed →
    decodeWord w = .error .reservedField ∧
    step s = .next { s with
      inbox := rest, fault := .reservedField, faultIndex := s.cmdCount, faultWord := w }

/-- Every illegal-opcode instruction, in a block that has not faulted, records ILLEGAL_OPCODE, the
index and its word, and changes nothing else (R76, R181). -/
def Obligations.IllegalOpcodesRaiseIllegalOpcode : Prop :=
  ∀ (s : State) (w : Word), s.fault = .none →
    let t : State :=
      { s with fault := .illegalOpcode, faultIndex := s.cmdCount, faultWord := w }
    exec (.illegalOp0 w) s = .next t ∧ exec (.illegalOpB w) s = .next t ∧
    exec (.illegalOpC w) s = .next t ∧ exec (.illegalOpD w) s = .next t ∧
    exec (.illegalOpE w) s = .next t ∧ exec (.illegalOpF w) s = .next t

/-- R182: the fault a command word ends with is the first that applies, in the order of the rule; a
word to which none applies completes. -/
def Obligations.FirstApplicableFaultIsReported : Prop :=
  ∀ (s : State) (w : Word) (rest : List InboxItem),
    s.cfg.valid = true → s.fault = .none → s.inbox = .command w :: rest →
    ∃ t, step s = .next t ∧ t.fault =
      if opcode w = 0x0#4 ∨ 0xB ≤ (opcode w).toNat then .illegalOpcode
      else if ∀ r ∈ commandRows, w &&& r.1 ≠ r.2 then .reservedField
      else if (opcode w = 0x8#4 ∧ s.cfg.drawMode = .immediate) ∨
          ((opcode w = 0x9#4 ∨ opcode w = 0xA#4) ∧ s.cfg.drawMode = .buffered) then
        .modeUnavailable
      else if opcode w = 0x1#4 ∧ s.initDone = true then .reinit
      else if opcode w ≠ 0x1#4 ∧ s.initDone = false then .notInitialized
      else if opcode w = 0xA#4 ∧ s.depth = 0 then .batchUnderflow
      else if opcode w = 0x9#4 ∧ s.depth.toNat = 2 ^ s.cfg.depthBits - 1 then .batchOverflow
      else .none

/-- R181: a command word that raises a fault records the cause, the index and the word, and changes
nothing else; afterwards the block accepts no word, and no step clears the fault. That raising is a
next state, after which the machine stops, is the model's choice (log 3). -/
def Obligations.FaultsArePreciseAndFinal : Prop :=
  ∀ (s t : State) (w : Word) (rest : List InboxItem),
    s.fault = .none → s.inbox = .command w :: rest → step s = .next t → t.fault ≠ .none →
    t = { s with
      inbox := rest, fault := t.fault, faultIndex := s.cmdCount, faultWord := w } ∧
    (∀ w' rest', step { t with inbox := .command w' :: rest' } = .fault (.stuck t.fault)) ∧
    (∀ u, step t = .next u → u.fault = t.fault)

/-- While FAULT ≠ 0 the block accepts no command, whichever it is (R26). That an idle step of it stops
too is the model's choice (log 3), and so is that the steps of the display still run (log 22), which a
quad from outside takes (log 12): in every step the model still takes, FAULT, FAULT_INDEX, FAULT_WORD,
FB, CMD_COUNT and TRACE keep their values. -/
def Obligations.FaultedBlockAcceptsNoCommand : Prop :=
  ∀ s : State, s.fault ≠ .none →
    (∀ i, isCommand i = true → exec i s = .fault (.stuck s.fault)) ∧
    (s.cfg.valid = true → s.inbox = [] → step s = .fault (.stuck s.fault)) ∧
    (∀ t, step s = .next t →
      t.fault = s.fault ∧ t.faultIndex = s.faultIndex ∧ t.faultWord = s.faultWord ∧
      t.fb = s.fb ∧ t.cmdCount = s.cmdCount ∧ t.trace = s.trace)

/-- R21: CMD_COUNT goes up by one with a command that completes, and stays with one that faults. -/
def Obligations.CompletedCommandsAreCounted : Prop :=
  ∀ (s t : State) (w : Word) (rest : List InboxItem),
    s.inbox = .command w :: rest → step s = .next t →
    (t.fault = .none → t.cmdCount = s.cmdCount + 1) ∧ (t.fault ≠ .none → t.cmdCount = s.cmdCount)

/-- R200: the values the spec fixes after power-on hold of the reset state; and from any state with
them, whatever the unspecified rest, INIT is the only command that does not fault. -/
def Obligations.OnlyInitRunsAfterPowerOn : Prop :=
  PowerOn State.reset ∧
  ∀ s : State, PowerOn s →
    (∃ t, exec .init s = .next t ∧ t.fault = .none) ∧
    (∀ i, isCommand i = true → i ≠ .init → ∃ t, exec i s = .next t ∧ t.fault ≠ .none)

/-! ## The commands, each by its rule -/

/-- INIT (R100) in a block that has not faulted and has not been initialised: what it sends under each
address method, and the state it leaves; once initialised, it raises REINIT. On the pins it drives
IDLE_LEVELS, then the reset pulse if there is one, then each quad, and IDLE_LEVELS again at its end, as
R33 asks (the second drive is the model's reading, log 14). What driving IDLE_LEVELS does to every
pin an instance has is said in full; that the other pins keep their level is the model's (log 23). -/
def Obligations.InitFollowsItsRule : Prop :=
  ∀ s : State, WellFormed s → s.cfg.devEnc.wf = true → s.fault = .none →
    (s.initDone = true → exec .init s = .next { s with
      fault := .reinit, faultIndex := s.cmdCount, faultWord := 0x10000000 }) ∧
    (s.initDone = false → ∃ t, exec .init s = .next t ∧
      t = { s with
        initDone := true, inv := false, dirty := false, fb := t.fb, trace := t.trace
        port := t.port, dev := t.dev, draws := t.draws, cmdCount := s.cmdCount + 1 } ∧
      (∀ a, fbByte t a = 0x00) ∧
      (∀ k, (t.dev.plane k).page = 0 ∧ (t.dev.plane k).col = 0 ∧ (t.dev.plane k).start = 0) ∧
      (∀ k p c, dramByte t k p c = 0x00) ∧
      (let e := s.cfg.devEnc
       let pointers : List Quad :=
        [commandTo e false (.setStartLine 0), commandTo e false (.setPage 0),
         commandTo e false (.setColumn 0), commandTo e true (.setStartLine 0),
         commandTo e true (.setPage 0), commandTo e true (.setColumn 0)]
       let extra : List Quad := s.cfg.initExtra.map fun q => ⟨!q.plane, q.plane, .cmd, q.byte⟩
       let addressing : List TraceEvent :=
        match s.cfg.initAddrMethod with
        | .zeroCmds => pointers.map .quad
        | .hwReset => [.resetPulse]
       t.trace = s.trace ++ addressing ++ extra.map .quad ++ pointers.map .quad
        ++ (fullTxQuads e t.fb).map .quad) ∧
      t.port = driveIdle s.cfg
        (((t.trace.drop s.trace.length).filterMap TraceEvent.quad?).foldl (driveQuad s.cfg)
          (match s.cfg.initAddrMethod with
            | .zeroCmds => driveIdle s.cfg s.port
            | .hwReset => { driveIdle s.cfg s.port with rst := !s.cfg.rstActiveLevel })) ∧
      (s.cfg.txMode = .parallel → t.port.lines = s.cfg.idleLevels.lines) ∧
      (s.cfg.txMode = .serial → t.port.wires = s.cfg.idleLevels.wires) ∧
      (s.cfg.initAddrMethod = .hwReset → t.port.rst = s.cfg.idleLevels.rst)) ∧
    (∀ p : OutPort,
      (s.cfg.txMode = .parallel → (driveIdle s.cfg p).lines = s.cfg.idleLevels.lines ∧
        (driveIdle s.cfg p).wires = p.wires ∧ (driveIdle s.cfg p).shift = p.shift) ∧
      (s.cfg.txMode = .serial → (driveIdle s.cfg p).wires = s.cfg.idleLevels.wires) ∧
      (s.cfg.initAddrMethod = .hwReset → (driveIdle s.cfg p).rst = s.cfg.idleLevels.rst) ∧
      (s.cfg.initAddrMethod = .zeroCmds → (driveIdle s.cfg p).rst = p.rst))

/-- R101: RESET, in a block that is ready, whatever DEPTH holds: INV off, FB cleared, what it sends,
and the device it leaves; DEPTH and INIT_DONE are unchanged. -/
def Obligations.ResetFollowsItsRule : Prop :=
  ∀ s : State, WellFormed s → s.cfg.devEnc.wf = true → Ready s → ∃ t, exec .reset s = .next t ∧
    t = { s with
      inv := false, dirty := false, fb := t.fb, trace := t.trace, port := t.port, dev := t.dev
      cmdCount := s.cmdCount + 1 } ∧
    (∀ a, fbByte t a = 0x00) ∧
    (∀ k, (t.dev.plane k).page = 0 ∧ (t.dev.plane k).col = 0 ∧ (t.dev.plane k).start = 0) ∧
    (∀ k p c, dramByte t k p c = 0x00) ∧
    (let e := s.cfg.devEnc
     t.trace = s.trace ++
      [.quad (commandTo e false (.setStartLine 0)), .quad (commandTo e false (.setPage 0)),
       .quad (commandTo e false (.setColumn 0)), .quad (commandTo e true (.setStartLine 0)),
       .quad (commandTo e true (.setPage 0)), .quad (commandTo e true (.setColumn 0))]
      ++ (fullTxQuads e t.fb).map .quad)

/-- R110: SET_PIXEL in a block that is ready. Outside the plane nothing but CMD_COUNT changes. Inside
it one bit of one byte takes the value v ^ INV, and then DIRTY is set (Buffered), or the byte is sent
by three quads and lands on the display (Immediate, DEPTH = 0), or nothing else happens (Immediate,
DEPTH > 0). -/
def Obligations.SetPixelFollowsItsRule : Prop :=
  ∀ (s : State) (v : Bool) (x y : BitVec 8),
    WellFormed s → s.cfg.devEnc.wf = true → Ready s → ∃ t, exec (.setPixel v x y) s = .next t ∧
    (128 ≤ x.toNat ∨ 64 ≤ y.toNat → t = { s with cmdCount := s.cmdCount + 1 }) ∧
    (x.toNat < 128 → y.toNat < 64 →
      (∀ (a : BitVec 10) (j : Nat), (fbByte t a).getLsbD j =
        if a.toNat = x.toNat / 64 * 512 + y.toNat / 8 * 64 + x.toNat % 64 ∧ j = y.toNat % 8 then
          v ^^ s.inv
        else (fbByte s a).getLsbD j) ∧
      (s.cfg.drawMode = .buffered →
        t = { s with fb := t.fb, dirty := true, cmdCount := s.cmdCount + 1 }) ∧
      (s.cfg.drawMode = .immediate → s.depth ≠ 0 →
        t = { s with fb := t.fb, cmdCount := s.cmdCount + 1 }) ∧
      (s.cfg.drawMode = .immediate → s.depth = 0 →
        let k : Bool := decide (64 ≤ x.toNat)
        let p : BitVec 3 := BitVec.ofNat 3 (y.toNat / 8)
        let c : BitVec 6 := BitVec.ofNat 6 (x.toNat % 64)
        let b : Byte := fbByte t (pixelAddr x y)
        t = { s with
          fb := t.fb, trace := t.trace, port := t.port, dev := t.dev
          cmdCount := s.cmdCount + 1 } ∧
        t.trace = s.trace ++
          [.quad ⟨!k, k, .cmd, s.cfg.devEnc.setPage p⟩,
           .quad ⟨!k, k, .cmd, s.cfg.devEnc.setColumn c⟩, .quad ⟨!k, k, .data, b⟩] ∧
        t.dev.plane (!k) = s.dev.plane (!k) ∧
        t.dev.plane k = { s.dev.plane k with
          page := p, col := c + 1, dram := (t.dev.plane k).dram } ∧
        (∀ p' c', dramByte t k p' c' = if p' = p ∧ c' = c then b else dramByte s k p' c')))

/-- R30 and the source's worked property (95_test_vectors.md section 1.1): after SET_PIXEL x, y, v the
logical pixel (x, y) is v whatever INV holds; and every other logical pixel is as before, since R110
(41_pixel_ops.md) writes bit b of byte a only and R51 gives every pixel a bit of its own. -/
def Obligations.SetPixelThenReadBackGivesTheValue : Prop :=
  ∀ (s : State) (v : Bool) (x y : BitVec 8), WellFormed s → Ready s →
    x.toNat < 128 → y.toNat < 64 → ∃ t, exec (.setPixel v x y) s = .next t ∧
    logicalPixel t x y = v ∧
    ∀ x' y' : BitVec 8, x'.toNat < 128 → y'.toNat < 64 → (x', y') ≠ (x, y) →
      logicalPixel t x' y' = logicalPixel s x' y'

/-- R111: CLEAR stores 0xFF in every byte when INV = 1, else 0x00, so that every logical pixel is 0;
Buffered marks dirty and sends nothing, Immediate sends the whole buffer whatever DEPTH holds. -/
def Obligations.ClearFollowsItsRule : Prop :=
  ∀ s : State, WellFormed s → s.cfg.devEnc.wf = true → Ready s → ∃ t, exec .clear s = .next t ∧
    (∀ a, fbByte t a = if s.inv then 0xFF else 0x00) ∧
    (∀ x y : BitVec 8, x.toNat < 128 → y.toNat < 64 → logicalPixel t x y = false) ∧
    (s.cfg.drawMode = .buffered →
      t = { s with fb := t.fb, dirty := true, cmdCount := s.cmdCount + 1 }) ∧
    (s.cfg.drawMode = .immediate →
      t = { s with
        fb := t.fb, trace := t.trace, port := t.port, dev := t.dev, cmdCount := s.cmdCount + 1 } ∧
      t.trace = s.trace ++ (fullTxQuads s.cfg.devEnc t.fb).map .quad ∧ Sync t)

/-- R112: FILL stores 0x00 in every byte when INV = 1, else 0xFF, so that every logical pixel is 1; it
marks dirty or sends as CLEAR does. -/
def Obligations.FillFollowsItsRule : Prop :=
  ∀ s : State, WellFormed s → s.cfg.devEnc.wf = true → Ready s → ∃ t, exec .fill s = .next t ∧
    (∀ a, fbByte t a = if s.inv then 0x00 else 0xFF) ∧
    (∀ x y : BitVec 8, x.toNat < 128 → y.toNat < 64 → logicalPixel t x y = true) ∧
    (s.cfg.drawMode = .buffered →
      t = { s with fb := t.fb, dirty := true, cmdCount := s.cmdCount + 1 }) ∧
    (s.cfg.drawMode = .immediate →
      t = { s with
        fb := t.fb, trace := t.trace, port := t.port, dev := t.dev, cmdCount := s.cmdCount + 1 } ∧
      t.trace = s.trace ++ (fullTxQuads s.cfg.devEnc t.fb).map .quad ∧ Sync t)

/-- R120: SET_INVERTED v does nothing but count when v = INV; otherwise every byte is complemented,
INV is v, every logical pixel is kept, and it marks dirty or sends as CLEAR does. -/
def Obligations.SetInvertedFollowsItsRule : Prop :=
  ∀ (s : State) (v : Bool), WellFormed s → s.cfg.devEnc.wf = true → Ready s →
    ∃ t, exec (.setInverted v) s = .next t ∧
    (v = s.inv → t = { s with cmdCount := s.cmdCount + 1 }) ∧
    (v ≠ s.inv →
      (∀ a, fbByte t a = ~~~fbByte s a) ∧
      (∀ x y : BitVec 8, x.toNat < 128 → y.toNat < 64 →
        logicalPixel t x y = logicalPixel s x y) ∧
      (s.cfg.drawMode = .buffered →
        t = { s with fb := t.fb, inv := v, dirty := true, cmdCount := s.cmdCount + 1 }) ∧
      (s.cfg.drawMode = .immediate →
        t = { s with
          fb := t.fb, inv := v, trace := t.trace, port := t.port, dev := t.dev
          cmdCount := s.cmdCount + 1 } ∧
        t.trace = s.trace ++ (fullTxQuads s.cfg.devEnc t.fb).map .quad ∧ Sync t))

/-- The corrected inversion round trip (90_conflicts.md C2, 95_test_vectors.md section 1.2): from
INV = 0, SET_INVERTED 1 then SET_INVERTED 0 restores FB, as data, and INV. -/
def Obligations.InversionRoundTripRestoresTheBuffer : Prop :=
  ∀ s : State, WellFormed s → Ready s → s.inv = false →
    ∃ t u, exec (.setInverted true) s = .next t ∧ t.inv = true ∧
      exec (.setInverted false) t = .next u ∧ u.fb = s.fb ∧ u.inv = false

/-- R121: GET_INVERTED writes RESP with INV, zero-extended, and nothing else but the count. The mark of
when RESP may be read is the model's own field, and that it is set here the model's reading (log 9). -/
def Obligations.GetInvertedFollowsItsRule : Prop :=
  ∀ s : State, Ready s → exec .getInverted s = .next { s with
    resp := if s.inv then 0x00000001 else 0x00000000
    respStamp := some (s.cmdCount + 1), cmdCount := s.cmdCount + 1 }

/-- R75: GET_INVERTED is the only instruction that writes RESP; and the host that reads the port right
after it gets INV (R32). The mark of when RESP may be read, and the host's read through it, are the
model's reading of R32 (log 9). -/
def Obligations.OnlyGetInvertedResponds : Prop :=
  (∀ (i : Instr) (s t : State), exec i s = .next t → i ≠ .getInverted →
    t.resp = s.resp ∧ t.respStamp = s.respStamp) ∧
  (∀ s : State, Ready s → ∃ t, exec .getInverted s = .next t ∧ t.resp = hostReadResp t ∧
    hostReadResp t = (BitVec.ofBool s.inv).zeroExtend 32)

/-- R130: FLUSH sends the whole buffer if DIRTY, then clears it; a second FLUSH sends nothing; in
Immediate mode and before INIT it faults. -/
def Obligations.FlushFollowsItsRule : Prop :=
  ∀ s : State, s.fault = .none →
    (s.cfg.drawMode = .immediate → exec .flush s = .next { s with
      fault := .modeUnavailable, faultIndex := s.cmdCount, faultWord := 0x80000000 }) ∧
    (s.cfg.drawMode = .buffered → s.initDone = false → exec .flush s = .next { s with
      fault := .notInitialized, faultIndex := s.cmdCount, faultWord := 0x80000000 }) ∧
    (s.cfg.drawMode = .buffered → s.initDone = true → s.dirty = false →
      exec .flush s = .next { s with cmdCount := s.cmdCount + 1 }) ∧
    (s.cfg.drawMode = .buffered → s.initDone = true → s.dirty = true →
      ∃ t, exec .flush s = .next t ∧
      t = { s with
        dirty := false, trace := t.trace, port := t.port, dev := t.dev
        cmdCount := s.cmdCount + 1 } ∧
      t.trace = s.trace ++ (fullTxQuads s.cfg.devEnc s.fb).map .quad ∧
      exec .flush t = .next { t with cmdCount := s.cmdCount + 2 })

/-- R131: ENTER_BATCH adds one to DEPTH and does nothing else, or raises BATCH_OVERFLOW at
2^DEPTH_BITS − 1; in Buffered mode and before INIT it faults. -/
def Obligations.EnterBatchFollowsItsRule : Prop :=
  ∀ s : State, WellFormed s → s.fault = .none →
    (s.cfg.drawMode = .buffered → exec .enterBatch s = .next { s with
      fault := .modeUnavailable, faultIndex := s.cmdCount, faultWord := 0x90000000 }) ∧
    (s.cfg.drawMode = .immediate → s.initDone = false → exec .enterBatch s = .next { s with
      fault := .notInitialized, faultIndex := s.cmdCount, faultWord := 0x90000000 }) ∧
    (s.cfg.drawMode = .immediate → s.initDone = true →
      s.depth.toNat = 2 ^ s.cfg.depthBits - 1 → exec .enterBatch s = .next { s with
        fault := .batchOverflow, faultIndex := s.cmdCount, faultWord := 0x90000000 }) ∧
    (s.cfg.drawMode = .immediate → s.initDone = true →
      s.depth.toNat ≠ 2 ^ s.cfg.depthBits - 1 → ∃ t, exec .enterBatch s = .next t ∧
        t = { s with depth := t.depth, cmdCount := s.cmdCount + 1 } ∧
        t.depth.toNat = s.depth.toNat + 1)

/-- R132: LEAVE_BATCH takes one from DEPTH and does nothing else while DEPTH stays above 0; when it
reaches 0, the whole buffer is sent; at 0 it raises BATCH_UNDERFLOW; in Buffered mode and before INIT
it faults. -/
def Obligations.LeaveBatchFollowsItsRule : Prop :=
  ∀ s : State, WellFormed s → s.fault = .none →
    (s.cfg.drawMode = .buffered → exec .leaveBatch s = .next { s with
      fault := .modeUnavailable, faultIndex := s.cmdCount, faultWord := 0xA0000000 }) ∧
    (s.cfg.drawMode = .immediate → s.initDone = false → exec .leaveBatch s = .next { s with
      fault := .notInitialized, faultIndex := s.cmdCount, faultWord := 0xA0000000 }) ∧
    (s.cfg.drawMode = .immediate → s.initDone = true → s.depth = 0 →
      exec .leaveBatch s = .next { s with
        fault := .batchUnderflow, faultIndex := s.cmdCount, faultWord := 0xA0000000 }) ∧
    (s.cfg.drawMode = .immediate → s.initDone = true → 1 < s.depth.toNat →
      ∃ t, exec .leaveBatch s = .next t ∧
        t = { s with depth := t.depth, cmdCount := s.cmdCount + 1 } ∧
        t.depth.toNat = s.depth.toNat - 1) ∧
    (s.cfg.drawMode = .immediate → s.initDone = true → s.depth.toNat = 1 →
      ∃ t, exec .leaveBatch s = .next t ∧
        t = { s with
          depth := 0, trace := t.trace, port := t.port, dev := t.dev
          cmdCount := s.cmdCount + 1 } ∧
        t.trace = s.trace ++ (fullTxQuads s.cfg.devEnc s.fb).map .quad)

/-- R133: what FLUSH and LEAVE_BATCH promise of the display, and what holds in Immediate mode with
DEPTH = 0 after every command, from a state that is consistent (ConsistencyIsKeptByEveryStep says that
every state a run reaches is). -/
def Obligations.FlushAndOutermostLeaveSynchronise : Prop :=
  ∀ s : State, WellFormed s → s.cfg.devEnc.wf = true → Consistent s → Ready s →
    (s.cfg.drawMode = .buffered → ∃ t, exec .flush s = .next t ∧ Sync t ∧ t.dirty = false) ∧
    (s.cfg.drawMode = .immediate → s.depth.toNat = 1 → ∃ t, exec .leaveBatch s = .next t ∧ Sync t) ∧
    (∀ i t, isCommand i = true → s.cfg.drawMode = .immediate → exec i s = .next t → t.depth = 0 →
      Sync t)

/-! ## Transmission -/

/-- R140: FULL_TX sends the protocol of the rule, and leaves every device byte equal to its buffer
byte, PAGE and COL 0 and START as it was on both planes, from any device state; and it changes only
TRACE, the pins and the device. -/
def Obligations.FullTxMakesTheDisplayEqualTheBuffer : Prop :=
  ∀ s : State, Memory.wf dramSize s.dev.plane0.dram = true →
    Memory.wf dramSize s.dev.plane1.dram = true → s.cfg.devEnc.wf = true →
    fullTx s = { s with
      trace := (fullTx s).trace, port := (fullTx s).port, dev := (fullTx s).dev } ∧
    (let command (k : Bool) (b : Byte) : TraceEvent := .quad ⟨!k, k, .cmd, b⟩
     (fullTx s).trace = s.trace ++
      ([false, true].flatMap fun k =>
        command k (s.cfg.devEnc.setColumn 0) ::
          (List.range 8).flatMap fun p =>
            command k (s.cfg.devEnc.setPage (BitVec.ofNat 3 p)) ::
              (List.range 64).map fun c =>
                .quad ⟨!k, k, .data, Memory.read s.fb (k.toNat * 512 + p * 64 + c)⟩) ++
      [command false (s.cfg.devEnc.setPage 0), command true (s.cfg.devEnc.setPage 0)]) ∧
    (∀ k p c, dramByte (fullTx s) k p c
      = Memory.read s.fb (k.toNat * 512 + p.toNat * 64 + c.toNat)) ∧
    (∀ k, ((fullTx s).dev.plane k).page = 0 ∧ ((fullTx s).dev.plane k).col = 0 ∧
      ((fullTx s).dev.plane k).start = (s.dev.plane k).start)

/-- The sequence FULL_TX sends, by index (95_test_vectors.md section 1.9): one column select for each
plane, never in the middle of one (R205), a page select before each page, the bytes in increasing
buffer address, and the two page resets at the end. -/
def Obligations.FullTxSendsTheProtocolSequence : Prop :=
  ∀ (e : DevEnc) (fb : Memory),
    (fullTxQuads e fb).length = 1044 ∧
    (fullTxQuads e fb)[0]? = some ⟨true, false, .cmd, e.setColumn 0⟩ ∧
    (fullTxQuads e fb)[521]? = some ⟨false, true, .cmd, e.setColumn 0⟩ ∧
    (∀ p < 8,
      (fullTxQuads e fb)[1 + 65 * p]? = some ⟨true, false, .cmd, e.setPage (BitVec.ofNat 3 p)⟩ ∧
      (fullTxQuads e fb)[522 + 65 * p]? = some ⟨false, true, .cmd, e.setPage (BitVec.ofNat 3 p)⟩) ∧
    (∀ p < 8, ∀ c < 64,
      (fullTxQuads e fb)[2 + 65 * p + c]?
        = some ⟨true, false, .data, Memory.read fb (64 * p + c)⟩ ∧
      (fullTxQuads e fb)[523 + 65 * p + c]?
        = some ⟨false, true, .data, Memory.read fb (512 + 64 * p + c)⟩) ∧
    (fullTxQuads e fb)[1042]? = some ⟨true, false, .cmd, e.setPage 0⟩ ∧
    (fullTxQuads e fb)[1043]? = some ⟨false, true, .cmd, e.setPage 0⟩

/-- R141: BYTE_TX(a) sends the page, the column and the byte of a to its plane; that device byte equals
FB[a], the pointers are left at the page and one past the column, and the other plane is untouched. -/
def Obligations.ByteTxWritesExactlyItsByte : Prop :=
  ∀ (s : State) (a : BitVec 10), Memory.wf dramSize s.dev.plane0.dram = true →
    Memory.wf dramSize s.dev.plane1.dram = true → s.cfg.devEnc.wf = true →
    let k := a.getLsbD 9
    let p := a.extractLsb' 6 3
    let c := a.extractLsb' 0 6
    (byteTx a s).trace = s.trace ++
      [.quad ⟨!k, k, .cmd, s.cfg.devEnc.setPage p⟩, .quad ⟨!k, k, .cmd, s.cfg.devEnc.setColumn c⟩,
       .quad ⟨!k, k, .data, fbByte s a⟩] ∧
    (byteTx a s).dev.plane (!k) = s.dev.plane (!k) ∧
    (byteTx a s).dev.plane k = { s.dev.plane k with
      page := p, col := c + 1, dram := ((byteTx a s).dev.plane k).dram } ∧
    ∀ p' c', dramByte (byteTx a s) k p' c' = if p' = p ∧ c' = c then fbByte s a
      else dramByte s k p' c'

/-- R151: the quad counts of FULL_TX, BYTE_TX, RESET and INIT. -/
def Obligations.QuadCountsAreAsGiven : Prop :=
  (∀ (e : DevEnc) (fb : Memory), (fullTxQuads e fb).length = 1044 ∧
    ((fullTxQuads e fb).countP fun q => q.mode = .data) = 1024 ∧
    ((fullTxQuads e fb).countP fun q => q.mode = .cmd) = 20 ∧
    ∀ a, ((byteTxQuads e fb a).countP fun q => q.mode = .data) = 1 ∧
      ((byteTxQuads e fb a).countP fun q => q.mode = .cmd) = 2) ∧
  (∀ s t : State, exec .reset s = .next t → t.fault = .none →
    t.trace.length = s.trace.length + 1050) ∧
  (∀ s t : State, exec .init s = .next t → t.fault = .none →
    (s.cfg.initAddrMethod = .zeroCmds →
      t.trace.length = s.trace.length + 6 + s.cfg.initExtra.length + 1050 ∧
      t.trace.count .resetPulse = s.trace.count .resetPulse) ∧
    (s.cfg.initAddrMethod = .hwReset →
      t.trace.length = s.trace.length + 1 + s.cfg.initExtra.length + 1050 ∧
      t.trace.count .resetPulse = s.trace.count .resetPulse + 1))

/-- R142 and R152: an instruction only appends to TRACE, a device form appends nothing, and every quad
the block appends selects exactly one plane, those of INIT_EXTRA included (its form: log 20). -/
def Obligations.TraceOnlyGrowsByOnePlaneQuads : Prop :=
  ∀ (i : Instr) (s t : State), exec i s = .next t →
    ∃ sent : List TraceEvent, t.trace = s.trace ++ sent ∧
      (isCommand i = false → sent = []) ∧
      (∀ q, .quad q ∈ sent → q.cs0 ≠ q.cs1)

/-- R143 and R150: what a command sends is driven onto the pins and applied by the device, once, in
TRACE order, and nothing else moves either (INIT apart: it also drives IDLE_LEVELS, first and last, and,
with HW_RESET, the reset pulse, see InitFollowsItsRule). That the device takes every quad as sent is the spec's own
assumption (log 13). -/
def Obligations.SentQuadsAreDrivenAndAppliedInOrder : Prop :=
  ∀ (i : Instr) (s t : State), isCommand i = true → exec i s = .next t →
    let sent := (t.trace.drop s.trace.length).filterMap TraceEvent.quad?
    ((i = .init → s.cfg.initAddrMethod = .zeroCmds) →
      t.dev = sent.foldl (Device.apply s.cfg.devEnc) s.dev) ∧
    (i ≠ .init → t.port = sent.foldl (driveQuad s.cfg) s.port)

/-- R149: from pins at rest (E, SCLK and SLATCH low), either transmitter presents the quad exactly once,
at one falling edge of E, where the selects, RS and the data are at the levels of R144, and leaves the
pins at rest; the serial one for every valid SER_MAP and the default SER_STROBE (for any other, see
SerialFramesShowTheQuad). The edges are the spec's general knowledge, and the register's ends are the
model's reading (log 15, 16). -/
def Obligations.BothTransmittersPresentTheQuadOnce : Prop :=
  ∀ (c : Config) (q : Quad) (p : OutPort), p.lines.e = false → p.wires.sclk = false →
    p.wires.slatch = false → (c.txMode = .serial → c.serMapValid = true ∧
      c.serStrobe = [false, true, false]) →
    (∃ l, strobed p.lines (quadWave c q p) = [l] ∧ linesQuad c l = q ∧
      l.cs0 = (if c.csActiveHigh then q.cs0 else !q.cs0) ∧
      l.cs1 = (if c.csActiveHigh then q.cs1 else !q.cs1) ∧
      l.rs = (if q.mode = .data then c.rsDataLevel else !c.rsDataLevel) ∧ l.d = q.byte) ∧
    (driveQuad c p q).lines.e = false ∧ (driveQuad c p q).wires.sclk = false ∧
    (driveQuad c p q).wires.slatch = false

/-- R212: what one quad takes of the T_* parameters under each transmitter. The waveform that records
them is the model's form, and that a serial shift clock and a latch pulse, to which the spec gives no
length, count 0 there is the model's choice (log 17): the sum is a lower bound of the time that a block
takes. -/
def Obligations.QuadDurationIsTheSumOfItsDelays : Prop :=
  ∀ (c : Config) (q : Quad) (p : OutPort),
    (c.txMode = .parallel →
      waveDuration (quadWave c q p) = c.tSetup + c.tStrobe + c.tHold) ∧
    (c.txMode = .serial → waveDuration (quadWave c q p) = c.serStrobe.length * c.tLatch)

/-! ## The display device -/

/-- The register commands of the device, on every selected plane and no other (R162, R163, R165, R166),
and display on/off (R161; the field it writes is the model's, log 11). Nothing else of the state
changes. -/
def Obligations.DeviceCommandsWriteTheirRegister : Prop :=
  ∀ (s : State) (cs0 cs1 : Bool),
    (∀ p, ∃ t, exec (.devSetPage cs0 cs1 p) s = .next t ∧ t = { s with dev := t.dev } ∧
      ∀ k, t.dev.plane k = if (if k then cs1 else cs0) then { s.dev.plane k with page := p }
        else s.dev.plane k) ∧
    (∀ c, ∃ t, exec (.devSetColumn cs0 cs1 c) s = .next t ∧ t = { s with dev := t.dev } ∧
      ∀ k, t.dev.plane k = if (if k then cs1 else cs0) then { s.dev.plane k with col := c }
        else s.dev.plane k) ∧
    (∀ l, ∃ t, exec (.devSetStartLine cs0 cs1 l) s = .next t ∧ t = { s with dev := t.dev } ∧
      ∀ k, t.dev.plane k = if (if k then cs1 else cs0) then { s.dev.plane k with start := l }
        else s.dev.plane k) ∧
    (∀ d, ∃ t, exec (.devDisplayOnOff cs0 cs1 d) s = .next t ∧ t = { s with dev := t.dev } ∧
      ∀ k, t.dev.plane k = if (if k then cs1 else cs0) then { s.dev.plane k with on := d }
        else s.dev.plane k)

/-- R164: a data byte lands at (PAGE, COL) of every selected plane, COL goes up by one modulo 64, and
every other byte, the other registers, an unselected plane and the rest of the state are unchanged. -/
def Obligations.DataByteLandsAtThePointers : Prop :=
  ∀ (s : State) (cs0 cs1 : Bool) (d : Byte), Memory.wf dramSize s.dev.plane0.dram = true →
    Memory.wf dramSize s.dev.plane1.dram = true →
    ∃ t, exec (.devWriteData cs0 cs1 d) s = .next t ∧ t = { s with dev := t.dev } ∧
      ∀ k, if (if k then cs1 else cs0) then
          (t.dev.plane k).col.toNat = ((s.dev.plane k).col.toNat + 1) % 64 ∧
          t.dev.plane k = { s.dev.plane k with
            col := (t.dev.plane k).col, dram := (t.dev.plane k).dram } ∧
          ∀ p c, dramByte t k p c =
            if p = (s.dev.plane k).page ∧ c = (s.dev.plane k).col then d else dramByte s k p c
        else t.dev.plane k = s.dev.plane k

/-- A quad that reaches the lines does to the device what it does when the block sends it, whatever
its byte: decoding it to an instruction and running that agrees with the response of R162 to R168. -/
def Obligations.ForeignQuadsActAsSentOnes : Prop :=
  ∀ (s : State) (q : Quad) (rest : List InboxItem), s.cfg.valid = true → s.inbox = .quad q :: rest →
    step s = .next { s with inbox := rest, dev := (txAll [q] s).dev }

/-- R167: with the start lines at 0, the only value the block sends, and SYNC, the shown pixel is the
stored bit of the same coordinates. -/
def Obligations.ShownImageIsTheStoredBits : Prop :=
  ∀ (s : State) (x : BitVec 7) (r : BitVec 6), Sync s → (∀ k, (s.dev.plane k).start = 0) →
    shownPixel s x r = storedBit s (x.zeroExtend 8) (r.zeroExtend 8)

/-! ## Views -/

/-- R28: every field of the STATUS view at its bits, hardwired fields and reserved bits included, FAULT
with the code R180 gives each cause. -/
def Obligations.StatusViewHoldsEachField : Prop :=
  ∀ s : State,
    (statusView s).getLsbD 0 = s.initDone ∧ (statusView s).getLsbD 1 = s.inv ∧
    (statusView s).getLsbD 2 = (if s.cfg.drawMode = .buffered then s.dirty else false) ∧
    (statusView s).extractLsb' 3 5 = 0 ∧
    (statusView s).extractLsb' 8 16 = (if s.cfg.drawMode = .immediate then s.depth else 0) ∧
    (statusView s).extractLsb' 24 4 = (match s.fault with
      | .none => 0
      | .illegalOpcode => 1
      | .reservedField => 2
      | .modeUnavailable => 3
      | .notInitialized => 4
      | .reinit => 5
      | .batchUnderflow => 6
      | .batchOverflow => 7) ∧ (statusView s).extractLsb' 28 4 = 0

/-- R27: every field of the CONFIG view at its bits, reserved bits included. -/
def Obligations.ConfigViewHoldsEachField : Prop :=
  ∀ c : Config, c.valid = true →
    (configView c).getLsbD 0 = decide (c.drawMode = .immediate) ∧
    (configView c).getLsbD 1 = decide (c.txMode = .serial) ∧
    (configView c).getLsbD 2 = decide (c.initAddrMethod = .hwReset) ∧
    (configView c).extractLsb' 3 5 = 0 ∧
    ((configView c).extractLsb' 8 5).toNat = c.depthBits ∧
    (configView c).extractLsb' 13 19 = 0

/-! ## What every instruction and every step keeps -/

/-- R20: FB is written only by SET_PIXEL, CLEAR, FILL, SET_INVERTED, RESET and INIT; every other
instruction leaves every byte as it was. -/
def Obligations.OnlyTheNamedCommandsWriteTheBuffer : Prop :=
  ∀ (i : Instr) (s t : State), exec i s = .next t → t.fb ≠ s.fb →
    (∃ v x y, i = .setPixel v x y) ∨ i = .clear ∨ i = .fill ∨ (∃ v, i = .setInverted v) ∨
      i = .reset ∨ i = .init

/-- R22 to R25: who writes INV, DIRTY, DEPTH and INIT_DONE, and that no instruction writes DIRTY in
Immediate mode or DEPTH in Buffered mode. -/
def Obligations.EachFlagHasOnlyItsWriters : Prop :=
  ∀ (i : Instr) (s t : State), exec i s = .next t →
    (t.inv ≠ s.inv → (∃ v, i = .setInverted v) ∨ i = .reset ∨ i = .init) ∧
    (t.dirty ≠ s.dirty → s.cfg.drawMode = .buffered ∧
      ((∃ v x y, i = .setPixel v x y) ∨ i = .clear ∨ i = .fill ∨ (∃ v, i = .setInverted v) ∨
        i = .flush ∨ i = .reset ∨ i = .init)) ∧
    (t.depth ≠ s.depth → s.cfg.drawMode = .immediate ∧ (i = .enterBatch ∨ i = .leaveBatch)) ∧
    (t.initDone ≠ s.initDone → i = .init ∧ t.initDone = true)

/-- R6: the configuration "is fixed when the block is instantiated and never changes while the block
runs"; and the step only consumes what has arrived (the inbox is the model's, log 2). -/
def Obligations.ConfigurationNeverChanges : Prop :=
  ∀ s t : State, step s = .next t →
    t.cfg = s.cfg ∧ configView t.cfg = configView s.cfg ∧ t.inbox = s.inbox.drop 1

/-- Every step keeps the form of a state: canonical memories of their size, DIRTY and DEPTH hardwired
0 in the mode that does not use them, DEPTH within DEPTH_BITS, nothing before INIT, and the fault's
index the count of completed commands (R20, R23 to R26, R160, R200). The list form of a memory is the
model's (log 4, 6), and so is the mark of when RESP may be read, at most that count (log 9). -/
def Obligations.EveryStepKeepsTheStateWellFormed : Prop :=
  ∀ s t : State, WellFormed s → step s = .next t → WellFormed t

/-- The state after power-on has that form. -/
def Obligations.ResetStateIsWellFormed : Prop := WellFormed State.reset

/-- R61: with no foreign quad on the lines (R150), every step keeps it that, once INIT has completed,
SYNC holds whenever DEPTH = 0 (Immediate) or DIRTY = 0 (Buffered). -/
def Obligations.ConsistencyIsKeptByEveryStep : Prop :=
  ∀ s t : State, WellFormed s → s.cfg.devEnc.wf = true → NoForeignQuad s → Consistent s →
    step s = .next t → NoForeignQuad t ∧ Consistent t

/-- The state after power-on is consistent, trivially, and INIT makes it so with SYNC holding, from any
power-on state whatever is unspecified there. -/
def Obligations.ConsistencyHoldsFromPowerOn : Prop :=
  (NoForeignQuad State.reset ∧ Consistent State.reset) ∧
  ∀ s : State, PowerOn s → WellFormed s → s.cfg.devEnc.wf = true →
    ∃ t, exec .init s = .next t ∧ t.initDone = true ∧ Consistent t ∧ Sync t

/-- D26 and the corner case of R100: the buffer, the flags, FAULT, CMD_COUNT, and the device's pointers
and RAM that INIT leaves do not depend on what is unspecified after power-on, on the address method, or
on INIT_EXTRA. TRACE, the pins and the display's on/off (log 11) may differ, and so may RESP, FAULT_INDEX
and FAULT_WORD, unspecified after power-on (R33) and kept by INIT, and the model's draw counter
(log 8). -/
def Obligations.InitForgetsWhatWasUnspecified : Prop :=
  ∀ s₁ s₂ : State, WellFormed s₁ → WellFormed s₂ → PowerOn s₁ → PowerOn s₂ →
    s₁.cfg.devEnc.wf = true → s₂.cfg.devEnc.wf = true →
    ∃ t₁ t₂, exec .init s₁ = .next t₁ ∧ exec .init s₂ = .next t₂ ∧
      t₁.fb = t₂.fb ∧ t₁.inv = t₂.inv ∧ t₁.dirty = t₂.dirty ∧ t₁.depth = t₂.depth ∧
      t₁.initDone = t₂.initDone ∧ t₁.fault = t₂.fault ∧ t₁.cmdCount = t₂.cmdCount ∧
      ∀ k, t₁.dev.plane k = { t₂.dev.plane k with on := (t₁.dev.plane k).on }

/-! ## Runs -/

/-- R193: from a ready block, no sequence of SET_PIXEL, CLEAR, FILL, SET_INVERTED, GET_INVERTED and
RESET, with any operands, ever faults, and each step completes one command. -/
def Obligations.DrawingCommandsNeverFault : Prop :=
  ∀ (s : State) (is : List Instr), s.cfg.valid = true → Ready s →
    (∀ i ∈ is, (∃ v x y, i = .setPixel v x y) ∨ i = .clear ∨ i = .fill ∨
      (∃ v, i = .setInverted v) ∨ i = .getInverted ∨ i = .reset) →
    SafeRun is.length { s with inbox := is.map (encode s.cfg.devEnc) } ∧
    ∀ t, Sys2Proof.core.run is.length { s with inbox := is.map (encode s.cfg.devEnc) } = .next t →
      t.cmdCount = s.cmdCount + is.length

/-- R131 and R132: "Nested batches are legal; only the outermost exit triggers transmission." From
DEPTH = 0, n > 0 ENTER_BATCH words and then n LEAVE_BATCH words, n at most 2^DEPTH_BITS − 1, run without
a fault and send the whole buffer exactly once. -/
def Obligations.NestedBatchesTransmitOnce : Prop :=
  ∀ (s : State) (n : Nat), WellFormed s → Ready s → s.cfg.drawMode = .immediate → s.depth = 0 →
    0 < n → n ≤ 2 ^ s.cfg.depthBits - 1 →
    let s₀ : State := { s with
      inbox := List.replicate n (.command 0x90000000) ++ List.replicate n (.command 0xA0000000) }
    SafeRun (2 * n) s₀ ∧
    ∃ t, Sys2Proof.core.run (2 * n) s₀ = .next t ∧ t.depth = 0 ∧ t.fb = s.fb ∧
      t.cmdCount = s.cmdCount + 2 * n ∧
      t.trace = s.trace ++ (fullTxQuads s.cfg.devEnc s.fb).map .quad

/-! ## The serial frames -/

/-- R147 and R148 for every SER_STROBE: from SCLK and SLATCH low and any register, TX_SER leaves the
display-side signals at the levels of R144 for the quad, with E at the last of its strobe levels, and
SCLK and SLATCH low; and the device sees one falling edge of E, with the quad's levels, for each step
down in the strobe levels that follow E's own. How the register shifts and the edges are the model's
reading and the spec's general knowledge (log 15, 16). -/
def Obligations.SerialFramesShowTheQuad : Prop :=
  ∀ (c : Config) (q : Quad) (p : OutPort), c.txMode = .serial → c.serMapValid = true →
    p.wires.sclk = false → p.wires.slatch = false → c.serStrobe ≠ [] →
    let shown (e : Bool) : Lines :=
      { cs0 := if c.csActiveHigh then q.cs0 else !q.cs0
        cs1 := if c.csActiveHigh then q.cs1 else !q.cs1
        rs := if q.mode = .data then c.rsDataLevel else !c.rsDataLevel
        d := q.byte
        e := e }
    (driveQuad c p q).lines = shown (c.serStrobe.getLastD false) ∧
    (driveQuad c p q).wires.sclk = false ∧ (driveQuad c p q).wires.slatch = false ∧
    strobed p.lines (quadWave c q p) = List.replicate
      (((p.lines.e :: c.serStrobe).zip c.serStrobe).countP fun x => x.1 && !x.2) (shown false)
end

