-- ==== Sys2Proof/Laws/Assembler.lean ====
section
/-! SUPPORT. The assembler's pieces: a comment is dropped, an operand without a comma is one part, one
without blanks at its ends is its own trimming, and the digits of a byte are read back. -/

namespace Sys2Proof.Machine

/-- A comment does not reach the code before it. -/
theorem takeWhile_comment (line comment : List Char) :
    (line ++ ';' :: comment).takeWhile (· != ';') = line.takeWhile (· != ';') := by
  induction line with
  | nil => rfl
  | cons c line ih =>
    simp only [List.cons_append, List.takeWhile_cons, ih]

theorem splitCommas_ne_nil (cs : List Char) : splitCommas cs ≠ [] := by
  cases cs with
  | nil => simp [splitCommas]
  | cons c cs => rw [splitCommas]; split <;> [simp; (split <;> simp)]

/-- The part before the first comma. -/
theorem splitCommas_append {xs : List Char} (h : ',' ∉ xs) (rest : List Char) :
    splitCommas (xs ++ ',' :: rest) = xs :: splitCommas rest := by
  induction xs with
  | nil =>
    rw [List.nil_append, splitCommas]
    split
    · exact absurd ‹_› (splitCommas_ne_nil rest)
    · simp_all
  | cons c xs ih =>
    have hc : c ≠ ',' := fun e => h (by simp [e])
    rw [List.cons_append, splitCommas, ih fun hm => h (by simp [hm])]
    simp [hc]

/-- Without a comma there is one part. -/
theorem splitCommas_single {xs : List Char} (h : ',' ∉ xs) : splitCommas xs = [xs] := by
  induction xs with
  | nil => rfl
  | cons c xs ih =>
    have hc : c ≠ ',' := fun e => h (by simp [e])
    rw [splitCommas, ih fun hm => h (by simp [hm])]
    simp [hc]

theorem dropWhile_isBlank {xs : List Char} (h : ∀ c ∈ xs, isBlank c = false) :
    xs.dropWhile isBlank = xs := by
  cases xs with
  | nil => rfl
  | cons c xs => rw [List.dropWhile_cons, h c (by simp)]; rfl

/-- What holds no blank is its own trimming. -/
theorem trim_eq_self {xs : List Char} (h : ∀ c ∈ xs, isBlank c = false) : trim xs = xs := by
  rw [trim, dropWhile_isBlank h, dropWhile_isBlank fun c hc => h c (List.mem_reverse.1 hc),
    List.reverse_reverse]

theorem trim_blank_cons {xs : List Char} : trim (' ' :: xs) = trim xs := rfl

/-- A byte's decimal and hexadecimal digits are read back. -/
theorem coordinate_digits (x : BitVec 8) :
    coordinate (Nat.toDigits 10 x.toNat) = some x
      ∧ coordinate ('0' :: 'x' :: Nat.toDigits 16 x.toNat) = some x := by
  have h (a b : Fin 16) : coordinate (Nat.toDigits 10 (16 * a + b)) = some (BitVec.ofNat 8 (16 * a + b))
      ∧ coordinate ('0' :: 'x' :: Nat.toDigits 16 (16 * a + b))
        = some (BitVec.ofNat 8 (16 * a + b)) := by
    revert a b; decide +kernel
  have hx := h ⟨x.toNat / 16, by omega⟩ ⟨x.toNat % 16, by omega⟩
  have he : 16 * (x.toNat / 16) + x.toNat % 16 = x.toNat := by omega
  simpa only [he, BitVec.ofNat_toNat, BitVec.setWidth_eq] using hx

/-- A byte's decimal and hexadecimal digits hold nothing that ends an operand. -/
theorem digits_plain (x : BitVec 8) :
    ∀ c ∈ Nat.toDigits 10 x.toNat ++ '0' :: 'x' :: Nat.toDigits 16 x.toNat,
      isBlank c = false ∧ c ≠ ',' ∧ c ≠ ';' := by
  have h (a b : Fin 16) :
      (Nat.toDigits 10 (16 * a + b) ++ '0' :: 'x' :: Nat.toDigits 16 (16 * a + b)).all
        (fun c => !isBlank c && (c != ',' && c != ';')) = true := by
    revert a b; decide +kernel
  have hx := h ⟨x.toNat / 16, by omega⟩ ⟨x.toNat % 16, by omega⟩
  have he : 16 * (x.toNat / 16) + x.toNat % 16 = x.toNat := by omega
  simp only [he, List.all_eq_true] at hx
  intro c hc
  simpa using hx c hc

end Sys2Proof.Machine
end

