-- ==== Sys2Proof/Laws/Encoding.lean ====
section
/-! SUPPORT. The small laws of the encodings: the fields of an assembled word, and that the bytes of a
well-formed DEV_ENC are told apart. -/

namespace Sys2Proof

@[simp] theorem opcode_commandWord (op : BitVec 4) (v : Bool) (x y : BitVec 8) :
    opcode (commandWord op v x y) = op := by
  apply BitVec.eq_of_getLsbD_eq
  intro i hi
  have h1 : 28 + i - 28 = i := by omega
  have h2 : 28 + i < 32 := by omega
  have h3 : ¬ 28 + i - 16 = 0 := by omega
  have hx : x.getLsbD (28 + i - 8) = false := BitVec.getLsbD_of_ge _ _ (by omega)
  have hy : y.getLsbD (28 + i) = false := BitVec.getLsbD_of_ge _ _ (by omega)
  simp [opcode, commandWord, h1, h2, h3, hx, hy, hi]

@[simp] theorem opcode_plainWord (op : BitVec 4) : opcode (plainWord op) = op :=
  opcode_commandWord op false 0 0

@[simp] theorem operandV_commandWord (op : BitVec 4) (v : Bool) (x y : BitVec 8) :
    operandV (commandWord op v x y) = v := by
  simp [operandV, commandWord]

@[simp] theorem operandX_commandWord (op : BitVec 4) (v : Bool) (x y : BitVec 8) :
    operandX (commandWord op v x y) = x := by
  apply BitVec.eq_of_getLsbD_eq
  intro i hi
  have h2 : 8 + i - 8 = i := by omega
  have h3 : 8 + i < 32 := by omega
  have h4 : 8 + i < 28 := by omega
  have h5 : 8 + i < 16 := by omega
  simp [operandX, commandWord, h3, h4, h5, hi]

@[simp] theorem operandY_commandWord (op : BitVec 4) (v : Bool) (x y : BitVec 8) :
    operandY (commandWord op v x y) = y := by
  apply BitVec.eq_of_getLsbD_eq
  intro i hi
  have h3 : i < 32 := by omega
  have h4 : i < 28 := by omega
  have h5 : i < 16 := by omega
  simp [operandY, commandWord, h3, h4, h5, hi]

/-- A hasOpcode check read as an equation. -/
theorem hasOpcode_iff (op : BitVec 4) (w : Word) : hasOpcode op w = true ↔ opcode w = op := by
  simp [hasOpcode, opcode]

/-! ## DEV_ENC -/

theorem idxOf?_getD {l : List Byte} (hl : l.Nodup) {n : Nat} (h : n < l.length) (d : Byte) :
    l.idxOf? (l.getD n d) = some n := by
  rw [List.getD_eq_getElem _ _ h, List.idxOf?_eq_some_iff]
  refine ⟨h, by simp, fun j hj he => ?_⟩
  have he : l[j] = l[n] := by simpa using he
  have := (List.Nodup.getElem_inj_iff hl).1 he
  omega

theorem getD_mem {l : List Byte} {n : Nat} (h : n < l.length) (d : Byte) : l.getD n d ∈ l := by
  rw [List.getD_eq_getElem _ _ h]; exact List.getElem_mem h

/-- What a well-formed DEV_ENC gives: the lengths, and bytes that are told apart. -/
theorem DevEnc.wf_iff (e : DevEnc) : e.wf = true ↔
    e.pageBytes.length = 8 ∧ e.columnBytes.length = 64 ∧ e.startLineBytes.length = 64
      ∧ e.displayBytes.length = 2
      ∧ (e.pageBytes ++ e.columnBytes ++ e.startLineBytes ++ e.displayBytes).Nodup := by
  simp [DevEnc.wf, and_assoc]

/-- A byte that a well-formed DEV_ENC gives a command means that command. -/
theorem DevEnc.decodeByte_byteOf {e : DevEnc} (he : e.wf = true) (d : DevCmd) :
    e.decodeByte (e.byteOf d) = some d := by
  obtain ⟨hp, hc, hs, hd, hn⟩ := e.wf_iff.1 he
  have none_of {l l' : List Byte} {b : Byte} (h : b ∈ l') (hdis : ∀ a ∈ l, ∀ c ∈ l', a ≠ c) :
      l.idxOf? b = none := List.idxOf?_eq_none_iff.2 fun hm => hdis b hm b h rfl
  simp only [List.nodup_append, List.mem_append] at hn
  obtain ⟨⟨⟨np, nc, dpc⟩, ns, ds⟩, nd, dd⟩ := hn
  cases d with
  | setPage p =>
    have h : p.toNat < e.pageBytes.length := by omega
    simp only [DevEnc.byteOf, DevEnc.setPage, DevEnc.decodeByte, idxOf?_getD np h]
    simp
  | setColumn c =>
    have h : c.toNat < e.columnBytes.length := by omega
    have m := getD_mem h 0
    simp only [DevEnc.byteOf, DevEnc.setColumn, DevEnc.decodeByte, none_of m dpc,
      idxOf?_getD nc h]
    simp
  | setStartLine l =>
    have h : l.toNat < e.startLineBytes.length := by omega
    have m := getD_mem h 0
    simp only [DevEnc.byteOf, DevEnc.setStartLine, DevEnc.decodeByte, idxOf?_getD ns h,
      none_of m fun a ha => ds a (.inl ha), none_of m fun a ha => ds a (.inr ha)]
    simp
  | display on =>
    have h : on.toNat < e.displayBytes.length := by cases on <;> simp [hd]
    have m := getD_mem h 0
    simp only [DevEnc.byteOf, DevEnc.display, DevEnc.decodeByte, idxOf?_getD nd h,
      none_of m fun a ha => dd a (.inl (.inl ha)), none_of m fun a ha => dd a (.inl (.inr ha)),
      none_of m fun a ha => dd a (.inr ha)]
    cases on <;> rfl

end Sys2Proof
end

