-- ==== Sys2Proof/Laws/State.lean ====
section
/-! SUPPORT. One lemma for each field each state update leaves alone (and for those it writes), so that
no later proof unfolds an update. -/

namespace Sys2Proof.Machine

/-! ## DIRTY and DEPTH -/

@[simp] theorem writeDirty_cfg (v : Bool) (s : State) : (writeDirty v s).cfg = s.cfg := by unfold writeDirty; split <;> rfl
@[simp] theorem writeDirty_fb (v : Bool) (s : State) : (writeDirty v s).fb = s.fb := by unfold writeDirty; split <;> rfl
@[simp] theorem writeDirty_inv (v : Bool) (s : State) : (writeDirty v s).inv = s.inv := by unfold writeDirty; split <;> rfl
@[simp] theorem writeDirty_depth (v : Bool) (s : State) : (writeDirty v s).depth = s.depth := by unfold writeDirty; split <;> rfl
@[simp] theorem writeDirty_initDone (v : Bool) (s : State) : (writeDirty v s).initDone = s.initDone := by unfold writeDirty; split <;> rfl
@[simp] theorem writeDirty_fault (v : Bool) (s : State) : (writeDirty v s).fault = s.fault := by unfold writeDirty; split <;> rfl
@[simp] theorem writeDirty_faultIndex (v : Bool) (s : State) : (writeDirty v s).faultIndex = s.faultIndex := by unfold writeDirty; split <;> rfl
@[simp] theorem writeDirty_faultWord (v : Bool) (s : State) : (writeDirty v s).faultWord = s.faultWord := by unfold writeDirty; split <;> rfl
@[simp] theorem writeDirty_cmdCount (v : Bool) (s : State) : (writeDirty v s).cmdCount = s.cmdCount := by unfold writeDirty; split <;> rfl
@[simp] theorem writeDirty_resp (v : Bool) (s : State) : (writeDirty v s).resp = s.resp := by unfold writeDirty; split <;> rfl
@[simp] theorem writeDirty_respStamp (v : Bool) (s : State) : (writeDirty v s).respStamp = s.respStamp := by unfold writeDirty; split <;> rfl
@[simp] theorem writeDirty_port (v : Bool) (s : State) : (writeDirty v s).port = s.port := by unfold writeDirty; split <;> rfl
@[simp] theorem writeDirty_trace (v : Bool) (s : State) : (writeDirty v s).trace = s.trace := by unfold writeDirty; split <;> rfl
@[simp] theorem writeDirty_dev (v : Bool) (s : State) : (writeDirty v s).dev = s.dev := by unfold writeDirty; split <;> rfl
@[simp] theorem writeDirty_draws (v : Bool) (s : State) : (writeDirty v s).draws = s.draws := by unfold writeDirty; split <;> rfl
@[simp] theorem writeDirty_inbox (v : Bool) (s : State) : (writeDirty v s).inbox = s.inbox := by unfold writeDirty; split <;> rfl

theorem writeDirty_dirty (v : Bool) (s : State) :
    (writeDirty v s).dirty = if s.cfg.drawMode = .buffered then v else s.dirty := by
  unfold writeDirty; split <;> rfl

@[simp] theorem writeDepth_cfg (d : BitVec 16) (s : State) : (writeDepth d s).cfg = s.cfg := by unfold writeDepth; split <;> rfl
@[simp] theorem writeDepth_fb (d : BitVec 16) (s : State) : (writeDepth d s).fb = s.fb := by unfold writeDepth; split <;> rfl
@[simp] theorem writeDepth_inv (d : BitVec 16) (s : State) : (writeDepth d s).inv = s.inv := by unfold writeDepth; split <;> rfl
@[simp] theorem writeDepth_dirty (d : BitVec 16) (s : State) : (writeDepth d s).dirty = s.dirty := by unfold writeDepth; split <;> rfl
@[simp] theorem writeDepth_initDone (d : BitVec 16) (s : State) : (writeDepth d s).initDone = s.initDone := by unfold writeDepth; split <;> rfl
@[simp] theorem writeDepth_fault (d : BitVec 16) (s : State) : (writeDepth d s).fault = s.fault := by unfold writeDepth; split <;> rfl
@[simp] theorem writeDepth_faultIndex (d : BitVec 16) (s : State) : (writeDepth d s).faultIndex = s.faultIndex := by unfold writeDepth; split <;> rfl
@[simp] theorem writeDepth_faultWord (d : BitVec 16) (s : State) : (writeDepth d s).faultWord = s.faultWord := by unfold writeDepth; split <;> rfl
@[simp] theorem writeDepth_cmdCount (d : BitVec 16) (s : State) : (writeDepth d s).cmdCount = s.cmdCount := by unfold writeDepth; split <;> rfl
@[simp] theorem writeDepth_resp (d : BitVec 16) (s : State) : (writeDepth d s).resp = s.resp := by unfold writeDepth; split <;> rfl
@[simp] theorem writeDepth_respStamp (d : BitVec 16) (s : State) : (writeDepth d s).respStamp = s.respStamp := by unfold writeDepth; split <;> rfl
@[simp] theorem writeDepth_port (d : BitVec 16) (s : State) : (writeDepth d s).port = s.port := by unfold writeDepth; split <;> rfl
@[simp] theorem writeDepth_trace (d : BitVec 16) (s : State) : (writeDepth d s).trace = s.trace := by unfold writeDepth; split <;> rfl
@[simp] theorem writeDepth_dev (d : BitVec 16) (s : State) : (writeDepth d s).dev = s.dev := by unfold writeDepth; split <;> rfl
@[simp] theorem writeDepth_draws (d : BitVec 16) (s : State) : (writeDepth d s).draws = s.draws := by unfold writeDepth; split <;> rfl
@[simp] theorem writeDepth_inbox (d : BitVec 16) (s : State) : (writeDepth d s).inbox = s.inbox := by unfold writeDepth; split <;> rfl

theorem writeDepth_depth (d : BitVec 16) (s : State) :
    (writeDepth d s).depth = if s.cfg.drawMode = .immediate then d else s.depth := by
  unfold writeDepth; split <;> rfl

/-! ## Sending -/

@[simp] theorem txAll_cfg (qs : List Quad) (s : State) : (txAll qs s).cfg = s.cfg := rfl
@[simp] theorem txAll_fb (qs : List Quad) (s : State) : (txAll qs s).fb = s.fb := rfl
@[simp] theorem txAll_inv (qs : List Quad) (s : State) : (txAll qs s).inv = s.inv := rfl
@[simp] theorem txAll_dirty (qs : List Quad) (s : State) : (txAll qs s).dirty = s.dirty := rfl
@[simp] theorem txAll_depth (qs : List Quad) (s : State) : (txAll qs s).depth = s.depth := rfl
@[simp] theorem txAll_initDone (qs : List Quad) (s : State) : (txAll qs s).initDone = s.initDone := rfl
@[simp] theorem txAll_fault (qs : List Quad) (s : State) : (txAll qs s).fault = s.fault := rfl
@[simp] theorem txAll_faultIndex (qs : List Quad) (s : State) : (txAll qs s).faultIndex = s.faultIndex := rfl
@[simp] theorem txAll_faultWord (qs : List Quad) (s : State) : (txAll qs s).faultWord = s.faultWord := rfl
@[simp] theorem txAll_cmdCount (qs : List Quad) (s : State) : (txAll qs s).cmdCount = s.cmdCount := rfl
@[simp] theorem txAll_resp (qs : List Quad) (s : State) : (txAll qs s).resp = s.resp := rfl
@[simp] theorem txAll_respStamp (qs : List Quad) (s : State) : (txAll qs s).respStamp = s.respStamp := rfl
@[simp] theorem txAll_draws (qs : List Quad) (s : State) : (txAll qs s).draws = s.draws := rfl
@[simp] theorem txAll_inbox (qs : List Quad) (s : State) : (txAll qs s).inbox = s.inbox := rfl
@[simp] theorem txAll_trace (qs : List Quad) (s : State) :
    (txAll qs s).trace = s.trace ++ qs.map .quad := rfl
theorem txAll_port (qs : List Quad) (s : State) :
    (txAll qs s).port = qs.foldl (driveQuad s.cfg) s.port := rfl
theorem txAll_dev (qs : List Quad) (s : State) :
    (txAll qs s).dev = qs.foldl (Device.apply s.cfg.devEnc) s.dev := rfl

@[simp] theorem fullTx_cfg (s : State) : (fullTx s).cfg = s.cfg := txAll_cfg _ s
@[simp] theorem fullTx_fb (s : State) : (fullTx s).fb = s.fb := txAll_fb _ s
@[simp] theorem fullTx_inv (s : State) : (fullTx s).inv = s.inv := txAll_inv _ s
@[simp] theorem fullTx_dirty (s : State) : (fullTx s).dirty = s.dirty := txAll_dirty _ s
@[simp] theorem fullTx_depth (s : State) : (fullTx s).depth = s.depth := txAll_depth _ s
@[simp] theorem fullTx_initDone (s : State) : (fullTx s).initDone = s.initDone := txAll_initDone _ s
@[simp] theorem fullTx_fault (s : State) : (fullTx s).fault = s.fault := txAll_fault _ s
@[simp] theorem fullTx_faultIndex (s : State) : (fullTx s).faultIndex = s.faultIndex := txAll_faultIndex _ s
@[simp] theorem fullTx_faultWord (s : State) : (fullTx s).faultWord = s.faultWord := txAll_faultWord _ s
@[simp] theorem fullTx_cmdCount (s : State) : (fullTx s).cmdCount = s.cmdCount := txAll_cmdCount _ s
@[simp] theorem fullTx_resp (s : State) : (fullTx s).resp = s.resp := txAll_resp _ s
@[simp] theorem fullTx_respStamp (s : State) : (fullTx s).respStamp = s.respStamp := txAll_respStamp _ s
@[simp] theorem fullTx_draws (s : State) : (fullTx s).draws = s.draws := txAll_draws _ s
@[simp] theorem fullTx_inbox (s : State) : (fullTx s).inbox = s.inbox := txAll_inbox _ s
@[simp] theorem fullTx_trace (s : State) :
    (fullTx s).trace = s.trace ++ (fullTxQuads s.cfg.devEnc s.fb).map .quad := txAll_trace _ s

@[simp] theorem byteTx_cfg (a : BitVec 10) (s : State) : (byteTx a s).cfg = s.cfg := txAll_cfg _ s
@[simp] theorem byteTx_fb (a : BitVec 10) (s : State) : (byteTx a s).fb = s.fb := txAll_fb _ s
@[simp] theorem byteTx_inv (a : BitVec 10) (s : State) : (byteTx a s).inv = s.inv := txAll_inv _ s
@[simp] theorem byteTx_dirty (a : BitVec 10) (s : State) : (byteTx a s).dirty = s.dirty := txAll_dirty _ s
@[simp] theorem byteTx_depth (a : BitVec 10) (s : State) : (byteTx a s).depth = s.depth := txAll_depth _ s
@[simp] theorem byteTx_initDone (a : BitVec 10) (s : State) : (byteTx a s).initDone = s.initDone := txAll_initDone _ s
@[simp] theorem byteTx_fault (a : BitVec 10) (s : State) : (byteTx a s).fault = s.fault := txAll_fault _ s
@[simp] theorem byteTx_faultIndex (a : BitVec 10) (s : State) : (byteTx a s).faultIndex = s.faultIndex := txAll_faultIndex _ s
@[simp] theorem byteTx_faultWord (a : BitVec 10) (s : State) : (byteTx a s).faultWord = s.faultWord := txAll_faultWord _ s
@[simp] theorem byteTx_cmdCount (a : BitVec 10) (s : State) : (byteTx a s).cmdCount = s.cmdCount := txAll_cmdCount _ s
@[simp] theorem byteTx_resp (a : BitVec 10) (s : State) : (byteTx a s).resp = s.resp := txAll_resp _ s
@[simp] theorem byteTx_respStamp (a : BitVec 10) (s : State) : (byteTx a s).respStamp = s.respStamp := txAll_respStamp _ s
@[simp] theorem byteTx_draws (a : BitVec 10) (s : State) : (byteTx a s).draws = s.draws := txAll_draws _ s
@[simp] theorem byteTx_inbox (a : BitVec 10) (s : State) : (byteTx a s).inbox = s.inbox := txAll_inbox _ s
@[simp] theorem byteTx_trace (a : BitVec 10) (s : State) :
    (byteTx a s).trace = s.trace ++ (byteTxQuads s.cfg.devEnc s.fb a).map .quad := txAll_trace _ s

@[simp] theorem idlePins_cfg (s : State) : (idlePins s).cfg = s.cfg := rfl
@[simp] theorem idlePins_fb (s : State) : (idlePins s).fb = s.fb := rfl
@[simp] theorem idlePins_inv (s : State) : (idlePins s).inv = s.inv := rfl
@[simp] theorem idlePins_dirty (s : State) : (idlePins s).dirty = s.dirty := rfl
@[simp] theorem idlePins_depth (s : State) : (idlePins s).depth = s.depth := rfl
@[simp] theorem idlePins_initDone (s : State) : (idlePins s).initDone = s.initDone := rfl
@[simp] theorem idlePins_fault (s : State) : (idlePins s).fault = s.fault := rfl
@[simp] theorem idlePins_faultIndex (s : State) : (idlePins s).faultIndex = s.faultIndex := rfl
@[simp] theorem idlePins_faultWord (s : State) : (idlePins s).faultWord = s.faultWord := rfl
@[simp] theorem idlePins_cmdCount (s : State) : (idlePins s).cmdCount = s.cmdCount := rfl
@[simp] theorem idlePins_resp (s : State) : (idlePins s).resp = s.resp := rfl
@[simp] theorem idlePins_respStamp (s : State) : (idlePins s).respStamp = s.respStamp := rfl
@[simp] theorem idlePins_trace (s : State) : (idlePins s).trace = s.trace := rfl
@[simp] theorem idlePins_dev (s : State) : (idlePins s).dev = s.dev := rfl
@[simp] theorem idlePins_draws (s : State) : (idlePins s).draws = s.draws := rfl
@[simp] theorem idlePins_inbox (s : State) : (idlePins s).inbox = s.inbox := rfl
@[simp] theorem idlePins_port (s : State) : (idlePins s).port = driveIdle s.cfg s.port := rfl

@[simp] theorem resetPulse_cfg (s : State) : (resetPulse s).cfg = s.cfg := rfl
@[simp] theorem resetPulse_fb (s : State) : (resetPulse s).fb = s.fb := rfl
@[simp] theorem resetPulse_inv (s : State) : (resetPulse s).inv = s.inv := rfl
@[simp] theorem resetPulse_dirty (s : State) : (resetPulse s).dirty = s.dirty := rfl
@[simp] theorem resetPulse_depth (s : State) : (resetPulse s).depth = s.depth := rfl
@[simp] theorem resetPulse_initDone (s : State) : (resetPulse s).initDone = s.initDone := rfl
@[simp] theorem resetPulse_fault (s : State) : (resetPulse s).fault = s.fault := rfl
@[simp] theorem resetPulse_faultIndex (s : State) : (resetPulse s).faultIndex = s.faultIndex := rfl
@[simp] theorem resetPulse_faultWord (s : State) : (resetPulse s).faultWord = s.faultWord := rfl
@[simp] theorem resetPulse_cmdCount (s : State) : (resetPulse s).cmdCount = s.cmdCount := rfl
@[simp] theorem resetPulse_resp (s : State) : (resetPulse s).resp = s.resp := rfl
@[simp] theorem resetPulse_respStamp (s : State) : (resetPulse s).respStamp = s.respStamp := rfl
@[simp] theorem resetPulse_inbox (s : State) : (resetPulse s).inbox = s.inbox := rfl
@[simp] theorem resetPulse_trace (s : State) :
    (resetPulse s).trace = s.trace ++ [.resetPulse] := rfl
@[simp] theorem resetPulse_dev (s : State) : (resetPulse s).dev = drawnDevice s.draws := rfl
@[simp] theorem resetPulse_draws (s : State) : (resetPulse s).draws = s.draws + 1 := rfl

/-! ## Publishing the whole buffer -/

@[simp] theorem publishAll_cfg (s : State) : (publishAll s).cfg = s.cfg := by
  unfold publishAll; split <;> simp
@[simp] theorem publishAll_fb (s : State) : (publishAll s).fb = s.fb := by
  unfold publishAll; split <;> simp
@[simp] theorem publishAll_inv (s : State) : (publishAll s).inv = s.inv := by
  unfold publishAll; split <;> simp
@[simp] theorem publishAll_depth (s : State) : (publishAll s).depth = s.depth := by
  unfold publishAll; split <;> simp
@[simp] theorem publishAll_initDone (s : State) : (publishAll s).initDone = s.initDone := by
  unfold publishAll; split <;> simp
@[simp] theorem publishAll_fault (s : State) : (publishAll s).fault = s.fault := by
  unfold publishAll; split <;> simp
@[simp] theorem publishAll_faultIndex (s : State) : (publishAll s).faultIndex = s.faultIndex := by
  unfold publishAll; split <;> simp
@[simp] theorem publishAll_faultWord (s : State) : (publishAll s).faultWord = s.faultWord := by
  unfold publishAll; split <;> simp
@[simp] theorem publishAll_cmdCount (s : State) : (publishAll s).cmdCount = s.cmdCount := by
  unfold publishAll; split <;> simp
@[simp] theorem publishAll_resp (s : State) : (publishAll s).resp = s.resp := by
  unfold publishAll; split <;> simp
@[simp] theorem publishAll_respStamp (s : State) : (publishAll s).respStamp = s.respStamp := by
  unfold publishAll; split <;> simp
@[simp] theorem publishAll_draws (s : State) : (publishAll s).draws = s.draws := by
  unfold publishAll; split <;> simp
@[simp] theorem publishAll_inbox (s : State) : (publishAll s).inbox = s.inbox := by
  unfold publishAll; split <;> simp

theorem publishAll_buffered {s : State} (h : s.cfg.drawMode = .buffered) :
    publishAll s = { s with dirty := true } := by
  simp [publishAll, writeDirty, h]

theorem publishAll_immediate {s : State} (h : s.cfg.drawMode = .immediate) :
    publishAll s = fullTx s := by
  simp [publishAll, h]

/-! ## Drawing a pixel -/

@[simp] theorem drawPixel_cfg (v : Bool) (x y : BitVec 8) (s : State) : (drawPixel v x y s).cfg = s.cfg := by
  simp only [drawPixel]; split <;> [skip; split] <;> simp
@[simp] theorem drawPixel_inv (v : Bool) (x y : BitVec 8) (s : State) : (drawPixel v x y s).inv = s.inv := by
  simp only [drawPixel]; split <;> [skip; split] <;> simp
@[simp] theorem drawPixel_depth (v : Bool) (x y : BitVec 8) (s : State) : (drawPixel v x y s).depth = s.depth := by
  simp only [drawPixel]; split <;> [skip; split] <;> simp
@[simp] theorem drawPixel_initDone (v : Bool) (x y : BitVec 8) (s : State) : (drawPixel v x y s).initDone = s.initDone := by
  simp only [drawPixel]; split <;> [skip; split] <;> simp
@[simp] theorem drawPixel_fault (v : Bool) (x y : BitVec 8) (s : State) : (drawPixel v x y s).fault = s.fault := by
  simp only [drawPixel]; split <;> [skip; split] <;> simp
@[simp] theorem drawPixel_faultIndex (v : Bool) (x y : BitVec 8) (s : State) : (drawPixel v x y s).faultIndex = s.faultIndex := by
  simp only [drawPixel]; split <;> [skip; split] <;> simp
@[simp] theorem drawPixel_faultWord (v : Bool) (x y : BitVec 8) (s : State) : (drawPixel v x y s).faultWord = s.faultWord := by
  simp only [drawPixel]; split <;> [skip; split] <;> simp
@[simp] theorem drawPixel_cmdCount (v : Bool) (x y : BitVec 8) (s : State) : (drawPixel v x y s).cmdCount = s.cmdCount := by
  simp only [drawPixel]; split <;> [skip; split] <;> simp
@[simp] theorem drawPixel_resp (v : Bool) (x y : BitVec 8) (s : State) : (drawPixel v x y s).resp = s.resp := by
  simp only [drawPixel]; split <;> [skip; split] <;> simp
@[simp] theorem drawPixel_respStamp (v : Bool) (x y : BitVec 8) (s : State) : (drawPixel v x y s).respStamp = s.respStamp := by
  simp only [drawPixel]; split <;> [skip; split] <;> simp
@[simp] theorem drawPixel_draws (v : Bool) (x y : BitVec 8) (s : State) : (drawPixel v x y s).draws = s.draws := by
  simp only [drawPixel]; split <;> [skip; split] <;> simp
@[simp] theorem drawPixel_inbox (v : Bool) (x y : BitVec 8) (s : State) : (drawPixel v x y s).inbox = s.inbox := by
  simp only [drawPixel]; split <;> [skip; split] <;> simp

theorem drawPixel_fb (v : Bool) (x y : BitVec 8) (s : State) :
    (drawPixel v x y s).fb = Memory.write s.fb (pixelAddr x y).toNat
      (pixelByte (Memory.read s.fb (pixelAddr x y).toNat) (pixelBit y) v s.inv) := by
  simp only [drawPixel]; split <;> [skip; split] <;> simp

/-! ## RESET and INIT -/

@[simp] theorem resetBody_cfg (s : State) : (resetBody s).cfg = s.cfg := by
  simp [resetBody]
@[simp] theorem resetBody_depth (s : State) : (resetBody s).depth = s.depth := by
  simp [resetBody]
@[simp] theorem resetBody_initDone (s : State) : (resetBody s).initDone = s.initDone := by
  simp [resetBody]
@[simp] theorem resetBody_fault (s : State) : (resetBody s).fault = s.fault := by
  simp [resetBody]
@[simp] theorem resetBody_faultIndex (s : State) : (resetBody s).faultIndex = s.faultIndex := by
  simp [resetBody]
@[simp] theorem resetBody_faultWord (s : State) : (resetBody s).faultWord = s.faultWord := by
  simp [resetBody]
@[simp] theorem resetBody_cmdCount (s : State) : (resetBody s).cmdCount = s.cmdCount := by
  simp [resetBody]
@[simp] theorem resetBody_resp (s : State) : (resetBody s).resp = s.resp := by
  simp [resetBody]
@[simp] theorem resetBody_respStamp (s : State) : (resetBody s).respStamp = s.respStamp := by
  simp [resetBody]
@[simp] theorem resetBody_draws (s : State) : (resetBody s).draws = s.draws := by
  simp [resetBody]
@[simp] theorem resetBody_inbox (s : State) : (resetBody s).inbox = s.inbox := by
  simp [resetBody]
@[simp] theorem resetBody_fb (s : State) : (resetBody s).fb = writeAll fun _ => 0x00 := by
  simp [resetBody]
@[simp] theorem resetBody_inv (s : State) : (resetBody s).inv = false := by simp [resetBody]
theorem resetBody_dirty (s : State) :
    (resetBody s).dirty = if s.cfg.drawMode = .buffered then false else s.dirty := by
  simp [resetBody, writeDirty_dirty]

@[simp] theorem initAddressing_cfg (s : State) : (initAddressing s).cfg = s.cfg := by
  unfold initAddressing; split <;> simp
@[simp] theorem initAddressing_fb (s : State) : (initAddressing s).fb = s.fb := by
  unfold initAddressing; split <;> simp
@[simp] theorem initAddressing_inv (s : State) : (initAddressing s).inv = s.inv := by
  unfold initAddressing; split <;> simp
@[simp] theorem initAddressing_dirty (s : State) : (initAddressing s).dirty = s.dirty := by
  unfold initAddressing; split <;> simp
@[simp] theorem initAddressing_depth (s : State) : (initAddressing s).depth = s.depth := by
  unfold initAddressing; split <;> simp
@[simp] theorem initAddressing_initDone (s : State) : (initAddressing s).initDone = s.initDone := by
  unfold initAddressing; split <;> simp
@[simp] theorem initAddressing_fault (s : State) : (initAddressing s).fault = s.fault := by
  unfold initAddressing; split <;> simp
@[simp] theorem initAddressing_faultIndex (s : State) : (initAddressing s).faultIndex = s.faultIndex := by
  unfold initAddressing; split <;> simp
@[simp] theorem initAddressing_faultWord (s : State) : (initAddressing s).faultWord = s.faultWord := by
  unfold initAddressing; split <;> simp
@[simp] theorem initAddressing_cmdCount (s : State) : (initAddressing s).cmdCount = s.cmdCount := by
  unfold initAddressing; split <;> simp
@[simp] theorem initAddressing_resp (s : State) : (initAddressing s).resp = s.resp := by
  unfold initAddressing; split <;> simp
@[simp] theorem initAddressing_respStamp (s : State) : (initAddressing s).respStamp = s.respStamp := by
  unfold initAddressing; split <;> simp
@[simp] theorem initAddressing_inbox (s : State) : (initAddressing s).inbox = s.inbox := by
  unfold initAddressing; split <;> simp

@[simp] theorem initSetup_cfg (s : State) : (initSetup s).cfg = s.cfg := by
  simp [initSetup]
@[simp] theorem initSetup_fb (s : State) : (initSetup s).fb = s.fb := by
  simp [initSetup]
@[simp] theorem initSetup_inv (s : State) : (initSetup s).inv = s.inv := by
  simp [initSetup]
@[simp] theorem initSetup_dirty (s : State) : (initSetup s).dirty = s.dirty := by
  simp [initSetup]
@[simp] theorem initSetup_depth (s : State) : (initSetup s).depth = s.depth := by
  simp [initSetup]
@[simp] theorem initSetup_fault (s : State) : (initSetup s).fault = s.fault := by
  simp [initSetup]
@[simp] theorem initSetup_faultIndex (s : State) : (initSetup s).faultIndex = s.faultIndex := by
  simp [initSetup]
@[simp] theorem initSetup_faultWord (s : State) : (initSetup s).faultWord = s.faultWord := by
  simp [initSetup]
@[simp] theorem initSetup_cmdCount (s : State) : (initSetup s).cmdCount = s.cmdCount := by
  simp [initSetup]
@[simp] theorem initSetup_resp (s : State) : (initSetup s).resp = s.resp := by
  simp [initSetup]
@[simp] theorem initSetup_respStamp (s : State) : (initSetup s).respStamp = s.respStamp := by
  simp [initSetup]
@[simp] theorem initSetup_inbox (s : State) : (initSetup s).inbox = s.inbox := by
  simp [initSetup]
@[simp] theorem initSetup_initDone (s : State) : (initSetup s).initDone = true := rfl

end Sys2Proof.Machine
end

