-- ==== Sys2Proof/Laws/Command.lean ====
section
/-! SUPPORT. What accepting, admitting and running a command can do, said once: `exec_cases` is the
inversion of `exec`, and every whole-machine claim starts from it. -/

namespace Sys2Proof.Machine

/-! ## Accepting -/

theorem accept_running {run : State → Outcome} {s : State} (h : s.fault = .none) :
    accept run s = run s := if_pos h

theorem accept_faulted {run : State → Outcome} {s : State} (h : s.fault ≠ .none) :
    accept run s = .fault (.stuck s.fault) := if_neg h

theorem accept_next {run : State → Outcome} {s t : State} (h : accept run s = .next t) :
    s.fault = .none ∧ run s = .next t := by
  unfold accept at h
  split at h
  · exact ⟨‹_›, h⟩
  · cases h

/-! ## Admission (R80) -/

theorem admission_ne_none {w : Word} {s : State} {c : FaultCause} (h : admission w s = some c) :
    c = .modeUnavailable ∨ c = .reinit ∨ c = .notInitialized := by
  unfold admission at h
  split_ifs at h <;> simp_all

theorem admission_init {w : Word} (hw : opcode w = 0x1#4) (s : State) :
    admission w s = if s.initDone = true then some .reinit else none := by
  simp [admission, hw]

/-- A command available in both modes is admitted once INIT is done. -/
theorem admission_both {w : Word} (h1 : opcode w ≠ 0x1#4) (h8 : opcode w ≠ 0x8#4)
    (h9 : opcode w ≠ 0x9#4) (hA : opcode w ≠ 0xA#4) (s : State) :
    admission w s = if s.initDone = true then none else some .notInitialized := by
  simp only [admission, h1, h8, h9, hA, false_and, or_self, if_false, true_and, ne_eq, not_false_iff]
  cases s.initDone <;> simp

theorem admission_flush {w : Word} (hw : opcode w = 0x8#4) (s : State) :
    admission w s = if s.cfg.drawMode = .immediate then some .modeUnavailable
      else if s.initDone = true then none else some .notInitialized := by
  simp only [admission, hw]
  cases s.initDone <;> simp

theorem admission_batch {w : Word} (hw : opcode w = 0x9#4 ∨ opcode w = 0xA#4) (s : State) :
    admission w s = if s.cfg.drawMode = .buffered then some .modeUnavailable
      else if s.initDone = true then none else some .notInitialized := by
  rcases hw with hw | hw <;> simp only [admission, hw] <;> cases s.initDone <;> simp

/-! ## Running -/

theorem command_admitted {w : Word} {rule : State → Outcome} {s : State} (h : s.fault = .none)
    (ha : admission w s = none) : command w rule s = rule s := by
  simp [command, accept_running h, ha]

theorem command_turned_away {w : Word} {rule : State → Outcome} {s : State} {c : FaultCause}
    (h : s.fault = .none) (ha : admission w s = some c) : command w rule s = raise c w s := by
  simp [command, accept_running h, ha]

/-- Everything a command that answers a next state can have done. -/
theorem command_next {w : Word} {rule : State → Outcome} {s t : State}
    (h : command w rule s = .next t) :
    s.fault = .none ∧
      ((∃ c, admission w s = some c ∧ raise c w s = .next t)
        ∨ (admission w s = none ∧ rule s = .next t)) := by
  obtain ⟨hf, h⟩ := accept_next h
  refine ⟨hf, ?_⟩
  cases ha : admission w s with
  | none => simp only [ha] at h; exact .inr ⟨rfl, h⟩
  | some c => simp only [ha] at h; exact .inl ⟨c, rfl, h⟩

/-! ## The inversion of exec -/

/-- What a completed command does to the state, but for CMD_COUNT; nothing for an instruction that
only raises, or that the block does not run. -/
def effect (i : Instr) (s : State) : State :=
  match i with
  | .init => idlePins (resetBody (initSetup s))
  | .reset => resetBody s
  | .setPixel v x y => if inRange x y then drawPixel v x y s else s
  | .clear => publishAll { s with fb := writeAll fun _ => clearByte s.inv }
  | .fill => publishAll { s with fb := writeAll fun _ => fillByte s.inv }
  | .setInverted v =>
    if v = s.inv then s
    else publishAll { s with fb := writeAll fun a => ~~~Memory.read s.fb a, inv := v }
  | .getInverted =>
    { s with resp := (bit s.inv).zeroExtend 32, respStamp := some (s.cmdCount + 1) }
  | .flush => writeDirty false (if readDirty s then fullTx s else s)
  | .enterBatch => writeDepth (readDepth s + 1) s
  | .leaveBatch =>
    if readDepth (writeDepth (readDepth s - 1) s) = 0 then
      fullTx (writeDepth (readDepth s - 1) s)
    else writeDepth (readDepth s - 1) s
  | _ => s

/-- The word a command instruction arrived as; 0 for a device form, which is no word. -/
def wordOf (i : Instr) : Word :=
  match encode DevEnc.default i with
  | .command w => w
  | .quad _ => 0

/-- What a device form does to a selected plane. -/
def planeEffect (i : Instr) : Option (Bool × Bool × (Plane → Plane)) :=
  match i with
  | .devSetColumn cs0 cs1 c => some (cs0, cs1, Plane.setColumn c)
  | .devSetPage cs0 cs1 p => some (cs0, cs1, Plane.setPage p)
  | .devSetStartLine cs0 cs1 l => some (cs0, cs1, Plane.setStartLine l)
  | .devWriteData cs0 cs1 d => some (cs0, cs1, Plane.writeData d)
  | .devDisplayOnOff cs0 cs1 d => some (cs0, cs1, Plane.display d)
  | _ => none

/-- The three ways `exec` answers a next state: a device form changes the device and nothing else; a
fault is recorded and nothing else changes; a command completes. -/
inductive ExecCase (i : Instr) (s t : State) : Prop where
  | device (cs0 cs1 : Bool) (f : Plane → Plane) (hp : planeEffect i = some (cs0, cs1, f))
      (ht : t = { s with dev := Device.onSelected cs0 cs1 f s.dev })
  | raised (hp : planeEffect i = none) (hf : s.fault = .none) (c : FaultCause) (hc : c ≠ .none)
      (ht : t = { s with fault := c, faultIndex := s.cmdCount, faultWord := wordOf i })
  | completed (hp : planeEffect i = none) (hf : s.fault = .none)
      (ha : admission (wordOf i) s = none)
      (ht : t = { effect i s with cmdCount := (effect i s).cmdCount + 1 })

theorem ExecCase.of_turned_away {i : Instr} {s t : State} {c : FaultCause}
    (hp : planeEffect i = none) (hf : s.fault = .none) (ha : admission (wordOf i) s = some c)
    (h : raise c (wordOf i) s = .next t) : ExecCase i s t := by
  cases h
  refine .raised hp hf c ?_ rfl
  rcases admission_ne_none ha with rfl | rfl | rfl <;> simp

theorem ExecCase.of_command {i : Instr} {s t : State} {rule : State → Outcome}
    (hp : planeEffect i = none) (hr : ∀ s, rule s = complete (effect i s))
    (h : command (wordOf i) rule s = .next t) : ExecCase i s t := by
  obtain ⟨hf, ⟨c, ha, h⟩ | ⟨ha, h⟩⟩ := command_next h
  · exact .of_turned_away hp hf ha h
  · rw [hr] at h
    cases h
    exact .completed hp hf ha rfl

theorem ExecCase.of_illegal {i : Instr} {s t : State} (hp : planeEffect i = none)
    (h : illegalCommand (wordOf i) s = .next t) : ExecCase i s t := by
  obtain ⟨hf, h⟩ := accept_next h
  cases h
  exact .raised hp hf .illegalOpcode (by simp) rfl

theorem exec_cases {i : Instr} {s t : State} (h : exec i s = .next t) : ExecCase i s t := by
  cases i with
  | init => exact .of_command rfl (fun _ => rfl) h
  | reset => exact .of_command rfl (fun _ => rfl) h
  | setPixel v x y => exact .of_command rfl (fun _ => rfl) h
  | clear => exact .of_command rfl (fun _ => rfl) h
  | fill => exact .of_command rfl (fun _ => rfl) h
  | setInverted v => exact .of_command rfl (fun _ => rfl) h
  | getInverted => exact .of_command rfl (fun _ => rfl) h
  | flush => exact .of_command rfl (fun _ => rfl) h
  | enterBatch =>
    change execEnterBatch s = .next t at h
    unfold execEnterBatch at h
    obtain ⟨hf, ⟨c, ha, h⟩ | ⟨ha, h⟩⟩ := command_next h
    · exact .of_turned_away rfl hf ha h
    · split at h
      · cases h; exact .raised rfl hf .batchOverflow (by simp) rfl
      · cases h; exact .completed rfl hf ha rfl
  | leaveBatch =>
    change execLeaveBatch s = .next t at h
    unfold execLeaveBatch at h
    obtain ⟨hf, ⟨c, ha, h⟩ | ⟨ha, h⟩⟩ := command_next h
    · exact .of_turned_away rfl hf ha h
    · split at h
      · cases h; exact .raised rfl hf .batchUnderflow (by simp) rfl
      · cases h; exact .completed rfl hf ha rfl
  | illegalOp0 w => exact .of_illegal rfl h
  | illegalOpB w => exact .of_illegal rfl h
  | illegalOpC w => exact .of_illegal rfl h
  | illegalOpD w => exact .of_illegal rfl h
  | illegalOpE w => exact .of_illegal rfl h
  | illegalOpF w => exact .of_illegal rfl h
  | devSetColumn cs0 cs1 c => cases h; exact .device cs0 cs1 _ rfl rfl
  | devSetPage cs0 cs1 p => cases h; exact .device cs0 cs1 _ rfl rfl
  | devSetStartLine cs0 cs1 l => cases h; exact .device cs0 cs1 _ rfl rfl
  | devWriteData cs0 cs1 d => cases h; exact .device cs0 cs1 _ rfl rfl
  | devDisplayOnOff cs0 cs1 d => cases h; exact .device cs0 cs1 _ rfl rfl

/-! ## Steps -/

/-- The ways `step` answers a next state: it idles; it runs the decoded instruction; it raises
RESERVED_FIELD; or a device-defined byte passes. -/
inductive StepCase (s t : State) : Prop where
  | idle (hi : s.inbox = []) (hf : s.fault = .none) (ht : t = s)
  | ran (item : InboxItem) (rest : List InboxItem) (i : Instr) (hi : s.inbox = item :: rest)
      (hd : decode s.cfg.devEnc item = .ok i) (ht : exec i { s with inbox := rest } = .next t)
  | reserved (w : Word) (rest : List InboxItem) (hi : s.inbox = .command w :: rest)
      (hd : decodeWord w = .error .reservedField) (hf : s.fault = .none)
      (ht : t = { s with
                  inbox := rest, fault := .reservedField, faultIndex := s.cmdCount, faultWord := w })
  | passed (q : Quad) (rest : List InboxItem) (hi : s.inbox = .quad q :: rest)
      (hd : decodeQuad s.cfg.devEnc q = .error .deviceDefined) (ht : t = { s with inbox := rest })

theorem decodeWord_error {w : Word} {r : DecodeReject} (h : decodeWord w = .error r) :
    r = .reservedField := by
  unfold decodeWord row at h
  split at h <;> first | cases h | (split at h <;> cases h; rfl)

theorem decodeQuad_error {e : DevEnc} {q : Quad} {r : DecodeReject}
    (h : decodeQuad e q = .error r) : r = .deviceDefined := by
  unfold decodeQuad at h
  split at h
  · cases h
  · split at h <;> cases h
    rfl

theorem step_cases {s t : State} (h : step s = .next t) : s.cfg.valid = true ∧ StepCase s t := by
  unfold step at h
  split at h
  · refine ⟨‹_›, ?_⟩
    cases hi : s.inbox with
    | nil =>
      simp only [fetch, hi] at h
      obtain ⟨hf, h⟩ := accept_next h
      cases h
      exact .idle hi hf rfl
    | cons item rest =>
      simp only [fetch, hi] at h
      cases hd : decode s.cfg.devEnc item with
      | ok i =>
        simp only [hd] at h
        exact .ran item rest i hi hd h
      | error r =>
        simp only [hd] at h
        cases item with
        | command w =>
          obtain ⟨hf, h⟩ := accept_next h
          cases h
          have hr := decodeWord_error hd
          subst hr
          exact .reserved w rest hi hd hf rfl
        | quad q =>
          cases h
          have hr := decodeQuad_error hd
          subst hr
          exact .passed q rest hi hd rfl
  · cases h

end Sys2Proof.Machine
end

