-- ==== Sys2Proof/Laws/Memory.lean ====
section
/-! SUPPORT. The laws of byte memory: a read gives what was written, a write leaves every other byte
alone, every operation keeps the canonical form, and canonical memories with the same bytes are equal. -/

namespace Sys2Proof.Machine

@[simp] theorem Memory.read_nil (a : Nat) : Memory.read [] a = 0 := rfl

theorem Memory.read_cons (k : Nat) (v : Byte) (m : Memory) (a : Nat) :
    Memory.read ((k, v) :: m) a = if a = k then v else Memory.read m a := rfl

/-! ## The canonical form -/

theorem Memory.wfFrom_cons {hi lo k : Nat} {v : Byte} {m : Memory} :
    Memory.wfFrom hi lo ((k, v) :: m) = true ↔
      lo ≤ k ∧ k < hi ∧ v ≠ 0 ∧ Memory.wfFrom hi (k + 1) m = true := by
  simp [Memory.wfFrom, and_assoc]

theorem Memory.wfFrom_mono {hi lo lo' : Nat} (h : lo' ≤ lo) {m : Memory}
    (hm : Memory.wfFrom hi lo m = true) : Memory.wfFrom hi lo' m = true := by
  cases m with
  | nil => rfl
  | cons x m =>
    obtain ⟨k, v⟩ := x
    rw [Memory.wfFrom_cons] at hm ⊢
    exact ⟨h.trans hm.1, hm.2⟩

/-- Below its first possible address a canonical memory reads as unlisted. -/
theorem Memory.read_below {hi lo a : Nat} {m : Memory} (hm : Memory.wfFrom hi lo m = true)
    (ha : a < lo) : Memory.read m a = 0 := by
  induction m generalizing lo with
  | nil => rfl
  | cons x m ih =>
    obtain ⟨k, v⟩ := x
    rw [Memory.wfFrom_cons] at hm
    rw [Memory.read_cons, if_neg (by omega), ih hm.2.2.2 (by omega)]

/-- Outside its size a canonical memory reads as unlisted. -/
theorem Memory.read_above {hi lo a : Nat} {m : Memory} (hm : Memory.wfFrom hi lo m = true)
    (ha : hi ≤ a) : Memory.read m a = 0 := by
  induction m generalizing lo with
  | nil => rfl
  | cons x m ih =>
    obtain ⟨k, v⟩ := x
    rw [Memory.wfFrom_cons] at hm
    rw [Memory.read_cons, if_neg (by omega), ih hm.2.2.2]

theorem Memory.wfFrom_consIf {hi lo a : Nat} {v : Byte} {m : Memory} (hlo : lo ≤ a) (hhi : a < hi)
    (hm : Memory.wfFrom hi (a + 1) m = true) :
    Memory.wfFrom hi lo (Memory.cons a v m) = true := by
  unfold Memory.cons
  split
  · exact Memory.wfFrom_mono (by omega) hm
  · exact Memory.wfFrom_cons.2 ⟨hlo, hhi, ‹_›, hm⟩

theorem Memory.read_consIf {a b : Nat} {v : Byte} {m : Memory} (h : Memory.read m a = 0) :
    Memory.read (Memory.cons a v m) b = if b = a then v else Memory.read m b := by
  unfold Memory.cons
  split
  · split
    · subst_vars; exact h
    · rfl
  · rfl

/-! ## Writing one byte -/

theorem Memory.write_wfFrom {hi lo : Nat} {m : Memory} (hm : Memory.wfFrom hi lo m = true)
    {a : Nat} (hlo : lo ≤ a) (hhi : a < hi) (v : Byte) :
    Memory.wfFrom hi lo (Memory.write m a v) = true := by
  induction m generalizing lo with
  | nil => exact Memory.wfFrom_consIf hlo hhi rfl
  | cons x m ih =>
    obtain ⟨k, w⟩ := x
    rw [Memory.wfFrom_cons] at hm
    unfold Memory.write
    split
    · exact Memory.wfFrom_consIf hlo hhi (Memory.wfFrom_cons.2 ⟨by omega, hm.2⟩)
    · split
      · subst_vars; exact Memory.wfFrom_consIf hlo hhi hm.2.2.2
      · exact Memory.wfFrom_cons.2 ⟨hm.1, hm.2.1, hm.2.2.1, ih hm.2.2.2 (by omega)⟩

/-- A write inside a memory's size keeps its canonical form. -/
theorem Memory.write_wf {size : Nat} {m : Memory} (hm : Memory.wf size m = true) {a : Nat}
    (ha : a < size) (v : Byte) : Memory.wf size (Memory.write m a v) = true :=
  Memory.write_wfFrom hm (Nat.zero_le a) ha v

theorem Memory.read_writeFrom {hi lo : Nat} {m : Memory} (hm : Memory.wfFrom hi lo m = true)
    (a : Nat) (v : Byte) (b : Nat) :
    Memory.read (Memory.write m a v) b = if b = a then v else Memory.read m b := by
  induction m generalizing lo with
  | nil => exact Memory.read_consIf rfl
  | cons x m ih =>
    obtain ⟨k, w⟩ := x
    have hm' := Memory.wfFrom_cons.1 hm
    unfold Memory.write
    split
    · refine Memory.read_consIf ?_
      exact Memory.read_below (Memory.wfFrom_cons.2 ⟨le_refl k, hm'.2⟩) ‹_›
    · split
      · subst_vars
        rw [Memory.read_consIf (Memory.read_below hm'.2.2.2 (Nat.lt_succ_self _)),
          Memory.read_cons]
        split <;> rfl
      · rw [Memory.read_cons, Memory.read_cons, ih hm'.2.2.2]
        split <;> split <;> first | rfl | omega

/-- A read after a write: the byte written at that address, every other byte as before. -/
theorem Memory.read_write {size : Nat} {m : Memory} (hm : Memory.wf size m = true)
    (a : Nat) (v : Byte) (b : Nat) :
    Memory.read (Memory.write m a v) b = if b = a then v else Memory.read m b :=
  Memory.read_writeFrom hm a v b

/-! ## Writing every byte -/

theorem Memory.build_wfFrom (f : Nat → Byte) (a n : Nat) {hi : Nat} (h : a + n ≤ hi) :
    Memory.wfFrom hi a (Memory.build f a n) = true := by
  induction n generalizing a with
  | zero => rfl
  | succ n ih => exact Memory.wfFrom_consIf (le_refl a) (by omega) (ih (a + 1) (by omega))

theorem Memory.read_build (f : Nat → Byte) (a n b : Nat) :
    Memory.read (Memory.build f a n) b = if a ≤ b ∧ b < a + n then f b else 0 := by
  induction n generalizing a with
  | zero => rw [if_neg (by omega)]; rfl
  | succ n ih =>
    unfold Memory.build
    rw [Memory.read_consIf
      (Memory.read_below (Memory.build_wfFrom f (a + 1) n (le_refl _)) (Nat.lt_succ_self a)), ih]
    rcases eq_or_ne b a with rfl | hb
    · rw [if_pos rfl, if_pos (by omega)]
    · rw [if_neg hb]
      exact if_congr (by omega) rfl rfl

/-- Writing all of FB: byte `a` holds `f a`. -/
theorem read_writeAll (f : Nat → Byte) {a : Nat} (ha : a < fbSize) :
    Memory.read (writeAll f) a = f a := by
  rw [writeAll, Memory.read_build, if_pos ⟨Nat.zero_le a, by omega⟩]

theorem writeAll_wf (f : Nat → Byte) : Memory.wf fbSize (writeAll f) = true :=
  Memory.build_wfFrom f 0 fbSize (by omega)

/-! ## Equal bytes, equal memories -/

theorem Memory.ext_wfFrom {hi : Nat} {m m' : Memory} {lo : Nat} (hm : Memory.wfFrom hi lo m = true)
    (hm' : Memory.wfFrom hi lo m' = true) (h : ∀ a, Memory.read m a = Memory.read m' a) : m = m' := by
  induction m generalizing lo m' with
  | nil =>
    cases m' with
    | nil => rfl
    | cons x m' =>
      obtain ⟨k, v⟩ := x
      rw [Memory.wfFrom_cons] at hm'
      have hk := h k
      rw [Memory.read_cons, if_pos rfl] at hk
      exact absurd hk.symm hm'.2.2.1
  | cons x m ih =>
    obtain ⟨k, v⟩ := x
    have hmc := Memory.wfFrom_cons.1 hm
    cases m' with
    | nil =>
      have hk := h k
      rw [Memory.read_cons, if_pos rfl] at hk
      exact absurd hk hmc.2.2.1
    | cons y m' =>
      obtain ⟨k', v'⟩ := y
      have hmc' := Memory.wfFrom_cons.1 hm'
      have hkk : k = k' := by
        by_contra hne
        rcases Nat.lt_or_gt_of_ne hne with hlt | hlt
        · have hk := h k
          rw [Memory.read_cons, if_pos rfl,
            Memory.read_below (Memory.wfFrom_cons.2 ⟨le_refl k', hmc'.2⟩) hlt] at hk
          exact hmc.2.2.1 hk
        · have hk := h k'
          rw [Memory.read_cons k', if_pos rfl,
            Memory.read_below (Memory.wfFrom_cons.2 ⟨le_refl k, hmc.2⟩) hlt] at hk
          exact hmc'.2.2.1 hk.symm
      subst hkk
      have hv : v = v' := by
        have hk := h k
        rwa [Memory.read_cons, Memory.read_cons, if_pos rfl, if_pos rfl] at hk
      subst hv
      congr 1
      refine ih hmc.2.2.2 hmc'.2.2.2 fun a => ?_
      by_cases hak : a = k
      · subst hak
        rw [Memory.read_below hmc.2.2.2 (Nat.lt_succ_self a),
          Memory.read_below hmc'.2.2.2 (Nat.lt_succ_self a)]
      · have ha := h a
        rwa [Memory.read_cons, Memory.read_cons, if_neg hak, if_neg hak] at ha

/-- Canonical memories that read alike are the same list. -/
theorem Memory.ext_wf {size : Nat} {m m' : Memory} (hm : Memory.wf size m = true)
    (hm' : Memory.wf size m' = true) (h : ∀ a, Memory.read m a = Memory.read m' a) : m = m' :=
  Memory.ext_wfFrom hm hm' h

end Sys2Proof.Machine
end

