-- ==== Sys2Proof/Laws/Device.lean ====
section
/-! SUPPORT. What quads do to one plane of the display: selection, one quad at a time, and a row of data
bytes; and that the display RAM stays canonical. -/

namespace Sys2Proof.Machine

/-! ## One plane at a time -/

/-- Whether a quad selects a plane (R162). -/
def Quad.selects (q : Quad) (k : Bool) : Bool := if k then q.cs1 else q.cs0

theorem Device.onSelected_plane (cs0 cs1 : Bool) (f : Plane → Plane) (d : Device) (k : Bool) :
    (Device.onSelected cs0 cs1 f d).plane k
      = if (if k then cs1 else cs0) then f (d.plane k) else d.plane k := by
  cases k <;> rfl

/-- What a list of quads does to a plane. -/
def planeFold (e : DevEnc) (k : Bool) (qs : List Quad) (pl : Plane) : Plane :=
  qs.foldl (fun pl q => if Quad.selects q k then planeResponse e q.mode q.byte pl else pl) pl

@[simp] theorem planeFold_nil (e : DevEnc) (k : Bool) (pl : Plane) : planeFold e k [] pl = pl := rfl

@[simp] theorem planeFold_cons (e : DevEnc) (k : Bool) (q : Quad) (qs : List Quad) (pl : Plane) :
    planeFold e k (q :: qs) pl
      = planeFold e k qs (if Quad.selects q k then planeResponse e q.mode q.byte pl else pl) := rfl

theorem planeFold_append (e : DevEnc) (k : Bool) (qs qs' : List Quad) (pl : Plane) :
    planeFold e k (qs ++ qs') pl = planeFold e k qs' (planeFold e k qs pl) :=
  List.foldl_append ..

theorem foldl_apply_plane (e : DevEnc) (k : Bool) (qs : List Quad) (d : Device) :
    (qs.foldl (Device.apply e) d).plane k = planeFold e k qs (d.plane k) := by
  induction qs generalizing d with
  | nil => rfl
  | cons q qs ih =>
    rw [List.foldl_cons, ih, planeFold_cons]
    congr 1
    exact Device.onSelected_plane _ _ _ _ _

/-- The planes after a list of quads is sent. -/
theorem txAll_plane (qs : List Quad) (s : State) (k : Bool) :
    (txAll qs s).dev.plane k = planeFold s.cfg.devEnc k qs (s.dev.plane k) :=
  foldl_apply_plane ..

@[simp] theorem quadTo_selects (k k' : Bool) (mode : QuadMode) (b : Byte) :
    Quad.selects (quadTo k mode b) k' = (k == k') := by cases k <;> cases k' <;> rfl

/-- Quads that do not select a plane leave it alone. -/
theorem planeFold_other {e : DevEnc} {k : Bool} {qs : List Quad}
    (h : ∀ q ∈ qs, Quad.selects q k = false) (pl : Plane) : planeFold e k qs pl = pl := by
  induction qs with
  | nil => rfl
  | cons q qs ih =>
    rw [planeFold_cons, h q (List.mem_cons_self ..)]
    exact ih fun q hq => h q (List.mem_cons_of_mem _ hq)

/-! ## One quad -/

theorem planeResponse_command {e : DevEnc} (he : e.wf = true) (c : DevCmd) :
    planeResponse e .cmd (e.byteOf c) = Plane.exec c := by
  simp [planeResponse, DevEnc.decodeByte_byteOf he c]

theorem planeFold_commandTo {e : DevEnc} (he : e.wf = true) (k : Bool) (c : DevCmd) (qs : List Quad)
    (pl : Plane) :
    planeFold e k (commandTo e k c :: qs) pl = planeFold e k qs (Plane.exec c pl) := by
  have hb : (commandTo e k c).byte = e.byteOf c := rfl
  have hm : (commandTo e k c).mode = .cmd := rfl
  have hs : Quad.selects (commandTo e k c) k = true := by simp [commandTo]
  rw [planeFold_cons, hs, if_pos rfl, hb, hm, planeResponse_command he]

theorem planeFold_dataTo (e : DevEnc) (k : Bool) (b : Byte) (qs : List Quad) (pl : Plane) :
    planeFold e k (quadTo k .data b :: qs) pl = planeFold e k qs (Plane.writeData b pl) := by
  have hs : Quad.selects (quadTo k .data b) k = true := by simp
  rw [planeFold_cons, hs, if_pos rfl]
  rfl

/-! ## A row of data bytes -/

theorem dramAddr_lt (p : BitVec 3) (c : BitVec 6) : dramAddr p c < dramSize := by
  unfold dramAddr dramSize; omega

theorem dramAddr_inj {p p' : BitVec 3} {c c' : BitVec 6} (h : dramAddr p c = dramAddr p' c') :
    p = p' ∧ c = c' := by
  unfold dramAddr at h
  exact ⟨BitVec.eq_of_toNat_eq (by omega), BitVec.eq_of_toNat_eq (by omega)⟩

theorem Plane.writeData_wf (b : Byte) {pl : Plane} (h : Memory.wf dramSize pl.dram = true) :
    Memory.wf dramSize (Plane.writeData b pl).dram = true :=
  Memory.write_wf h (dramAddr_lt _ _) b

/-- `n` data bytes from column `c0` on, staying in the page: each byte lands in its column, nothing
else changes, and the column pointer has gone up by `n`. -/
theorem planeFold_row (e : DevEnc) (k : Bool) (f : Nat → Byte) (c0 n : Nat) (hn : c0 + n ≤ 64)
    {pl : Plane} (hw : Memory.wf dramSize pl.dram = true) (hc : pl.col = BitVec.ofNat 6 c0) :
    ∃ m, planeFold e k ((List.range' c0 n).map fun c => quadTo k .data (f c)) pl
        = { pl with dram := m, col := BitVec.ofNat 6 (c0 + n) }
      ∧ Memory.wf dramSize m = true
      ∧ ∀ p c, Memory.read m (dramAddr p c)
          = if p = pl.page ∧ c0 ≤ c.toNat ∧ c.toNat < c0 + n then f c.toNat
            else Memory.read pl.dram (dramAddr p c) := by
  induction n generalizing c0 pl with
  | zero =>
    refine ⟨pl.dram, ?_, hw, fun p c => ?_⟩
    · cases pl; simp_all
    · rw [if_neg (by omega)]
  | succ n ih =>
    have hcol : (Plane.writeData (f c0) pl).col = BitVec.ofNat 6 (c0 + 1) := by
      simp [Plane.writeData, hc, BitVec.ofNat_add]
    obtain ⟨m, he, hm, hr⟩ := ih (c0 + 1) (by omega) (Plane.writeData_wf (f c0) hw) hcol
    have hc0 : pl.col.toNat = c0 := by
      rw [hc, BitVec.toNat_ofNat]; exact Nat.mod_eq_of_lt (by omega)
    refine ⟨m, ?_, hm, fun p c => ?_⟩
    · rw [List.range'_succ, List.map_cons, planeFold_dataTo, he]
      simp [Plane.writeData, Nat.add_assoc, Nat.add_comm 1 n]
    · rw [hr]
      simp only [Plane.writeData, Memory.read_write hw]
      by_cases hp : p = pl.page
      · subst hp
        by_cases hcc : c = pl.col
        · subst hcc
          rw [if_neg (fun h => by omega), if_pos rfl, if_pos ⟨rfl, by omega, by omega⟩, hc0]
        · have hcc' : c.toNat ≠ c0 := fun h => hcc (BitVec.eq_of_toNat_eq (by omega))
          have hne : dramAddr pl.page c ≠ dramAddr pl.page pl.col :=
            fun h => hcc (dramAddr_inj h).2
          rw [if_neg hne]
          exact if_congr (and_congr_right fun _ => by omega) rfl rfl
      · have hne : dramAddr p c ≠ dramAddr pl.page pl.col := fun h => hp (dramAddr_inj h).1
        rw [if_neg hne, if_neg (fun h => hp h.1), if_neg (fun h => hp h.1)]

/-! ## The display RAM stays canonical -/

theorem Plane.exec_dram (c : DevCmd) (pl : Plane) : (Plane.exec c pl).dram = pl.dram := by
  cases c <;> rfl

theorem planeResponse_wf (e : DevEnc) (mode : QuadMode) (b : Byte) {pl : Plane}
    (h : Memory.wf dramSize pl.dram = true) :
    Memory.wf dramSize (planeResponse e mode b pl).dram = true := by
  cases mode with
  | data => exact Plane.writeData_wf b h
  | cmd =>
    simp only [planeResponse]
    cases e.decodeByte b with
    | none => exact h
    | some c => simpa only [Plane.exec_dram] using h

theorem planeFold_wf (e : DevEnc) (k : Bool) (qs : List Quad) {pl : Plane}
    (h : Memory.wf dramSize pl.dram = true) :
    Memory.wf dramSize (planeFold e k qs pl).dram = true := by
  induction qs generalizing pl with
  | nil => exact h
  | cons q qs ih =>
    rw [planeFold_cons]
    refine ih ?_
    split
    · exact planeResponse_wf _ _ _ h
    · exact h

theorem drawnPlane_wf (n : Nat) (k : Bool) : Memory.wf dramSize (drawnPlane n k).dram = true :=
  Memory.build_wfFrom _ 0 dramSize (by omega)

end Sys2Proof.Machine
end

