-- ==== Sys2Proof/Laws/PerInstr.lean ====
section
/-! SUPPORT. For every instruction: what it is encoded as matches its row of the opcode table (the
match under the mask for a command, the mode for a device form). -/

namespace Sys2Proof.Laws.EncodedForm

/-- The table's (mask, match) of a command row, or the mode bit of a device form. -/
def tableForm : Instr → (Word × Word) ⊕ QuadMode
  | .init => .inl (0xFFFFFFFF, 0x10000000)
  | .reset => .inl (0xFFFFFFFF, 0x20000000)
  | .setPixel _ _ _ => .inl (0xFFFE0000, 0x30000000)
  | .clear => .inl (0xFFFFFFFF, 0x40000000)
  | .fill => .inl (0xFFFFFFFF, 0x50000000)
  | .setInverted _ => .inl (0xFFFEFFFF, 0x60000000)
  | .getInverted => .inl (0xFFFFFFFF, 0x70000000)
  | .flush => .inl (0xFFFFFFFF, 0x80000000)
  | .enterBatch => .inl (0xFFFFFFFF, 0x90000000)
  | .leaveBatch => .inl (0xFFFFFFFF, 0xA0000000)
  | .illegalOp0 _ => .inl (0xF0000000, 0x00000000)
  | .illegalOpB _ => .inl (0xF0000000, 0xB0000000)
  | .illegalOpC _ => .inl (0xF0000000, 0xC0000000)
  | .illegalOpD _ => .inl (0xF0000000, 0xD0000000)
  | .illegalOpE _ => .inl (0xF0000000, 0xE0000000)
  | .illegalOpF _ => .inl (0xF0000000, 0xF0000000)
  | .devSetColumn _ _ _ => .inr .cmd
  | .devSetPage _ _ _ => .inr .cmd
  | .devSetStartLine _ _ _ => .inr .cmd
  | .devWriteData _ _ _ => .inr .data
  | .devDisplayOnOff _ _ _ => .inr .cmd

/-- An item is of a row's form. -/
def HasForm : InboxItem → (Word × Word) ⊕ QuadMode → Prop
  | .command w, .inl (mask, fixed) => w &&& mask = fixed
  | .quad q, .inr mode => q.mode = mode
  | _, _ => False

/-- A well-formed instruction is encoded in the form of its row, under every DEV_ENC. -/
def Statement (i : Instr) : Prop := i.wf = true → ∀ e, HasForm (encode e i) (tableForm i)

/-- What the opcode mask leaves of a word. -/
theorem masked_opcode (w : Word) :
    w &&& 0xF0000000#32 = (opcode w).zeroExtend 32 <<< 28 := by
  ext i hi
  interval_cases i <;> simp [opcode]

theorem illegal_form {op : BitVec 4} {w fixed : Word} (h : hasOpcode op w = true)
    (hf : op.zeroExtend 32 <<< 28 = fixed) : w &&& 0xF0000000#32 = fixed := by
  rw [masked_opcode, (hasOpcode_iff op w).1 h, hf]

theorem setPixel_form (v : Bool) (x y : BitVec 8) :
    commandWord 0x3#4 v x y &&& 0xFFFE0000#32 = 0x30000000#32 := by
  ext i hi
  interval_cases i <;> simp [commandWord]

theorem init : Statement .init := fun _ _ => rfl
theorem reset : Statement .reset := fun _ _ => rfl
theorem setPixel (v : Bool) (x y : BitVec 8) : Statement (.setPixel v x y) :=
  fun _ _ => setPixel_form v x y
theorem clear : Statement .clear := fun _ _ => rfl
theorem fill : Statement .fill := fun _ _ => rfl
theorem setInverted (v : Bool) : Statement (.setInverted v) := fun _ _ => by
  cases v <;> rfl
theorem getInverted : Statement .getInverted := fun _ _ => rfl
theorem flush : Statement .flush := fun _ _ => rfl
theorem enterBatch : Statement .enterBatch := fun _ _ => rfl
theorem leaveBatch : Statement .leaveBatch := fun _ _ => rfl
theorem illegalOp0 (w : Word) : Statement (.illegalOp0 w) := fun h _ => illegal_form h (by decide)
theorem illegalOpB (w : Word) : Statement (.illegalOpB w) := fun h _ => illegal_form h (by decide)
theorem illegalOpC (w : Word) : Statement (.illegalOpC w) := fun h _ => illegal_form h (by decide)
theorem illegalOpD (w : Word) : Statement (.illegalOpD w) := fun h _ => illegal_form h (by decide)
theorem illegalOpE (w : Word) : Statement (.illegalOpE w) := fun h _ => illegal_form h (by decide)
theorem illegalOpF (w : Word) : Statement (.illegalOpF w) := fun h _ => illegal_form h (by decide)
theorem devSetColumn (cs0 cs1 : Bool) (c : BitVec 6) : Statement (.devSetColumn cs0 cs1 c) :=
  fun _ _ => rfl
theorem devSetPage (cs0 cs1 : Bool) (p : BitVec 3) : Statement (.devSetPage cs0 cs1 p) :=
  fun _ _ => rfl
theorem devSetStartLine (cs0 cs1 : Bool) (l : BitVec 6) : Statement (.devSetStartLine cs0 cs1 l) :=
  fun _ _ => rfl
theorem devWriteData (cs0 cs1 : Bool) (d : Byte) : Statement (.devWriteData cs0 cs1 d) :=
  fun _ _ => rfl
theorem devDisplayOnOff (cs0 cs1 d : Bool) : Statement (.devDisplayOnOff cs0 cs1 d) :=
  fun _ _ => rfl

end Sys2Proof.Laws.EncodedForm
end

