-- ==== Sys2Proof/Laws/Serial.lean ====
section
/-! SUPPORT. The serial side: shifting a whole frame leaves the register holding it, whichever bit goes
first, and what one frame of the waveform ends with; and what driving IDLE_LEVELS does to the pins. -/

namespace Sys2Proof.Machine

/-- The register after bits are shifted in, one after another. -/
def shiftAll (c : Config) (bits stages : List Bool) : List Bool :=
  bits.foldl (fun st b => shiftIn c b st) stages

theorem shiftAll_cons (c : Config) (b : Bool) (bits stages : List Bool) :
    shiftAll c (b :: bits) stages = shiftAll c bits (shiftIn c b stages) := rfl

theorem shiftIn_length_le (c : Config) (b : Bool) (stages : List Bool) :
    (shiftIn c b stages).length ≤ c.serMap.length := by
  unfold shiftIn
  split
  · simp
  · simp only [List.length_drop, List.length_append, List.length_singleton]; omega

theorem shiftAll_length_le (c : Config) {bits : List Bool} (h : bits ≠ []) (stages : List Bool) :
    (shiftAll c bits stages).length ≤ c.serMap.length := by
  induction bits generalizing stages with
  | nil => exact absurd rfl h
  | cons b bits ih =>
    rw [shiftAll_cons]
    cases bits with
    | nil => exact shiftIn_length_le c b stages
    | cons b' bits => exact ih (by simp) _

theorem shiftAll_msbFirst {c : Config} (h : c.serOrder = .msbFirst) (bits stages : List Bool) :
    (shiftAll c bits stages).take c.serMap.length
      = (bits.reverse ++ stages).take c.serMap.length := by
  induction bits generalizing stages with
  | nil => rfl
  | cons b bits ih =>
    rw [shiftAll_cons, ih]
    simp only [shiftIn, h, List.reverse_cons, List.append_assoc, List.singleton_append]
    simp [List.take_append, List.take_take]

/-- The last `n` of a list. -/
theorem drop_length_append (n : Nat) (l l' : List Bool) :
    (l.drop (l.length - n) ++ l').drop ((l.drop (l.length - n) ++ l').length - n)
      = (l ++ l').drop ((l ++ l').length - n) := by
  rcases Nat.le_total l.length n with h | h
  · simp [Nat.sub_eq_zero_of_le h]
  · have hl : (l.drop (l.length - n)).length = n := by simp; omega
    rw [List.drop_append, List.drop_append, List.drop_drop]
    simp only [List.length_append, hl]
    congr 2 <;> omega

theorem shiftAll_lsbFirst {c : Config} (h : c.serOrder = .lsbFirst) (bits stages : List Bool) :
    (shiftAll c bits stages).drop ((shiftAll c bits stages).length - c.serMap.length)
      = (stages ++ bits).drop ((stages ++ bits).length - c.serMap.length) := by
  induction bits generalizing stages with
  | nil => simp [shiftAll]
  | cons b bits ih =>
    have hs : shiftIn c b stages
        = (stages ++ [b]).drop ((stages ++ [b]).length - c.serMap.length) := by
      simp [shiftIn, h]
    rw [shiftAll_cons, ih, hs, drop_length_append]
    simp

/-- A whole frame, shifted in SER_ORDER, ends up in the register bit i at output i (R147, R148). -/
theorem shiftAll_frame (c : Config) {f : List Bool} (hf : f.length = c.serMap.length) (hn : f ≠ [])
    (stages : List Bool) : shiftAll c (shiftSequence c f) stages = f := by
  cases ho : c.serOrder with
  | msbFirst =>
    have hs : shiftSequence c f = f.reverse := by simp [shiftSequence, ho]
    have hl := shiftAll_length_le c (bits := f.reverse) (by simpa using hn) stages
    have := shiftAll_msbFirst ho f.reverse stages
    rw [List.take_of_length_le hl, List.reverse_reverse, ← hf, List.take_left] at this
    rw [hs, this]
  | lsbFirst =>
    have hs : shiftSequence c f = f := by simp [shiftSequence, ho]
    have hl := shiftAll_length_le c hn stages
    have := shiftAll_lsbFirst ho f stages
    rw [Nat.sub_eq_zero_of_le hl, List.drop_zero, List.length_append, ← hf, Nat.add_sub_cancel,
      List.drop_left] at this
    rw [hs, this]

/-! ## The waveform of one frame -/

theorem portAfter_append (p : OutPort) (w w' : List PinStep) :
    portAfter p (w ++ w') = portAfter (portAfter p w) w' := by
  unfold portAfter
  rw [List.getLast?_append]
  cases w'.getLast? <;> simp

theorem portAfter_cons (p : OutPort) (st : PinStep) (w : List PinStep) :
    portAfter p (st :: w) = portAfter st.port w :=
  portAfter_append p [st] w

/-- Shifting bits changes the register and the data wire; the clock ends low. -/
theorem portAfter_shiftWave (c : Config) (bits : List Bool) {p : OutPort}
    (h : p.wires.sclk = false) :
    portAfter p (shiftWave c bits p)
      = { p with
          wires := { p.wires with sdata := bits.getLastD p.wires.sdata }
          shift := shiftAll c bits p.shift } := by
  induction bits generalizing p with
  | nil => rfl
  | cons b bits ih =>
    simp only [shiftWave, portAfter_cons]
    rw [ih (by simp [OutPort.setSclk])]
    simp only [OutPort.setSclk, OutPort.setSdata, h, shiftAll_cons]
    cases bits with
    | nil => simp
    | cons b' bits => simp [List.getLast?_eq_getLast_of_ne_nil]

/-- While bits are shifted no display-side signal moves. -/
theorem strobed_shiftWave (c : Config) (bits : List Bool) (p : OutPort) (w : List PinStep) :
    strobed p.lines (shiftWave c bits p ++ w) = strobed p.lines w := by
  induction bits generalizing p with
  | nil => rfl
  | cons b bits ih =>
    simp only [shiftWave, List.cons_append, strobed]
    have h3 := ih (((p.setSdata b).setSclk c true).setSclk c false)
    have hl : (((p.setSdata b).setSclk c true).setSclk c false).lines = p.lines := rfl
    rw [hl] at h3
    have h0 (l : Lines) : (l.e && !l.e) = false := by cases l.e <;> rfl
    have h1 : (p.setSdata b).lines = p.lines := rfl
    have h2 : ((p.setSdata b).setSclk c true).lines = p.lines := rfl
    simpa only [h1, h2, hl, h0, Bool.false_eq_true, if_false] using h3

/-! ## What the register shows -/

/-- An output that drives a signal shows the level the frame carries for it. -/
theorem outputLevel_frame (c : Config) (l : Lines) (old : Bool) {σ : SerSignal} (h : σ ∈ c.serMap) :
    outputLevel c (c.serMap.map (signalLevel l)) old σ = signalLevel l σ := by
  have hfind (m : List SerSignal) (hm : σ ∈ m) : ∃ x,
      ((m.zip (m.map (signalLevel l))).find? fun x => x.1 == σ) = some x
        ∧ x.2 = signalLevel l σ := by
    induction m with
    | nil => cases hm
    | cons a m ih =>
      simp only [List.map_cons, List.zip_cons_cons, List.find?_cons]
      by_cases ha : a = σ
      · subst ha; exact ⟨(a, signalLevel l a), by simp, rfl⟩
      · have := ih ((List.mem_cons.1 hm).resolve_left (Ne.symm ha))
        rwa [beq_eq_false_iff_ne.2 ha]
  obtain ⟨x, hx, hx2⟩ := hfind _ h
  rw [outputLevel, hx]
  exact hx2

/-- A register that holds a frame shows its levels, whatever the lines were, since a valid SER_MAP names
every display-side signal (R147, R211). -/
theorem outputLines_frame {c : Config} (hv : c.serMapValid = true) (l old : Lines) :
    outputLines c (c.serMap.map (signalLevel l)) old = l := by
  have hm (σ : SerSignal) (hσ : σ ∈ requiredSignals) : σ ∈ c.serMap := by
    have h1 : c.serMap.count σ = 1 := by simpa using List.all_eq_true.1 hv σ hσ
    exact List.count_pos_iff.1 (by omega)
  have hd : (BitVec.ofFnLE fun b : Fin 8 =>
      outputLevel c (c.serMap.map (signalLevel l)) (old.d.getLsbD b) (.data b)) = l.d := by
    refine BitVec.eq_of_getLsbD_eq fun i hi => ?_
    rw [BitVec.getLsbD_ofFnLE, dif_pos hi, outputLevel_frame c l _ (hm _ ?_)]
    · rfl
    · interval_cases i <;> simp [requiredSignals]
  have g (σ : SerSignal) (old : Bool) (h : σ ∈ requiredSignals) := outputLevel_frame c l old (hm σ h)
  rw [outputLines, hd, g .cs0 _ (by simp [requiredSignals]), g .cs1 _ (by simp [requiredSignals]),
    g .rs _ (by simp [requiredSignals]), g .e _ (by simp [requiredSignals])]
  rfl

/-- One frame, from SCLK and SLATCH low: the display-side signals show the quad with E at the frame's
level, the wires are back low, and the device sees a falling edge of E where E falls. -/
theorem frameWave_cases {c : Config} (hv : c.serMapValid = true) (q : Quad) (e : Bool) {p : OutPort}
    (hc : p.wires.sclk = false) (hl : p.wires.slatch = false) :
    let p' := portAfter p (frameWave c (serialFrame c q e) p)
    p'.lines = quadLines c q e ∧ p'.wires.sclk = false ∧ p'.wires.slatch = false ∧
      ∀ w, strobed p.lines (frameWave c (serialFrame c q e) p ++ w)
        = (if p.lines.e && !e then [quadLines c q e] else []) ++ strobed (quadLines c q e) w := by
  have hne : c.serMap ≠ [] := by
    intro h; rw [Config.serMapValid, h] at hv; revert hv; decide
  have hs : shiftAll c (shiftSequence c (serialFrame c q e)) p.shift = serialFrame c q e :=
    shiftAll_frame c (by simp [serialFrame]) (by simpa [serialFrame] using hne) _
  have ho (old : Lines) : outputLines c (serialFrame c q e) old = quadLines c q e :=
    outputLines_frame hv _ old
  have hp := portAfter_shiftWave c (shiftSequence c (serialFrame c q e)) hc
  rw [hs] at hp
  simp only [frameWave, portAfter_append, List.append_assoc, strobed_shiftWave, hp]
  refine ⟨?_, ?_, ?_, fun w => ?_⟩
  · simp [portAfter, OutPort.setSlatch, hl, ho]
  · simp [portAfter, OutPort.setSlatch, hc]
  · simp [portAfter, OutPort.setSlatch]
  · simp only [OutPort.setSlatch, hl, ho, List.cons_append, List.nil_append, strobed]
    cases p.lines.e <;> cases e <;> simp [quadLines]

/-- The level mapping of R144 read backwards gives the quad. -/
@[simp] theorem linesQuad_quadLines (c : Config) (q : Quad) (e : Bool) :
    linesQuad c (quadLines c q e) = q := by
  obtain ⟨a, b, m, d⟩ := q
  cases m <;> cases a <;> cases b <;> simp [linesQuad, quadLines, csLevel, rsLevel]

/-! ## IDLE_LEVELS -/

theorem driveIdle_parallel {c : Config} (h : c.txMode = .parallel) (p : OutPort) :
    (driveIdle c p).lines = c.idleLevels.lines ∧ (driveIdle c p).wires = p.wires
      ∧ (driveIdle c p).shift = p.shift := by
  simp only [driveIdle, h]; split <;> simp

theorem driveIdle_serial {c : Config} (h : c.txMode = .serial) (p : OutPort) :
    (driveIdle c p).wires = c.idleLevels.wires := by
  simp only [driveIdle, h]; split <;> rfl

theorem driveIdle_rst (c : Config) (p : OutPort) :
    (driveIdle c p).rst
      = match c.initAddrMethod with
        | .zeroCmds => p.rst
        | .hwReset => c.idleLevels.rst := by
  simp only [driveIdle]; cases c.initAddrMethod <;> cases c.txMode <;> rfl

end Sys2Proof.Machine
end

