-- ==== Sys2Proof/Laws/Transmission.lean ====
section
/-! SUPPORT. What each of the block's transmissions does to a plane of the display: a page, a plane and
the whole of FULL_TX, BYTE_TX, and the zeroing of the pointers. -/

namespace Sys2Proof.Machine

/-! ## FULL_TX -/

/-- One page, from column 0: its 64 bytes land, and the column is back at 0. -/
theorem planeFold_pageQuads {e : DevEnc} (he : e.wf = true) (fb : Memory) (k : Bool) {p : Nat}
    (hp : p < 8) {pl : Plane} (hw : Memory.wf dramSize pl.dram = true) (hc : pl.col = 0) :
    ∃ m, planeFold e k (pageQuads e fb k p) pl = { pl with page := BitVec.ofNat 3 p, dram := m }
      ∧ Memory.wf dramSize m = true
      ∧ ∀ p' c, Memory.read m (dramAddr p' c)
          = if p'.toNat = p then Memory.read fb (k.toNat * 512 + p * 64 + c.toNat)
            else Memory.read pl.dram (dramAddr p' c) := by
  obtain ⟨m, h1, h2, h3⟩ :=
    planeFold_row e k (fun c => Memory.read fb (k.toNat * 512 + p * 64 + c)) 0 64 (by omega)
      (pl := Plane.exec (.setPage (BitVec.ofNat 3 p)) pl) hw hc
  refine ⟨m, ?_, h2, fun p' c => ?_⟩
  · rw [pageQuads, planeFold_commandTo he, List.range_eq_range', h1]
    simp [Plane.exec, Plane.setPage, hc]
  · rw [h3]
    refine if_congr ?_ rfl rfl
    simp only [Plane.exec, Plane.setPage]
    constructor
    · rintro ⟨rfl, -⟩
      rw [BitVec.toNat_ofNat]; omega
    · rintro rfl
      exact ⟨by simp, by omega, by omega⟩

/-- The first `n` pages, from column 0. -/
theorem planeFold_pages {e : DevEnc} (he : e.wf = true) (fb : Memory) (k : Bool) {n : Nat}
    (hn : n ≤ 8) {pl : Plane} (hw : Memory.wf dramSize pl.dram = true) (hc : pl.col = 0) :
    ∃ m pg, planeFold e k ((List.range n).flatMap (pageQuads e fb k)) pl
        = { pl with page := pg, dram := m }
      ∧ Memory.wf dramSize m = true
      ∧ ∀ p c, Memory.read m (dramAddr p c)
          = if p.toNat < n then Memory.read fb (k.toNat * 512 + p.toNat * 64 + c.toNat)
            else Memory.read pl.dram (dramAddr p c) := by
  induction n with
  | zero => exact ⟨pl.dram, pl.page, rfl, hw, by simp⟩
  | succ n ih =>
    obtain ⟨m, pg, h1, h2, h3⟩ := ih (by omega)
    obtain ⟨m', g1, g2, g3⟩ :=
      planeFold_pageQuads he fb k (show n < 8 by omega) (pl := { pl with page := pg, dram := m })
        h2 hc
    refine ⟨m', BitVec.ofNat 3 n, ?_, g2, fun p c => ?_⟩
    · rw [List.range_succ, List.flatMap_append, planeFold_append, h1]
      simp [g1]
    · rw [g3, h3]
      split
      · subst_vars; rw [if_pos (by omega)]
      · exact if_congr (by omega) rfl rfl

theorem planeFold_planeQuads {e : DevEnc} (he : e.wf = true) (fb : Memory) (k : Bool) {pl : Plane}
    (hw : Memory.wf dramSize pl.dram = true) :
    ∃ m pg, planeFold e k (planeQuads e fb k) pl = { pl with col := 0, page := pg, dram := m }
      ∧ Memory.wf dramSize m = true
      ∧ ∀ p c, Memory.read m (dramAddr p c)
          = Memory.read fb (k.toNat * 512 + p.toNat * 64 + c.toNat) := by
  obtain ⟨m, pg, h1, h2, h3⟩ :=
    planeFold_pages he fb k (le_refl 8) (pl := Plane.exec (.setColumn 0) pl) hw rfl
  refine ⟨m, pg, ?_, h2, fun p c => ?_⟩
  · rw [planeQuads, planeFold_commandTo he, h1]; rfl
  · rw [h3, if_pos (by omega)]

/-- Sending to one plane leaves the other alone. -/
theorem planeFold_planeQuads_other (e : DevEnc) (fb : Memory) {k k' : Bool} (h : k' ≠ k)
    (pl : Plane) : planeFold e k' (planeQuads e fb k) pl = pl := by
  refine planeFold_other (fun q hq => ?_) pl
  have hk : (k == k') = false := by simpa using Ne.symm h
  simp only [planeQuads, pageQuads, List.mem_cons, List.mem_flatMap, List.mem_map] at hq
  rcases hq with rfl | ⟨_, _, rfl | ⟨_, _, rfl⟩⟩ <;> simpa [commandTo] using hk

/-- What FULL_TX does to a plane, from any state of it. -/
theorem planeFold_fullTxQuads {e : DevEnc} (he : e.wf = true) (fb : Memory) (k : Bool) {pl : Plane}
    (hw : Memory.wf dramSize pl.dram = true) :
    ∃ m, planeFold e k (fullTxQuads e fb) pl = { pl with col := 0, page := 0, dram := m }
      ∧ Memory.wf dramSize m = true
      ∧ ∀ p c, Memory.read m (dramAddr p c)
          = Memory.read fb (k.toNat * 512 + p.toNat * 64 + c.toNat) := by
  have home (pl : Plane) : planeFold e k
      [commandTo e false (.setPage 0), commandTo e true (.setPage 0)] pl
        = { pl with page := 0 } := by
    cases k
    · rw [planeFold_commandTo he, planeFold_cons]
      simp [commandTo, Plane.exec, Plane.setPage]
    · rw [planeFold_cons, planeFold_commandTo he]
      simp [commandTo, Plane.exec, Plane.setPage]
  obtain ⟨m, pg, h1, h2, h3⟩ := planeFold_planeQuads he fb k hw
  refine ⟨m, ?_, h2, h3⟩
  cases k with
  | false =>
    rw [fullTxQuads, planeFold_append, planeFold_append, h1,
      planeFold_planeQuads_other e fb (by decide : false ≠ true), home]
  | true =>
    rw [fullTxQuads, planeFold_append, planeFold_append,
      planeFold_planeQuads_other e fb (by decide : true ≠ false), h1, home]

/-! ## BYTE_TX and the pointers -/

/-- What BYTE_TX does to the plane of its address. -/
theorem planeFold_byteTxQuads {e : DevEnc} (he : e.wf = true) (fb : Memory) (a : BitVec 10)
    (pl : Plane) :
    planeFold e (addrPlane a) (byteTxQuads e fb a) pl
      = Plane.writeData (Memory.read fb a.toNat)
          { pl with page := addrPage a, col := addrColumn a } := by
  rw [byteTxQuads, planeFold_commandTo he, planeFold_commandTo he, planeFold_dataTo]
  rfl

/-- BYTE_TX leaves the other plane alone. -/
theorem planeFold_byteTxQuads_other (e : DevEnc) (fb : Memory) (a : BitVec 10) {k : Bool}
    (h : k ≠ addrPlane a) (pl : Plane) : planeFold e k (byteTxQuads e fb a) pl = pl := by
  refine planeFold_other (fun q hq => ?_) pl
  have hk : (addrPlane a == k) = false := by simpa using Ne.symm h
  simp only [byteTxQuads, List.mem_cons, List.not_mem_nil, or_false] at hq
  rcases hq with rfl | rfl | rfl <;> simpa [commandTo] using hk

/-- The pointers of both planes are set to 0. -/
theorem planeFold_zeroPointerQuads {e : DevEnc} (he : e.wf = true) (k : Bool) (pl : Plane) :
    planeFold e k (zeroPointerQuads e) pl = { pl with start := 0, page := 0, col := 0 } := by
  have skip (c : DevCmd) (k' : Bool) (h : (k' == k) = false) (qs : List Quad) (pl : Plane) :
      planeFold e k (commandTo e k' c :: qs) pl = planeFold e k qs pl := by
    rw [planeFold_cons]; simp [commandTo, h]
  simp only [zeroPointerQuads, List.flatMap_cons, List.flatMap_nil, List.append_nil,
    List.cons_append, List.nil_append]
  cases k
  · simp only [planeFold_commandTo he, skip _ true rfl]; rfl
  · simp only [skip _ false rfl, planeFold_commandTo he]; rfl

/-! ## What is sent, read back from TRACE -/

/-- The quads of events that are all quads. -/
theorem filterMap_quad (qs : List Quad) :
    (qs.map TraceEvent.quad).filterMap TraceEvent.quad? = qs := by
  induction qs with
  | nil => rfl
  | cons q qs ih => simp [TraceEvent.quad?, ih]

/-- Every quad of INIT_EXTRA selects exactly one plane (R142). -/
theorem initExtraQuads_onePlane {c : Config} {q : Quad} (h : q ∈ initExtraQuads c) :
    q.cs0 ≠ q.cs1 := by
  simp only [initExtraQuads, List.mem_map] at h
  obtain ⟨x, -, rfl⟩ := h
  simp [quadTo]

end Sys2Proof.Machine
end

