-- ==== Sys2Proof/Tests/Slice0.lean ====
section
/-! SUPPORT. The model's own tests: the checks refuse ill-formed terms; words and quads written out
from the spec's encodings decode as it says; one small step for each instruction, with the results of
95_test_vectors.md or worked by hand from the rules; and a witness for each statement's hypotheses. -/

namespace Sys2Proof.Tests

open Sys2Proof.Machine

/-! ## Helpers -/

def stateOf : Outcome → Option State
  | .next s => some s
  | _ => none

/-- An initialised block of the default instance but for DRAW_MODE. -/
def sample (mode : DrawMode) (inv dirty : Bool) (depth : BitVec 16) (fb : Memory) : State :=
  { State.reset with
    cfg := { defaultConfig with drawMode := mode }
    initDone := true, inv := inv, dirty := dirty, depth := depth, fb := fb }

/-- The bytes of a quad list, with the mode and the plane. -/
def shape (qs : List Quad) : List (Bool × Bool × Bool × Byte) :=
  qs.map fun q => (q.cs0, q.cs1, decide (q.mode = .data), q.byte)

def sentBy (o : Outcome) : Option (List (Bool × Bool × Bool × Byte)) :=
  (stateOf o).map fun t => shape (t.trace.filterMap TraceEvent.quad?)

/-! ## WellFormed: each check refuses an ill-formed term -/

theorem test_wf_illegalOp0 : Instr.wf (.illegalOp0 0x10000000) = false := by decide
theorem test_wf_illegalOpB : Instr.wf (.illegalOpB 0xC0000000) = false := by decide
theorem test_wf_illegalOpC : Instr.wf (.illegalOpC 0xB0000000) = false := by decide
theorem test_wf_illegalOpD : Instr.wf (.illegalOpD 0x0D000000) = false := by decide
theorem test_wf_illegalOpE : Instr.wf (.illegalOpE 0xF0000000) = false := by decide
theorem test_wf_illegalOpF : Instr.wf (.illegalOpF 0xE0000000) = false := by decide
theorem test_wf_illegalOpF_ok : Instr.wf (.illegalOpF 0xFFFFFFFF) = true := by decide
theorem test_valid_depthBits_zero :
    Config.valid { defaultConfig with depthBits := 0 } = false := by decide
theorem test_valid_depthBits_over :
    Config.valid { defaultConfig with depthBits := 17 } = false := by decide
theorem test_valid_serMap_twice :
    Config.valid { defaultConfig with txMode := .serial, serMap := .e :: defaultConfig.serMap }
      = false := by decide
theorem test_valid_serMap_unused :
    Config.valid { defaultConfig with
      txMode := .serial, serMap := .unused :: defaultConfig.serMap } = true := by decide
theorem test_devEnc_short : DevEnc.wf { DevEnc.default with pageBytes := [] } = false := by decide
theorem test_devEnc_same :
    DevEnc.wf { DevEnc.default with displayBytes := [0x3E, 0x3E] } = false := by decide +kernel

/-! ## Decode: words and quads written out bit by bit from R71, R73 and R161 -/

theorem test_decode_init :
    decodeTableWord 32 0b00010000000000000000000000000000 = some .init := by decide
theorem test_decode_reset :
    decodeTableWord 32 0b00100000000000000000000000000000 = some .reset := by decide
theorem test_decode_setPixel :
    decodeTableWord 32 0b00110000000000010110010000100101 = some (.setPixel true 100 37) := by decide
theorem test_decode_clear :
    decodeTableWord 32 0b01000000000000000000000000000000 = some .clear := by decide
theorem test_decode_fill :
    decodeTableWord 32 0b01010000000000000000000000000000 = some .fill := by decide
theorem test_decode_setInverted :
    decodeTableWord 32 0b01100000000000010000000000000000 = some (.setInverted true) := by decide
theorem test_decode_getInverted :
    decodeTableWord 32 0b01110000000000000000000000000000 = some .getInverted := by decide
theorem test_decode_flush :
    decodeTableWord 32 0b10000000000000000000000000000000 = some .flush := by decide
theorem test_decode_enterBatch :
    decodeTableWord 32 0b10010000000000000000000000000000 = some .enterBatch := by decide
theorem test_decode_leaveBatch :
    decodeTableWord 32 0b10100000000000000000000000000000 = some .leaveBatch := by decide
theorem test_decode_illegal0 : decodeTableWord 32 0 = some (.illegalOp0 0) := by decide
theorem test_decode_illegalB :
    decodeTableWord 32 0xB0000001 = some (.illegalOpB 0xB0000001) := by decide
theorem test_decode_illegalC :
    decodeTableWord 32 0xC0000000 = some (.illegalOpC 0xC0000000) := by decide
theorem test_decode_illegalD :
    decodeTableWord 32 0xD0000000 = some (.illegalOpD 0xD0000000) := by decide
theorem test_decode_illegalE :
    decodeTableWord 32 0xE0000000 = some (.illegalOpE 0xE0000000) := by decide
theorem test_decode_illegalF :
    decodeTableWord 32 0xF0000000 = some (.illegalOpF 0xF0000000) := by decide
theorem test_decode_reserved_bit17 : decodeTableWord 32 0x30020000 = none := by decide
theorem test_decode_reserved_y : decodeTableWord 32 0x60010001 = none := by decide
theorem test_decode_devSetColumn :
    decodeTableWord 16 0b0_01_111110 = some (.devSetColumn false false 62) := by decide
theorem test_decode_devSetPage :
    decodeTableWord 16 0b0_10111_011 = some (.devSetPage false false 3) := by decide
theorem test_decode_devSetStartLine :
    decodeTableWord 16 0b0_11_000101 = some (.devSetStartLine false false 5) := by decide
theorem test_decode_devWriteData :
    decodeTableWord 16 0b1_00010001 = some (.devWriteData false false 0x11) := by decide
theorem test_decode_devDisplayOn :
    decodeTableWord 16 0b0_0011111_1 = some (.devDisplayOnOff false false true) := by decide
theorem test_decode_deviceDefined : decodeTableWord 16 0b0_00000000 = none := by decide
theorem test_decode_selects :
    decode DevEnc.default (.quad ⟨false, true, .cmd, 0b11000000⟩)
      = .ok (.devSetStartLine false true 0) := by decide

/-! ## The assembler (R78; the words are those of 95_test_vectors.md section 3) -/

theorem test_assemble_setPixel :
    assembleLine "SET_PIXEL 5, 0x0A, 1 ; P2".toList = .word 0x3001050A := by decide +kernel
theorem test_assemble_leaveBatch :
    assembleLine "LEAVE_BATCH".toList = .word 0xA0000000 := by decide +kernel
theorem test_assemble_malformed : assembleLine "CLEAR 1".toList = .malformed := by decide +kernel

/-! ## The address mapping (95_test_vectors.md section 2.2) -/

theorem test_addr_100_37 : (pixelAddr 100 37, pixelBit 37) = (804, 5) := by decide
theorem test_addr_127_63 : (pixelAddr 127 63, pixelBit 63) = (1023, 7) := by decide
theorem test_addr_64_8 : (pixelAddr 64 8, pixelBit 8) = (576, 0) := by decide
theorem test_addr_inverse : (addrX 804, addrY 804 5) = (100, 37) := by decide

/-! ## One step for each instruction -/

/-- R100: INIT from power-on, one command counted. -/
theorem test_init :
    (stateOf (step (State.reset.withFetchWord 32 0x10000000))).map
      (fun t => (t.initDone, t.cmdCount, t.fault)) = some (true, 1, .none) := by decide
/-- 95_test_vectors.md section 2.9: 1056 quads with ZERO_CMDS. -/
theorem test_init_count :
    (stateOf (exec .init State.reset)).map (fun t => t.trace.length) = some 1056 := by
  decide +kernel
/-- R33: the pins are at IDLE_LEVELS once INIT has completed, whatever its last quad left on them. -/
theorem test_init_idles :
    (stateOf (exec .init { State.reset with cfg := { defaultConfig with
      idleLevels := ⟨⟨true, true, true, 0xA5, false⟩, wiresLow, true⟩ } })).map
      (fun t => t.port.lines) = some ⟨true, true, true, 0xA5, false⟩ := by decide
/-- R142: an element of INIT_EXTRA for plane 1 is sent as (0, 1, Cmd, byte). -/
theorem test_init_extra :
    (stateOf (exec .init { State.reset with cfg := { defaultConfig with
      initExtra := [⟨true, 0x3F⟩] } })).map (fun t => t.trace[6]?)
        = some (some (.quad ⟨false, true, .cmd, 0x3F⟩)) := by decide
/-- R101, D21: RESET inside a batch sends, and leaves DEPTH. -/
theorem test_reset_in_batch :
    (stateOf (exec .reset (sample .immediate true false 2 []))).map
      (fun t => (t.inv, t.depth, t.trace.length)) = some (false, 2, 1050) := by decide +kernel
/-- 95_test_vectors.md section 2.3, plane 1 corner: the quads and the column wrap. -/
theorem test_setPixel_sends :
    sentBy (exec (.setPixel true 127 63) (sample .immediate false false 0 [])) = some
      [(false, true, false, 0xBF), (false, true, false, 0x7F), (false, true, true, 0x80)] := by
  decide +kernel
/-- 95_test_vectors.md section 1.1: INV = 1, SET_PIXEL 5, 10, 0 sets the stored bit. -/
theorem test_setPixel_inverted :
    (stateOf (exec (.setPixel false 5 10) (sample .buffered true false 0 []))).map
      (fun t => (t.fb, t.dirty, t.trace.length)) = some ([(69, 0x04)], true, 0) := by decide +kernel
/-- 95_test_vectors.md section 2.4: CLEAR with INV = 1 in Buffered mode stores 0xFF. -/
theorem test_clear :
    (stateOf (exec .clear (sample .buffered true false 0 []))).map
      (fun t => (fbByte t 1023, t.dirty, t.trace.length)) = some (0xFF, true, 0) := by
  decide +kernel
/-- 95_test_vectors.md section 2.4: FILL with INV = 1 at DEPTH = 3 sends anyway. -/
theorem test_fill_in_batch :
    (stateOf (exec .fill (sample .immediate true false 3 [(7, 0xFF)]))).map
      (fun t => (t.fb, t.depth, t.trace.length)) = some ([], 3, 1044) := by decide +kernel
/-- 95_test_vectors.md section 1.2: SET_INVERTED 1 complements every byte. -/
theorem test_setInverted :
    (stateOf (exec (.setInverted true) (sample .buffered false false 0 [(69, 0x04)]))).map
      (fun t => (fbByte t 69, fbByte t 70, t.inv, t.dirty)) = some (0xFB, 0xFF, true, true) := by
  decide +kernel
/-- R120: no change, DIRTY not set. -/
theorem test_setInverted_same :
    (stateOf (exec (.setInverted true) (sample .buffered true false 0 []))).map
      (fun t => (t.fb, t.dirty, t.cmdCount)) = some ([], false, 1) := by decide
/-- R121. -/
theorem test_getInverted :
    (stateOf (exec .getInverted (sample .buffered true false 0 []))).map
      (fun t => (t.resp, hostReadResp t, t.dirty)) = some (1, 1, false) := by decide
/-- 95_test_vectors.md section 2.6. -/
theorem test_flush_dirty :
    (stateOf (exec .flush (sample .buffered false true 0 []))).map
      (fun t => (t.dirty, t.trace.length)) = some (false, 1044) := by decide +kernel
theorem test_flush_clean :
    (stateOf (exec .flush (sample .buffered false false 0 []))).map
      (fun t => (t.dirty, t.trace.length)) = some (false, 0) := by decide
/-- 95_test_vectors.md section 2.7. -/
theorem test_enterBatch :
    (stateOf (exec .enterBatch (sample .immediate false false 254 []))).map
      (fun t => (t.depth, t.fault, t.trace.length)) = some (255, .none, 0) := by decide
theorem test_enterBatch_overflow :
    (stateOf (exec .enterBatch (sample .immediate false false 255 []))).map
      (fun t => (t.depth, t.fault.code, t.faultWord, t.cmdCount))
        = some (255, 7, 0x90000000, 0) := by decide
theorem test_leaveBatch_outermost :
    (stateOf (exec .leaveBatch (sample .immediate false false 1 []))).map
      (fun t => (t.depth, t.trace.length)) = some (0, 1044) := by decide +kernel
theorem test_leaveBatch_underflow :
    (stateOf (exec .leaveBatch (sample .immediate false false 0 []))).map
      (fun t => (t.fault.code, t.trace.length)) = some (6, 0) := by decide
/-- 95_test_vectors.md section 2.1: RESERVED_FIELD comes before MODE_UNAVAILABLE and NOT_INITIALIZED. -/
theorem test_priority :
    (stateOf (step (State.withFetchWord { sample .immediate false false 0 [] with initDone := false }
      32 0x80000001))).map (fun t => (t.fault.code, t.faultWord)) = some (2, 0x80000001) := by decide
/-- P5 of 95_test_vectors.md: a command before INIT. -/
theorem test_before_init :
    (stateOf (step (State.reset.withFetchWord 32 0x30010000))).map
      (fun t => (t.fault.code, t.faultIndex, t.faultWord, t.cmdCount))
        = some (4, 0, 0x30010000, 0) := by decide
theorem test_illegal :
    (stateOf (step (State.reset.withFetchWord 32 0))).map (fun t => (t.fault.code, t.faultWord))
      = some (1, 0) := by decide
/-- 95_test_vectors.md section 2.8: data from (page 3, column 62), with the wrap. -/
theorem test_device_wrap :
    (stateOf (exec (.devWriteData true false 0x33) { State.reset with
      dev := { State.reset.dev with plane0 := { Plane.powerOn with page := 3, col := 63 } } })).map
      (fun t => (t.dev.plane0.col, t.dev.plane0.page, dramByte t false 3 63, t.dev.plane1.dram))
        = some (0, 3, 0x33, []) := by decide
/-- 95_test_vectors.md section 2.8: (0, 0) selects no plane. -/
theorem test_device_unselected :
    (stateOf (exec (.devWriteData false false 0xFF) State.reset)).map (fun t => t.dev)
      = some State.reset.dev := by decide
theorem test_device_registers :
    (stateOf (exec (.devSetStartLine false true 5) State.reset)).map
      (fun t => (t.dev.plane0.start, t.dev.plane1.start)) = some (0, 5) := by decide
/-- R144, R145: RS low for a command, E low afterwards, levels inverted when active low. -/
theorem test_pins_parallel :
    let p := driveQuad { defaultConfig with csActiveHigh := false } State.reset.port
      ⟨true, false, .cmd, 0x41⟩
    (p.lines.cs0, p.lines.cs1, p.lines.rs, p.lines.d, p.lines.e)
      = (false, true, false, 0x41, false) := by decide
/-- R149: the serial transmitter shows the same lines, either bit first. -/
theorem test_pins_serial :
    ∀ o : Bool, (driveQuad { defaultConfig with
      txMode := .serial, serOrder := if o then .msbFirst else .lsbFirst } State.reset.port
      ⟨true, false, .data, 0x41⟩).lines = ⟨true, false, true, 0x41, false⟩ := by decide +kernel

/-! ## Witnesses: every statement's hypotheses are met -/

theorem devEncDefault_wf : DevEnc.default.wf = true := by decide +kernel

theorem wellFormed_reset : WellFormed State.reset :=
  ⟨by decide, by decide, by decide, by decide, by decide, by decide, by decide, by decide, by decide,
    nofun⟩

theorem wellFormed_buffered (dirty : Bool) : WellFormed (sample .buffered false dirty 0 []) := by
  exact ⟨rfl, rfl, rfl, rfl, nofun, fun _ => rfl, Nat.two_pow_pos 8, nofun, nofun, nofun⟩

theorem wellFormed_inverted : WellFormed (sample .buffered true false 0 []) :=
  ⟨by decide, by decide, by decide, by decide, nofun, fun _ => rfl, by decide, nofun, nofun, nofun⟩

theorem wellFormed_immediate (d : Fin 256) :
    WellFormed (sample .immediate false false (BitVec.ofNat 16 d) [(1023, 0x80)]) := by
  refine ⟨rfl, rfl, rfl, rfl, fun _ => rfl, nofun, ?_, nofun, nofun, nofun⟩
  show (BitVec.ofNat 16 d.val).toNat < 2 ^ 8
  rw [BitVec.toNat_ofNat]; omega

theorem witness_DecodeOfEncodeIsTheInstruction :
    DevEnc.default.wf = true ∧ Instr.wf (.setPixel true 127 63) = true
      ∧ Instr.wf (.illegalOpF 0xFFFFFFFF) = true := ⟨devEncDefault_wf, rfl, rfl⟩
theorem witness_EncodeOfDecodeIsTheWord :
    decodeWord 0x3001FFFF = .ok (.setPixel true 255 255) ∧ DevEnc.default.wf = true
      ∧ decodeQuad DevEnc.default ⟨true, false, .cmd, 0xBF⟩ = .ok (.devSetPage true false 7) :=
  ⟨by decide, devEncDefault_wf, by decide⟩
theorem witness_AssembledLinesAreLegalCommands :
    assembleLine "SET_PIXEL 255, 0xff, 0".toList = .word 0x3000FFFF ∧
      "255".toList = Nat.toDigits 10 (255#8).toNat ∧
      "0xff".toList = '0' :: 'x' :: Nat.toDigits 16 (255#8).toNat ∧
      "0".toList = Nat.toDigits 10 (0#8).toNat := by decide +kernel
theorem witness_PixelMappingIsABijection :
    (127#8).toNat < 128 ∧ (63#8).toNat < 64 := by decide
theorem witness_StepRunsTheDecodedInstruction :
    let s := State.reset.withFetchWord 32 0x10000000
    s.cfg.valid = true ∧ s.inbox = .command 0x10000000 :: [] ∧
      decode s.cfg.devEnc (.command 0x10000000) = .ok .init := by decide
theorem witness_StepRunsTheDecodedInstruction_rejects :
    let s := { State.reset with inbox := [.command 0x40010000] }
    let u := { State.reset with inbox := [.quad ⟨true, false, .cmd, 0x00⟩] }
    s.cfg.valid = true ∧ decodeWord 0x40010000 = .error .reservedField ∧ s.fault = .none ∧
      u.cfg.valid = true ∧
      decodeQuad u.cfg.devEnc ⟨true, false, .cmd, 0x00⟩ = .error .deviceDefined ∧
      State.reset.inbox = [] ∧ Config.valid { defaultConfig with depthBits := 0 } = false := by decide
theorem witness_MustBeZeroBitsRaiseReservedField :
    let s := { State.reset with inbox := [.command 0x30020000] }
    s.cfg.valid = true ∧ s.fault = .none ∧ ((0xFFFE0000, 0x30000000) : Word × Word) ∈ commandRows ∧
      opcode 0x30020000 = opcode 0x30000000 ∧ (0x30020000#32 &&& 0xFFFE0000#32) ≠ 0x30000000 := by
  decide
theorem witness_IllegalOpcodesRaiseIllegalOpcode : State.reset.fault = .none := rfl
/-- One word for each case of the chain: an illegal, a reserved, a mode, a second INIT, an early
command, an underflow, an overflow, and a command that completes. -/
theorem witness_FirstApplicableFaultIsReported :
    let imm := sample .immediate false false 0 []
    let full := sample .immediate false false 255 []
    (State.reset.cfg.valid = true ∧ State.reset.fault = .none) ∧
    (imm.cfg.valid = true ∧ imm.fault = .none ∧ imm.depth = 0 ∧ imm.initDone = true) ∧
    (full.cfg.valid = true ∧ full.fault = .none ∧ full.depth.toNat = 2 ^ full.cfg.depthBits - 1) ∧
    (0xB ≤ (opcode 0xFFFFFFFF).toNat ∧ opcode 0xA0000000 = 0xA#4 ∧ opcode 0x90000000 = 0x9#4 ∧
      opcode 0x80000000 = 0x8#4 ∧ opcode 0x10000000 = 0x1#4) := by decide
theorem witness_FaultsArePreciseAndFinal :
    State.reset.fault = .none ∧
    (stateOf (step { State.reset with inbox := [.command 0xA0000000] })).map (fun t => t.fault)
      = some .modeUnavailable := by decide
theorem witness_FaultedBlockAcceptsNoCommand :
    let s := { State.reset with fault := .reinit, inbox := [.quad ⟨true, false, .data, 0x55⟩] }
    s.fault ≠ .none ∧ isCommand .clear = true ∧ s.cfg.valid = true ∧
      (stateOf (step s)).isSome = true := by decide
theorem witness_CompletedCommandsAreCounted :
    (stateOf (step { sample .buffered false false 0 [] with inbox := [.command 0x80000000] })).map
      (fun t => (t.fault, t.cmdCount)) = some (.none, 1) := by decide
theorem witness_OnlyInitRunsAfterPowerOn :
    PowerOn State.reset ∧ isCommand .flush = true ∧ Instr.flush ≠ .init :=
  ⟨⟨rfl, rfl, rfl, rfl, rfl, rfl, nofun⟩, rfl, nofun⟩
theorem witness_InitFollowsItsRule :
    WellFormed State.reset ∧ State.reset.cfg.devEnc.wf = true ∧ State.reset.fault = .none ∧
      State.reset.initDone = false ∧ WellFormed (sample .buffered false true 0 []) ∧
      (sample .buffered false true 0 []).initDone = true :=
  ⟨wellFormed_reset, devEncDefault_wf, rfl, rfl, wellFormed_buffered true, rfl⟩
theorem witness_InitFollowsItsRule_serial :
    let s := { State.reset with
      cfg := { defaultConfig with txMode := .serial, initAddrMethod := .hwReset } }
    WellFormed s ∧ s.fault = .none ∧ s.initDone = false ∧ s.cfg.txMode = .serial ∧
      s.cfg.initAddrMethod = .hwReset :=
  ⟨⟨by decide, by decide, by decide, by decide, by decide, by decide, by decide, by decide,
    by decide, nofun⟩, rfl, rfl, rfl, rfl⟩
theorem witness_ResetFollowsItsRule :
    WellFormed (sample .buffered false true 0 [])
      ∧ (sample .buffered false true 0 []).cfg.devEnc.wf = true
      ∧ Ready (sample .buffered false true 0 []) :=
  ⟨wellFormed_buffered true, devEncDefault_wf, rfl, rfl⟩
/-- The corners of the plane inside and outside it, in each mode, outside and inside a batch. -/
theorem witness_SetPixelFollowsItsRule :
    let imm (d : Fin 256) := sample .immediate false false (BitVec.ofNat 16 d) [(1023, 0x80)]
    (WellFormed (imm 0) ∧ (imm 0).cfg.devEnc.wf = true ∧ Ready (imm 0) ∧ (imm 0).depth = 0) ∧
    (WellFormed (imm 255) ∧ Ready (imm 255) ∧ (imm 255).depth ≠ 0) ∧
    (WellFormed (sample .buffered false false 0 []) ∧ Ready (sample .buffered false false 0 [])) ∧
    128 ≤ (128#8).toNat ∧ 64 ≤ (64#8).toNat ∧ (127#8).toNat < 128 ∧ (63#8).toNat < 64 :=
  ⟨⟨wellFormed_immediate 0, devEncDefault_wf, ⟨rfl, rfl⟩, rfl⟩,
    ⟨wellFormed_immediate 255, ⟨rfl, rfl⟩, by decide⟩, ⟨wellFormed_buffered false, rfl, rfl⟩,
    by decide, by decide, by decide, by decide⟩
theorem witness_SetPixelThenReadBackGivesTheValue :
    WellFormed (sample .buffered true false 0 []) ∧ Ready (sample .buffered true false 0 []) ∧
      (127#8).toNat < 128 ∧ (63#8).toNat < 64 ∧ ((126#8, 63#8) ≠ (127#8, 63#8)) :=
  ⟨wellFormed_inverted, ⟨rfl, rfl⟩, by decide, by decide, by decide⟩
theorem witness_ClearFollowsItsRule :
    WellFormed (sample .buffered true false 0 [])
      ∧ (sample .buffered true false 0 []).cfg.devEnc.wf = true
      ∧ Ready (sample .buffered true false 0 []) ∧
    WellFormed (sample .immediate false false 3 [(1023, 0x80)])
      ∧ (sample .immediate false false 3 [(1023, 0x80)]).cfg.devEnc.wf = true
      ∧ Ready (sample .immediate false false 3 [(1023, 0x80)]) :=
  ⟨wellFormed_inverted, devEncDefault_wf, ⟨rfl, rfl⟩, wellFormed_immediate 3, devEncDefault_wf,
    rfl, rfl⟩
theorem witness_FillFollowsItsRule :
    WellFormed (sample .buffered true false 0 [])
      ∧ (sample .buffered true false 0 []).cfg.devEnc.wf = true
      ∧ Ready (sample .buffered true false 0 []) ∧
    WellFormed (sample .immediate false false 3 [(1023, 0x80)])
      ∧ Ready (sample .immediate false false 3 [(1023, 0x80)]) :=
  ⟨wellFormed_inverted, devEncDefault_wf, ⟨rfl, rfl⟩, wellFormed_immediate 3, rfl, rfl⟩
theorem witness_SetInvertedFollowsItsRule :
    WellFormed (sample .buffered true false 0 [])
      ∧ (sample .buffered true false 0 []).cfg.devEnc.wf = true
      ∧ Ready (sample .buffered true false 0 []) ∧ true = (sample .buffered true false 0 []).inv
      ∧ false ≠ (sample .buffered true false 0 []).inv ∧
    WellFormed (sample .immediate false false 0 [(1023, 0x80)])
      ∧ Ready (sample .immediate false false 0 [(1023, 0x80)])
      ∧ true ≠ (sample .immediate false false 0 [(1023, 0x80)]).inv :=
  ⟨wellFormed_inverted, devEncDefault_wf, ⟨rfl, rfl⟩, rfl, by decide, wellFormed_immediate 0,
    ⟨rfl, rfl⟩, by decide⟩
theorem witness_InversionRoundTripRestoresTheBuffer :
    WellFormed (sample .buffered false true 0 []) ∧ Ready (sample .buffered false true 0 []) ∧
      (sample .buffered false true 0 []).inv = false := ⟨wellFormed_buffered true, ⟨rfl, rfl⟩, rfl⟩
theorem witness_GetInvertedFollowsItsRule : Ready (sample .buffered true false 0 []) := ⟨rfl, rfl⟩
theorem witness_OnlyGetInvertedResponds :
    (stateOf (exec .enterBatch (sample .immediate false false 0 []))).isSome = true ∧
      Instr.enterBatch ≠ .getInverted ∧ Ready (sample .buffered true false 0 []) :=
  ⟨by decide, nofun, rfl, rfl⟩
theorem witness_FlushFollowsItsRule :
    (sample .immediate false false 0 []).fault = .none ∧
    (State.reset.cfg.drawMode = .buffered ∧ State.reset.initDone = false) ∧
    ((sample .buffered false false 0 []).initDone = true
      ∧ (sample .buffered false false 0 []).dirty = false) ∧
    ((sample .buffered false true 0 []).initDone = true
      ∧ (sample .buffered false true 0 []).dirty = true) := by decide
theorem wellFormed_uninitialised :
    WellFormed { State.reset with cfg := { defaultConfig with drawMode := .immediate } } :=
  ⟨by decide, by decide, by decide, by decide, by decide, nofun, by decide, by decide, by decide,
    nofun⟩
theorem witness_EnterBatchFollowsItsRule :
    let s (d : Fin 256) := sample .immediate false false (BitVec.ofNat 16 d) [(1023, 0x80)]
    (WellFormed (s 255) ∧ (s 255).depth.toNat = 2 ^ (s 255).cfg.depthBits - 1) ∧
    (WellFormed (s 254) ∧ (s 254).depth.toNat ≠ 2 ^ (s 254).cfg.depthBits - 1) ∧
    WellFormed (sample .buffered false false 0 []) ∧
    WellFormed { State.reset with cfg := { defaultConfig with drawMode := .immediate } } :=
  ⟨⟨wellFormed_immediate 255, by decide⟩, ⟨wellFormed_immediate 254, by decide⟩,
    wellFormed_buffered false, wellFormed_uninitialised⟩
theorem witness_LeaveBatchFollowsItsRule :
    let s (d : Fin 256) := sample .immediate false false (BitVec.ofNat 16 d) [(1023, 0x80)]
    (WellFormed (s 0) ∧ (s 0).depth = 0) ∧ (WellFormed (s 1) ∧ (s 1).depth.toNat = 1) ∧
    (WellFormed (s 2) ∧ 1 < (s 2).depth.toNat) ∧
    WellFormed (sample .buffered false false 0 []) ∧
    WellFormed { State.reset with cfg := { defaultConfig with drawMode := .immediate } } :=
  ⟨⟨wellFormed_immediate 0, by decide⟩, ⟨wellFormed_immediate 1, by decide⟩,
    ⟨wellFormed_immediate 2, by decide⟩, wellFormed_buffered false, wellFormed_uninitialised⟩

/-- A buffered block that is dirty is consistent whatever it shows. -/
theorem consistent_dirty : Consistent (sample .buffered false true 0 []) :=
  fun _ => ⟨nofun, nofun⟩
/-- Inside a batch a block is consistent whatever it shows. -/
theorem consistent_batch : Consistent (sample .immediate false false 1 [(1023, 0x80)]) :=
  fun _ => ⟨fun _ h => absurd h (by decide), nofun⟩
theorem witness_FlushAndOutermostLeaveSynchronise :
    (WellFormed (sample .buffered false true 0 [])
      ∧ (sample .buffered false true 0 []).cfg.devEnc.wf = true
      ∧ Consistent (sample .buffered false true 0 []) ∧ Ready (sample .buffered false true 0 [])) ∧
    (WellFormed (sample .immediate false false 1 [(1023, 0x80)])
      ∧ Consistent (sample .immediate false false 1 [(1023, 0x80)])
      ∧ (sample .immediate false false 1 [(1023, 0x80)]).depth.toNat = 1) ∧
    ((stateOf (exec .clear (sample .immediate false false 0 []))).map (fun t => t.depth) = some 0) :=
  ⟨⟨wellFormed_buffered true, devEncDefault_wf, consistent_dirty, rfl, rfl⟩,
    ⟨wellFormed_immediate 1, consistent_batch, by decide⟩, by decide⟩
theorem witness_FullTxMakesTheDisplayEqualTheBuffer :
    Memory.wf dramSize State.reset.dev.plane0.dram = true ∧
      Memory.wf dramSize State.reset.dev.plane1.dram = true ∧ State.reset.cfg.devEnc.wf = true :=
  ⟨rfl, rfl, devEncDefault_wf⟩
theorem witness_ByteTxWritesExactlyItsByte :
    Memory.wf dramSize [(511, 0x80)] = true ∧ State.reset.cfg.devEnc.wf = true :=
  ⟨by decide, devEncDefault_wf⟩
theorem witness_QuadCountsAreAsGiven :
    (stateOf (exec .init { State.reset with
      cfg := { defaultConfig with
        initAddrMethod := .hwReset, initExtra := [⟨false, 0x3F⟩] } })).map
      (fun t => t.fault) = some .none ∧
    (stateOf (exec .init State.reset)).map (fun t => t.fault) = some .none ∧
    (stateOf (exec .reset (sample .immediate false false 0 []))).map (fun t => t.fault)
      = some .none := by decide
theorem witness_TraceOnlyGrowsByOnePlaneQuads :
    (stateOf (exec (.setPixel true 0 0) (sample .immediate false false 0 []))).isSome = true ∧
      isCommand (.devSetPage true false 0) = false := by decide
theorem witness_BothTransmittersPresentTheQuadOnce :
    let p := State.reset.port
    let c := { defaultConfig with txMode := .serial }
    p.lines.e = false ∧ p.wires.sclk = false ∧ p.wires.slatch = false ∧
      c.serMapValid = true ∧ c.serStrobe = [false, true, false] := by decide
theorem witness_SerialFramesShowTheQuad :
    let p := State.reset.port
    let c := { defaultConfig with txMode := .serial, serStrobe := [true, false, true, false] }
    c.txMode = .serial ∧ c.serMapValid = true ∧ p.wires.sclk = false ∧ p.wires.slatch = false ∧
      c.serStrobe ≠ [] := by decide
theorem witness_SentQuadsAreDrivenAndAppliedInOrder :
    (stateOf (exec (.setPixel true 0 0) (sample .immediate false false 0 []))).isSome = true ∧
      isCommand (.setPixel true 0 0) = true ∧ Instr.setPixel true 0 0 ≠ .init := by decide
theorem witness_DataByteLandsAtThePointers :
    Memory.wf dramSize State.reset.dev.plane0.dram = true ∧
      Memory.wf dramSize State.reset.dev.plane1.dram = true := by decide
theorem witness_ForeignQuadsActAsSentOnes :
    let s := { State.reset with inbox := [.quad ⟨true, true, .cmd, 0x00⟩] }
    s.cfg.valid = true ∧ s.inbox = .quad ⟨true, true, .cmd, 0x00⟩ :: [] := by decide
theorem sync_reset : Sync State.reset := by
  intro a
  cases ha : addrPlane a <;> simp [dramByte, Device.plane, State.reset, Plane.powerOn, fbByte, Memory.read]
theorem witness_ShownImageIsTheStoredBits :
    Sync State.reset ∧ ∀ k, (State.reset.dev.plane k).start = 0 := ⟨sync_reset, by decide⟩
theorem witness_ConfigViewHoldsEachField :
    Config.valid { defaultConfig with depthBits := 16 } = true ∧
      Config.valid { defaultConfig with depthBits := 1 } = true := by decide
theorem witness_OnlyTheNamedCommandsWriteTheBuffer :
    (stateOf (exec .fill (sample .buffered false false 0 []))).map (fun t => t.fb.isEmpty)
      = some false := by decide +kernel
theorem witness_EachFlagHasOnlyItsWriters :
    (stateOf (exec .enterBatch (sample .immediate false false 0 []))).map (fun t => t.depth)
      = some 1 ∧
    (stateOf (exec (.setInverted true) (sample .buffered false false 0 []))).map
      (fun t => (t.inv, t.dirty)) = some (true, true) ∧
    (stateOf (exec .init State.reset)).map (fun t => t.initDone) = some true := by decide
theorem witness_ConfigurationNeverChanges :
    (stateOf (step (State.reset.withFetchWord 32 0x10000000))).isSome = true := by decide
theorem witness_EveryStepKeepsTheStateWellFormed :
    WellFormed State.reset ∧ (stateOf (step State.reset)).isSome = true :=
  ⟨wellFormed_reset, by decide⟩
theorem witness_ConsistencyIsKeptByEveryStep :
    let s := sample .buffered false true 0 []
    WellFormed s ∧ s.cfg.devEnc.wf = true ∧ NoForeignQuad s ∧ Consistent s ∧
      (stateOf (step s)).isSome = true :=
  ⟨wellFormed_buffered true, devEncDefault_wf, nofun, consistent_dirty, by decide⟩
theorem witness_ConsistencyHoldsFromPowerOn :
    PowerOn State.reset ∧ WellFormed State.reset ∧ State.reset.cfg.devEnc.wf = true :=
  ⟨⟨rfl, rfl, rfl, rfl, rfl, rfl, nofun⟩, wellFormed_reset, devEncDefault_wf⟩
/-- Two power-on states that differ in what is unspecified, and in the address method. -/
theorem witness_InitForgetsWhatWasUnspecified :
    let s₂ := { State.reset with
      cfg := { defaultConfig with initAddrMethod := .hwReset }, inv := true, fb := [(3, 0x7F)] }
    WellFormed State.reset ∧ WellFormed s₂ ∧ PowerOn State.reset ∧ PowerOn s₂ ∧
      State.reset.cfg.devEnc.wf = true ∧ s₂.cfg.devEnc.wf = true :=
  ⟨wellFormed_reset,
    ⟨by decide, by decide, by decide, by decide, by decide, by decide, by decide, by decide,
      by decide, nofun⟩,
    ⟨rfl, rfl, rfl, rfl, rfl, rfl, nofun⟩, ⟨rfl, rfl, rfl, rfl, rfl, rfl, nofun⟩, devEncDefault_wf,
    devEncDefault_wf⟩
theorem witness_DrawingCommandsNeverFault :
    let s := sample .immediate true false 2 []
    s.cfg.valid = true ∧ Ready s ∧ ([.setPixel true 255 255, .reset] : List Instr).length = 2 :=
  ⟨by decide, ⟨rfl, rfl⟩, rfl⟩
theorem witness_NestedBatchesTransmitOnce :
    let s := sample .immediate false false 0 [(1023, 0x80)]
    WellFormed s ∧ Ready s ∧ s.cfg.drawMode = .immediate ∧ s.depth = 0 ∧
      0 < 255 ∧ 255 ≤ 2 ^ s.cfg.depthBits - 1 :=
  ⟨wellFormed_immediate 0, ⟨rfl, rfl⟩, rfl, rfl, by decide, by decide⟩

end Sys2Proof.Tests
end

/-! The packed views CONFIG and STATUS field by field (R27, R28). Both have one layout: three
flag bits, five reserved bits, and 24 bits of wider fields. -/

namespace Sys2Proof.Machine

/-! ## The layout the two views share -/

/-- A view of three flags at bits [2:0], reserved bits [7:3], and wider fields at bits [31:8]. -/
def packedView (wide : BitVec 24) (b2 b1 b0 : Bool) : Word :=
  wide ++ 0#5 ++ bit b2 ++ bit b1 ++ bit b0

/-- STATUS in the shared layout (R28). -/
theorem statusView_eq_packedView (s : State) :
    statusView s =
      packedView (0#4 ++ s.fault.code ++ readDepth s) (readDirty s) s.inv s.initDone := rfl

/-- CONFIG in the shared layout (R27). -/
theorem configView_eq_packedView (c : Config) :
    configView c =
      packedView (0#19 ++ BitVec.ofNat 5 c.depthBits) (decide (c.initAddrMethod = .hwReset))
        (decide (c.txMode = .serial)) (decide (c.drawMode = .immediate)) := rfl

section
variable {wide : BitVec 24} {b2 b1 b0 : Bool}

theorem getLsbD_packedView_zero : (packedView wide b2 b1 b0).getLsbD 0 = b0 := by
  unfold packedView
  rw [BitVec.getLsbD_append]
  simp [bit]

theorem getLsbD_packedView_one : (packedView wide b2 b1 b0).getLsbD 1 = b1 := by
  unfold packedView
  rw [BitVec.getLsbD_append, BitVec.getLsbD_append]
  simp [bit]

theorem getLsbD_packedView_two : (packedView wide b2 b1 b0).getLsbD 2 = b2 := by
  unfold packedView
  rw [BitVec.getLsbD_append, BitVec.getLsbD_append, BitVec.getLsbD_append]
  simp [bit]

/-- From bit 3 on, the flags are out of the way. -/
theorem extractLsb'_packedView_of_three_le {start : Nat} (h : 3 ≤ start) (len : Nat) :
    (packedView wide b2 b1 b0).extractLsb' start len =
      (wide ++ 0#5).extractLsb' (start - 3) len := by
  unfold packedView
  rw [BitVec.extractLsb'_append_eq_of_le (by omega), BitVec.extractLsb'_append_eq_of_le (by omega),
    BitVec.extractLsb'_append_eq_of_le (by omega)]
  rfl

theorem extractLsb'_packedView_reserved : (packedView wide b2 b1 b0).extractLsb' 3 5 = 0 := by
  rw [extractLsb'_packedView_of_three_le (by decide)]
  exact BitVec.extractLsb'_append_eq_right

/-- A field at or above bit 8 is the field of the wide part eight bits lower. -/
theorem extractLsb'_packedView_wide {start : Nat} (h : 8 ≤ start) (len : Nat) :
    (packedView wide b2 b1 b0).extractLsb' start len = wide.extractLsb' (start - 8) len := by
  rw [extractLsb'_packedView_of_three_le (by omega),
    BitVec.extractLsb'_append_eq_of_le (by omega), Nat.sub_sub]

end

/-! ## The fields of STATUS -/

theorem readDirty_eq_ite (s : State) :
    readDirty s = if s.cfg.drawMode = .buffered then s.dirty else false := by
  by_cases h : s.cfg.drawMode = .buffered <;> simp [readDirty, h]

theorem statusView_depth (s : State) : (statusView s).extractLsb' 8 16 = readDepth s := by
  rw [statusView_eq_packedView, extractLsb'_packedView_wide (by decide)]
  exact BitVec.extractLsb'_append_eq_right

theorem statusView_fault (s : State) : (statusView s).extractLsb' 24 4 = s.fault.code := by
  rw [statusView_eq_packedView, extractLsb'_packedView_wide (by decide),
    BitVec.extractLsb'_append_eq_of_le (by decide)]
  exact BitVec.extractLsb'_append_eq_right

theorem statusView_reservedHigh (s : State) : (statusView s).extractLsb' 28 4 = 0 := by
  rw [statusView_eq_packedView, extractLsb'_packedView_wide (by decide),
    BitVec.extractLsb'_append_eq_of_le (by decide)]
  exact BitVec.extractLsb'_append_eq_left

/-! ## The fields of CONFIG -/

/-- A valid configuration's DEPTH_BITS is 1 to 16 (R211). -/
theorem depthBits_bounds_of_valid {c : Config} (h : c.valid = true) :
    1 ≤ c.depthBits ∧ c.depthBits ≤ 16 := by
  simp only [Config.valid, Bool.and_eq_true, decide_eq_true_eq] at h
  exact h.1

theorem configView_depthBits (c : Config) :
    (configView c).extractLsb' 8 5 = BitVec.ofNat 5 c.depthBits := by
  rw [configView_eq_packedView, extractLsb'_packedView_wide (by decide)]
  exact BitVec.extractLsb'_append_eq_right

/-- DEPTH_BITS up to 16 fits the five bits of its field. -/
theorem configView_depthBits_toNat {c : Config} (h : c.valid = true) :
    ((configView c).extractLsb' 8 5).toNat = c.depthBits := by
  have hle : c.depthBits ≤ 16 := (depthBits_bounds_of_valid h).2
  rw [configView_depthBits, BitVec.toNat_ofNat, Nat.mod_eq_of_lt (by omega)]

theorem configView_reservedHigh (c : Config) : (configView c).extractLsb' 13 19 = 0 := by
  rw [configView_eq_packedView, extractLsb'_packedView_wide (by decide)]
  exact BitVec.extractLsb'_append_eq_left

/-! ## The two statements -/

/-- Settles O40: the flags and the low reserved bits from the shared layout, DEPTH and DIRTY as their
readers hardwire them (R23, R24), FAULT by its code (R180). -/
theorem statusViewHoldsEachField : Obligations.StatusViewHoldsEachField := by
  intro s
  refine ⟨getLsbD_packedView_zero, getLsbD_packedView_one, ?dirty,
    extractLsb'_packedView_reserved, statusView_depth s, ?fault, statusView_reservedHigh s⟩
  case dirty => exact getLsbD_packedView_two.trans (readDirty_eq_ite s)
  case fault =>
    rw [statusView_fault]
    cases s.fault <;> rfl

/-- Settles O41: the flags and the low reserved bits from the shared layout; R211's bound on
DEPTH_BITS lets its field hold it. -/
theorem configViewHoldsEachField : Obligations.ConfigViewHoldsEachField := by
  intro c hc
  exact ⟨getLsbD_packedView_zero, getLsbD_packedView_one, getLsbD_packedView_two,
    extractLsb'_packedView_reserved, configView_depthBits_toNat hc, configView_reservedHigh c⟩

end Sys2Proof.Machine

/-! The pixel mapping of R51 and R52 by its arithmetic, and the device byte that a buffer address
corresponds to (R60). -/

namespace Sys2Proof.Machine

/-! ## Fields by their arithmetic -/

/-- An append as an arithmetic sum: the high part is scaled past the low part. -/
theorem toNat_append_add {m n : Nat} (hi : BitVec m) (lo : BitVec n) :
    (hi ++ lo).toNat = hi.toNat * 2 ^ n + lo.toNat := by
  rw [BitVec.toNat_append, ← Nat.shiftLeft_add_eq_or_of_lt lo.isLt, Nat.shiftLeft_eq]

/-- A field of a word by its arithmetic. -/
theorem toNat_field {n : Nat} (w : BitVec n) (start len : Nat) :
    (w.extractLsb' start len).toNat = w.toNat / 2 ^ start % 2 ^ len := by
  rw [BitVec.extractLsb'_toNat, Nat.shiftRight_eq_div_pow]

theorem addrPage_toNat (a : BitVec 10) : (addrPage a).toNat = a.toNat / 64 % 8 := toNat_field a 6 3

theorem addrColumn_toNat (a : BitVec 10) : (addrColumn a).toNat = a.toNat % 64 := by
  rw [addrColumn, toNat_field, pow_zero, Nat.div_one]; rfl

theorem addrPlane_toNat (a : BitVec 10) : (addrPlane a).toNat = a.toNat / 512 := by
  rw [addrPlane, BitVec.getLsbD, Nat.toNat_testBit]
  omega

/-- R51's address by its arithmetic, for any coordinates. -/
theorem pixelAddr_toNat (x y : BitVec 8) :
    (pixelAddr x y).toNat = x.toNat / 64 % 2 * 512 + y.toNat / 8 % 8 * 64 + x.toNat % 64 := by
  simp only [pixelAddr, toNat_append_add, toNat_field]
  omega

theorem pixelBit_toNat (y : BitVec 8) : (pixelBit y).toNat = y.toNat % 8 := by
  rw [pixelBit, toNat_field, pow_zero, Nat.div_one]; rfl

/-- R52's column of pixels by its arithmetic. -/
theorem addrX_toNat (a : BitVec 10) : (addrX a).toNat = 64 * (a.toNat / 512) + a.toNat % 64 := by
  simp only [addrX, toNat_append_add, toNat_field, addrColumn_toNat, BitVec.toNat_ofNat]
  omega

/-- R52's row of pixels by its arithmetic. -/
theorem addrY_toNat (a : BitVec 10) (b : BitVec 3) :
    (addrY a b).toNat = 8 * (a.toNat / 64 % 8) + b.toNat := by
  simp only [addrY, toNat_append_add, addrPage_toNat, BitVec.toNat_ofNat]
  omega

/-! ## The mapping is a bijection (R51, R52) -/

/-- Settles O5: with both mappings by their arithmetic, each inverse law is one about quotients and
remainders. -/
theorem pixelMappingIsABijection : Obligations.PixelMappingIsABijection := by
  refine ⟨fun x y hx hy => ⟨?addr, pixelBit_toNat y, BitVec.eq_of_toNat_eq ?x,
      BitVec.eq_of_toNat_eq ?y⟩,
    fun a b => ⟨addrX_toNat a, addrY_toNat a b, BitVec.eq_of_toNat_eq ?a,
      BitVec.eq_of_toNat_eq ?b⟩⟩
  case addr => rw [pixelAddr_toNat]; omega
  case x => rw [addrX_toNat, pixelAddr_toNat]; omega
  case y => rw [addrY_toNat, pixelAddr_toNat, pixelBit_toNat]; omega
  case a => rw [pixelAddr_toNat, addrX_toNat, addrY_toNat]; omega
  case b => rw [pixelBit_toNat, addrY_toNat]; omega

/-! ## Buffer addresses and device bytes (R60) -/

/-- Plane, page and column make up the address (R60). -/
theorem addrFields_sum (a : BitVec 10) :
    (addrPlane a).toNat * 512 + (addrPage a).toNat * 64 + (addrColumn a).toNat = a.toNat := by
  rw [addrPlane_toNat, addrPage_toNat, addrColumn_toNat]
  omega

/-- Two addresses with the same plane, page and column are one. -/
theorem addrFields_inj {a b : BitVec 10} (hk : addrPlane a = addrPlane b)
    (hp : addrPage a = addrPage b) (hc : addrColumn a = addrColumn b) : a = b := by
  apply BitVec.eq_of_toNat_eq
  rw [← addrFields_sum a, ← addrFields_sum b, hk, hp, hc]

end Sys2Proof.Machine

/-! The consistency of buffer and display (R61): which states are consistent whatever the display
holds, what establishes SYNC, what each command's effect does to consistency, and that every step
keeps it. -/

namespace Sys2Proof.Machine

/-! ## DIRTY and DEPTH in the mode that does not use them (R23, R24) -/

theorem writeDirty_immediate {s : State} (hm : s.cfg.drawMode = .immediate) (v : Bool) :
    writeDirty v s = s := by simp [writeDirty, hm]

theorem readDirty_immediate {s : State} (hm : s.cfg.drawMode = .immediate) :
    readDirty s = false := by simp [readDirty_eq_ite, hm]

theorem readDirty_buffered {s : State} (hm : s.cfg.drawMode = .buffered) :
    readDirty s = s.dirty := by rw [readDirty_eq_ite, if_pos hm]

theorem writeDepth_buffered {s : State} (hm : s.cfg.drawMode = .buffered) (d : BitVec 16) :
    writeDepth d s = s := by simp [writeDepth, hm]

theorem readDepth_immediate {s : State} (hm : s.cfg.drawMode = .immediate) :
    readDepth s = s.depth := by simp [readDepth, hm]

/-! ## The effects that consistency turns on, by their rules -/

theorem effect_setPixel (v : Bool) (x y : BitVec 8) (s : State) :
    effect (.setPixel v x y) s = if inRange x y then drawPixel v x y s else s := rfl

theorem effect_setInverted (v : Bool) (s : State) :
    effect (.setInverted v) s = if v = s.inv then s
      else publishAll { s with fb := writeAll fun a => ~~~Memory.read s.fb a, inv := v } := rfl

theorem effect_flush (s : State) :
    effect .flush s = writeDirty false (if readDirty s then fullTx s else s) := rfl

theorem effect_enterBatch (s : State) :
    effect .enterBatch s = writeDepth (readDepth s + 1) s := rfl

theorem effect_leaveBatch (s : State) :
    effect .leaveBatch s =
      if readDepth (writeDepth (readDepth s - 1) s) = 0 then
        fullTx (writeDepth (readDepth s - 1) s)
      else writeDepth (readDepth s - 1) s := rfl

/-! ## SET_PIXEL by mode (R110) -/

theorem drawPixel_dirty {s : State} (hm : s.cfg.drawMode = .buffered) (v : Bool) (x y : BitVec 8) :
    (drawPixel v x y s).dirty = true := by
  simp [drawPixel, hm, writeDirty_dirty]

/-- Outside a batch the byte that SET_PIXEL wrote is sent (R110). -/
theorem drawPixel_sent {s : State} (hm : s.cfg.drawMode = .immediate) (hd : s.depth = 0) (v : Bool)
    (x y : BitVec 8) :
    drawPixel v x y s = byteTx (pixelAddr x y) { s with fb := (drawPixel v x y s).fb } := by
  rw [drawPixel_fb]
  simp [drawPixel, readDepth, hm, hd]

/-! ## The display RAM stays canonical -/

/-- Both planes hold canonical display RAM (R160). -/
def Device.DramWf (d : Device) : Prop := ∀ k, Memory.wf dramSize (d.plane k).dram = true

theorem WellFormed.dramWf {s : State} (h : WellFormed s) : s.dev.DramWf
  | false => h.dram0
  | true => h.dram1

theorem dramWf_txAll {s : State} (h : s.dev.DramWf) (qs : List Quad) : (txAll qs s).dev.DramWf := by
  intro k
  rw [txAll_plane]
  exact planeFold_wf _ _ _ (h k)

theorem dramWf_drawnDevice (n : Nat) : (drawnDevice n).DramWf
  | false => drawnPlane_wf n false
  | true => drawnPlane_wf n true

theorem dramWf_initAddressing {s : State} (h : s.dev.DramWf) : (initAddressing s).dev.DramWf := by
  unfold initAddressing
  split
  · exact dramWf_txAll h _
  · exact dramWf_drawnDevice s.draws

theorem dramWf_initSetup {s : State} (h : s.dev.DramWf) : (initSetup s).dev.DramWf :=
  dramWf_txAll (dramWf_initAddressing (s := idlePins s) h) _

/-! ## When SYNC holds -/

theorem consistent_of_sync {s : State} (h : s.initDone = true → Sync s) : Consistent s :=
  fun hinit => ⟨fun _ _ => h hinit, fun _ _ => h hinit⟩

/-- While DIRTY = 1 nothing is asked of the display (R61). -/
theorem consistent_of_dirty {s : State} (hm : s.cfg.drawMode = .buffered) (h : s.dirty = true) :
    Consistent s :=
  fun _ => ⟨fun hi => (by rw [hm] at hi; cases hi), fun _ hd => (by rw [h] at hd; cases hd)⟩

/-- Inside a batch nothing is asked of the display (R61). -/
theorem consistent_of_inBatch {s : State} (hm : s.cfg.drawMode = .immediate) (h : s.depth ≠ 0) :
    Consistent s :=
  fun _ => ⟨fun _ hd => absurd hd h, fun hb => (by rw [hm] at hb; cases hb)⟩

/-- FULL_TX establishes SYNC, whatever the display held (R140). -/
theorem sync_fullTx {s : State} (he : s.cfg.devEnc.wf = true) (hd : s.dev.DramWf) :
    Sync (fullTx s) := by
  intro a
  obtain ⟨m, hplane, -, hread⟩ := planeFold_fullTxQuads he s.fb (addrPlane a) (hd (addrPlane a))
  rw [dramByte, fullTx, txAll_plane, hplane, hread, addrFields_sum, fbByte, txAll_fb]

/-- BYTE_TX(a) completes SYNC when `a` is the only address that may differ (R141). -/
theorem sync_byteTx {s : State} (he : s.cfg.devEnc.wf = true) (hd : s.dev.DramWf) {a : BitVec 10}
    (h : ∀ b, b ≠ a → dramByte s (addrPlane b) (addrPage b) (addrColumn b) = fbByte s b) :
    Sync (byteTx a s) := by
  intro b
  rw [dramByte, byteTx, txAll_plane, fbByte, txAll_fb]
  by_cases hk : addrPlane b = addrPlane a
  · rw [hk, planeFold_byteTxQuads he, Plane.writeData, Memory.read_write (hd (addrPlane a))]
    split
    · obtain ⟨hpage, hcol⟩ := dramAddr_inj ‹_›
      rw [addrFields_inj hk hpage hcol]
    · rw [← hk]
      exact h b fun hba => ‹¬ _› (by rw [hba])
  · rw [planeFold_byteTxQuads_other _ _ _ hk]
    exact h b fun hba => hk (by rw [hba])

@[simp] theorem sync_writeDirty (v : Bool) (s : State) : Sync (writeDirty v s) ↔ Sync s := by
  simp [Sync, dramByte, fbByte]

@[simp] theorem sync_idlePins (s : State) : Sync (idlePins s) ↔ Sync s := Iff.rfl

/-- The body of RESET ends in SYNC (R101). -/
theorem sync_resetBody {s : State} (he : s.cfg.devEnc.wf = true) (hd : s.dev.DramWf) :
    Sync (resetBody s) := by
  have hsent : (txAll (zeroPointerQuads s.cfg.devEnc) { s with inv := false }).dev.DramWf :=
    dramWf_txAll hd _
  rw [resetBody, sync_writeDirty]
  exact sync_fullTx he hsent

/-! ## What the drawing commands do to consistency -/

/-- Publishing the whole buffer leaves the block consistent, whatever it held. -/
theorem consistent_publishAll {s : State} (he : s.cfg.devEnc.wf = true) (hd : s.dev.DramWf) :
    Consistent (publishAll s) := by
  cases hm : s.cfg.drawMode with
  | buffered =>
    rw [publishAll_buffered hm]
    exact consistent_of_dirty hm rfl
  | immediate =>
    rw [publishAll_immediate hm]
    exact consistent_of_sync fun _ => sync_fullTx he hd

/-- Where SYNC held outside a batch, only the byte that SET_PIXEL writes may differ, and that
byte is sent. -/
theorem consistent_drawPixel {s : State} (hw : WellFormed s) (he : s.cfg.devEnc.wf = true)
    (hc : Consistent s) (v : Bool) (x y : BitVec 8) : Consistent (drawPixel v x y s) := by
  cases hm : s.cfg.drawMode with
  | buffered => exact consistent_of_dirty (by rwa [drawPixel_cfg]) (drawPixel_dirty hm v x y)
  | immediate =>
    by_cases hd : s.depth = 0
    · refine consistent_of_sync fun hinit => ?_
      rw [drawPixel_initDone] at hinit
      have hsync : Sync s := (hc hinit).1 hm hd
      rw [drawPixel_sent hm hd]
      refine sync_byteTx (s := { s with fb := (drawPixel v x y s).fb }) he hw.dramWf fun b hb => ?_
      have hne : b.toNat ≠ (pixelAddr x y).toNat := fun h => hb (BitVec.eq_of_toNat_eq h)
      change _ = Memory.read (drawPixel v x y s).fb b.toNat
      rw [drawPixel_fb, Memory.read_write hw.fb, if_neg hne]
      exact hsync b
    · exact consistent_of_inBatch (by rwa [drawPixel_cfg]) (by rwa [drawPixel_depth])

/-! ## FLUSH and the batch commands -/

/-- FLUSH sends the buffer unless it is clean, and then SYNC holds already (R130). -/
theorem consistent_flush {s : State} (hw : WellFormed s) (he : s.cfg.devEnc.wf = true)
    (hc : Consistent s) : Consistent (effect .flush s) := by
  rw [effect_flush]
  cases hm : s.cfg.drawMode with
  | immediate =>
    rwa [readDirty_immediate hm, if_neg Bool.false_ne_true, writeDirty_immediate hm]
  | buffered =>
    rw [readDirty_buffered hm]
    refine consistent_of_sync fun hinit => (sync_writeDirty ..).2 ?_
    split_ifs at hinit ⊢ with hdirty
    · exact sync_fullTx he hw.dramWf
    · rw [writeDirty_initDone] at hinit
      exact (hc hinit).2 hm (Bool.eq_false_of_not_eq_true hdirty)

/-- Below its maximum DEPTH does not wrap to 0: without the check of R131 a batch of all 16 bits
would end by being entered once more. -/
theorem depth_succ_ne_zero {s : State} (hw : WellFormed s) (hm : s.cfg.drawMode = .immediate)
    (hmax : depthAtMax s = false) : s.depth + 1 ≠ 0 := by
  have hbits : 2 ^ s.cfg.depthBits ≤ 2 ^ 16 :=
    Nat.pow_le_pow_right (by decide) (depthBits_bounds_of_valid hw.cfg).2
  have hlt := hw.depthBits
  simp only [depthAtMax, readDepth_immediate hm, beq_eq_false_iff_ne] at hmax
  intro h0
  bv_omega

theorem consistent_enterBatch {s : State} (hw : WellFormed s) (hc : Consistent s)
    (hmax : depthAtMax s = false) : Consistent (effect .enterBatch s) := by
  rw [effect_enterBatch]
  cases hm : s.cfg.drawMode with
  | buffered => rwa [writeDepth_buffered hm]
  | immediate =>
    refine consistent_of_inBatch (by rwa [writeDepth_cfg]) ?_
    rw [writeDepth_depth, if_pos hm, readDepth_immediate hm]
    exact depth_succ_ne_zero hw hm hmax

/-- LEAVE_BATCH sends the buffer when DEPTH gets to 0 (R132). -/
theorem consistent_leaveBatch {s : State} (hw : WellFormed s) (he : s.cfg.devEnc.wf = true)
    (hc : Consistent s) : Consistent (effect .leaveBatch s) := by
  rw [effect_leaveBatch]
  split_ifs with hdepth
  · exact consistent_of_sync fun _ =>
      sync_fullTx (by rwa [writeDepth_cfg]) (by simpa using hw.dramWf)
  · cases hm : s.cfg.drawMode with
    | buffered => rwa [writeDepth_buffered hm]
    | immediate =>
      refine consistent_of_inBatch (by rwa [writeDepth_cfg]) ?_
      rwa [readDepth_immediate ((congrArg _ (writeDepth_cfg ..)).trans hm)] at hdepth

/-- ENTER_BATCH raises at the maximum, so where it leaves no fault DEPTH was below it (R131). -/
theorem depthAtMax_of_enterBatch {s t : State} (h : exec .enterBatch s = .next t)
    (ht : t.fault = .none) : depthAtMax s = false := by
  change execEnterBatch s = .next t at h
  unfold execEnterBatch at h
  obtain ⟨-, ⟨c, ha, h⟩ | ⟨-, h⟩⟩ := command_next h
  · cases h
    subst ht
    simpa using admission_ne_none ha
  · split at h
    · cases h
      cases ht
    · exact Bool.eq_false_of_not_eq_true ‹_›

/-! ## What every instruction does to consistency -/

theorem consistent_effect {i : Instr} {s : State} (hw : WellFormed s) (he : s.cfg.devEnc.wf = true)
    (hc : Consistent s) (hmax : i = .enterBatch → depthAtMax s = false) :
    Consistent (effect i s) := by
  cases i with
  | init =>
    have hsync : Sync (resetBody (initSetup s)) :=
      sync_resetBody (by rwa [initSetup_cfg]) (dramWf_initSetup hw.dramWf)
    exact consistent_of_sync fun _ => (sync_idlePins _).2 hsync
  | reset => exact consistent_of_sync fun _ => sync_resetBody he hw.dramWf
  | setPixel v x y =>
    rw [effect_setPixel]
    split
    · exact consistent_drawPixel hw he hc v x y
    · exact hc
  | clear => exact consistent_publishAll he hw.dramWf
  | fill => exact consistent_publishAll he hw.dramWf
  | setInverted v =>
    rw [effect_setInverted]
    split
    · exact hc
    · exact consistent_publishAll he hw.dramWf
  | flush => exact consistent_flush hw he hc
  | enterBatch => exact consistent_enterBatch hw hc (hmax rfl)
  | leaveBatch => exact consistent_leaveBatch hw he hc
  | _ => exact hc

theorem consistent_exec {i : Instr} {s t : State} (hw : WellFormed s) (he : s.cfg.devEnc.wf = true)
    (hc : Consistent s) (hi : planeEffect i = none) (h : exec i s = .next t) : Consistent t := by
  cases exec_cases h with
  | device cs0 cs1 f hp => cases hi.symm.trans hp
  | raised _ _ c _ ht => subst ht; exact hc
  | completed _ hf _ ht =>
    have heff : Consistent (effect i s) := by
      refine consistent_effect hw he hc ?_
      rintro rfl
      exact depthAtMax_of_enterBatch h (by rw [ht]; exact (writeDepth_fault _ s).trans hf)
    subst ht
    exact heff

/-! ## What waits on the port -/

@[simp] theorem effect_inbox (i : Instr) (s : State) : (effect i s).inbox = s.inbox := by
  cases i with
  | init => exact (resetBody_inbox _).trans (initSetup_inbox s)
  | reset => exact resetBody_inbox s
  | setPixel v x y => rw [effect_setPixel]; split <;> simp
  | clear => exact publishAll_inbox _
  | fill => exact publishAll_inbox _
  | setInverted v => rw [effect_setInverted]; split <;> simp
  | flush => rw [effect_flush]; split <;> simp
  | enterBatch => exact writeDepth_inbox _ s
  | leaveBatch => rw [effect_leaveBatch]; split <;> simp
  | _ => rfl

theorem exec_inbox {i : Instr} {s t : State} (h : exec i s = .next t) : t.inbox = s.inbox := by
  cases exec_cases h with
  | device cs0 cs1 f _ ht => rw [ht]
  | raised _ _ c _ ht => rw [ht]
  | completed _ _ _ ht => rw [ht]; exact effect_inbox i s

/-- With no foreign quad waiting, the next item is a command and so are the ones after it. -/
theorem NoForeignQuad.of_cons {s : State} {item : InboxItem} {rest : List InboxItem}
    (h : NoForeignQuad s) (hi : s.inbox = item :: rest) :
    (∃ w, item = .command w) ∧ ∀ x ∈ rest, ∃ w, x = .command w := by
  rwa [NoForeignQuad, hi, List.forall_mem_cons] at h

/-- A command word decodes to no device form. -/
theorem planeEffect_of_decodeWord {w : Word} {i : Instr} (h : decodeWord w = .ok i) :
    planeEffect i = none := by
  unfold decodeWord row at h
  split at h <;> try split at h
  all_goals cases h <;> rfl

theorem WellFormed.withInbox {s : State} (h : WellFormed s) (rest : List InboxItem) :
    WellFormed { s with inbox := rest } := { h with }

/-! ## Every step keeps consistency -/

/-- Settles O47: a step idles, records a fault, or runs a command word, and no command's effect
loses consistency (R61). -/
theorem consistencyIsKeptByEveryStep : Obligations.ConsistencyIsKeptByEveryStep := by
  intro s t hw he hq hc h
  obtain ⟨-, hstep⟩ := step_cases h
  cases hstep with
  | idle _ _ ht => subst ht; exact ⟨hq, hc⟩
  | ran item rest i hi hd ht =>
    obtain ⟨⟨w, rfl⟩, hrest⟩ := hq.of_cons hi
    refine ⟨?_, consistent_exec (hw.withInbox rest) he hc (planeEffect_of_decodeWord hd) ht⟩
    rwa [NoForeignQuad, exec_inbox ht]
  | reserved w rest hi _ _ ht =>
    subst ht
    exact ⟨(hq.of_cons hi).2, hc⟩
  | passed q rest hi =>
    obtain ⟨⟨w, hw⟩, -⟩ := hq.of_cons hi
    cases hw

end Sys2Proof.Machine

/-! The must-be-zero bits of a command word (R74): where a word's opcode is a row's, the word decodes
by that row's mask alone, and one that fails it ends its step in RESERVED_FIELD. -/

namespace Sys2Proof.Machine

/-- A word with a row's opcode is decided by that row alone: the opcodes of the ten rows differ
(R73). -/
theorem decodeWord_eq_row {w mask fixed : Word} (hrow : (mask, fixed) ∈ commandRows)
    (hop : opcode w = opcode fixed) : ∃ i, decodeWord w = row mask fixed w i := by
  unfold decodeWord
  rw [hop]
  fin_cases hrow <;> exact ⟨_, rfl⟩

theorem row_of_mask_ne {w mask fixed : Word} (hne : w &&& mask ≠ fixed) (i : Instr) :
    row mask fixed w i = .error .reservedField := if_neg hne

/-- A block that has not faulted takes a rejected word and records RESERVED_FIELD, without looking at
DRAW_MODE or INIT_DONE (R74, R181). -/
theorem step_of_decodeWord_error {s : State} {w : Word} {rest : List InboxItem} {r : DecodeReject}
    (hv : s.cfg.valid = true) (hf : s.fault = .none) (hi : s.inbox = .command w :: rest)
    (hd : decodeWord w = .error r) :
    step s = .next { s with
      inbox := rest, fault := .reservedField, faultIndex := s.cmdCount, faultWord := w } := by
  simp [step, hv, fetch, hi, decode, hd, rejected, reservedCommand, accept, hf, raise]

/-- Settles O7: the word fails the one row that could take it, so it decodes to no instruction, and
its step raises the fault. -/
theorem mustBeZeroBitsRaiseReservedField : Obligations.MustBeZeroBitsRaiseReservedField := by
  intro s w rest mask fixed hv hf hi hrow hop hne
  obtain ⟨i, hdec⟩ := decodeWord_eq_row hrow hop
  have hrej : decodeWord w = .error .reservedField := hdec.trans (row_of_mask_ne hne i)
  exact ⟨hrej, step_of_decodeWord_error hv hf hi hrej⟩

end Sys2Proof.Machine

/-! RESET by its rule (R101): the command completes with the body of RESET, whose frame, TRACE and
device each have a lemma of their own. -/

namespace Sys2Proof.Machine

/-! ## The command -/

/-- RESET needs INIT_DONE and no fault, and asks neither DRAW_MODE nor DEPTH (R80). -/
theorem exec_reset_of_ready {s : State} (h : Ready s) :
    exec .reset s = .next { resetBody s with cmdCount := s.cmdCount + 1 } := by
  obtain ⟨hfault, hinit⟩ := h
  have hadm : admission (plainWord 0x2#4) s = none := by
    rw [admission_both (by simp) (by simp) (by simp) (by simp), if_pos hinit]
  have hrun : exec .reset s = complete (resetBody s) :=
    command_admitted (rule := fun s => complete (resetBody s)) hfault hadm
  rw [hrun, complete, resetBody_cmdCount]

/-! ## The body of RESET -/

/-- In Immediate mode DIRTY is not written, but it is 0 there already (R23). -/
theorem resetBody_dirty_eq_false {s : State} (hw : WellFormed s) : (resetBody s).dirty = false := by
  rw [resetBody_dirty]
  cases hm : s.cfg.drawMode with
  | buffered => rfl
  | immediate => exact hw.dirty hm

/-- What RESET may change: INV, DIRTY, FB, TRACE, the pins and the device. -/
theorem resetBody_frame {s : State} (hw : WellFormed s) :
    resetBody s = { s with
      inv := false, dirty := false, fb := (resetBody s).fb, trace := (resetBody s).trace
      port := (resetBody s).port, dev := (resetBody s).dev } := by
  rw [State.mk.injEq]
  simp [resetBody_dirty_eq_false hw]

/-- The pointers of both planes are sent first, then the cleared buffer. -/
theorem resetBody_trace (s : State) :
    (resetBody s).trace = s.trace ++ (zeroPointerQuads s.cfg.devEnc).map .quad
      ++ (fullTxQuads s.cfg.devEnc (resetBody s).fb).map .quad := by
  rw [resetBody_fb]
  simp [resetBody]

theorem fbByte_resetBody (s : State) (a : BitVec 10) : fbByte (resetBody s) a = 0 := by
  rw [fbByte, resetBody_fb, read_writeAll _ a.isLt]

/-- A plane after the body of RESET: zeroed pointers, an empty image, and the on/off it had. -/
theorem resetBody_plane {s : State} (he : s.cfg.devEnc.wf = true) (hd : s.dev.DramWf) (k : Bool) :
    ∃ m, (resetBody s).dev.plane k
        = { s.dev.plane k with start := 0, page := 0, col := 0, dram := m }
      ∧ ∀ p c, Memory.read m (dramAddr p c) = 0 := by
  obtain ⟨m, hplane, -, hread⟩ := planeFold_fullTxQuads he (writeAll fun _ => 0x00) k
    (pl := { s.dev.plane k with start := 0, page := 0, col := 0 }) (hd k)
  refine ⟨m, ?_, fun p c => ?_⟩
  · rw [resetBody, writeDirty_dev, fullTx, txAll_plane]
    simp only [txAll_plane, txAll_cfg, planeFold_zeroPointerQuads he, hplane]
  · have hk : k.toNat ≤ 1 := Bool.toNat_le k
    rw [hread, read_writeAll _ (by unfold fbSize; omega)]

/-! ## The statement -/

/-- Settles O15: a ready block completes RESET, and its body's frame, buffer, planes and TRACE are
those R101 names. -/
theorem resetFollowsItsRule : Obligations.ResetFollowsItsRule := by
  intro s hw he hready
  have plane := resetBody_plane he hw.dramWf
  refine ⟨_, exec_reset_of_ready hready, ?frame, fbByte_resetBody s, ?pointers, ?dram,
    resetBody_trace s⟩
  case frame =>
    exact congrArg (fun u : State => { u with cmdCount := s.cmdCount + 1 }) (resetBody_frame hw)
  case pointers =>
    intro k
    obtain ⟨m, hplane, -⟩ := plane k
    simp [hplane]
  case dram =>
    intro k p c
    obtain ⟨m, hplane, hread⟩ := plane k
    simp [dramByte, hplane, hread]

end Sys2Proof.Machine

/-! CLEAR and FILL by their rules (R111, R112): both store one byte everywhere and publish the whole
buffer, so they differ only in the byte. -/

namespace Sys2Proof.Machine

/-! ## The commands that run in both modes -/

/-- A ready block runs the rule of every command but INIT, FLUSH and the batch commands, whatever
DRAW_MODE is (R80). -/
theorem command_of_ready {w : Word} {s : State} (h : Ready s)
    (hop : opcode w ∉ [0x1#4, 0x8#4, 0x9#4, 0xA#4]) (rule : State → Outcome) :
    command w rule s = rule s := by
  obtain ⟨hfault, hinit⟩ := h
  simp only [List.mem_cons, List.not_mem_nil, or_false, not_or] at hop
  obtain ⟨h1, h8, h9, hA⟩ := hop
  exact command_admitted hfault (by rw [admission_both h1 h8 h9 hA, if_pos hinit])

/-! ## Publishing the whole buffer, as a completed command (R111, R112, R120) -/

/-- What a command leaves that has made `u` of its state and then publishes the whole buffer. -/
def publishedAll (u : State) : State := { publishAll u with cmdCount := u.cmdCount + 1 }

theorem complete_publishAll (u : State) : complete (publishAll u) = .next (publishedAll u) := by
  rw [complete, publishAll_cmdCount, publishedAll]

theorem fbByte_publishedAll (u : State) (a : BitVec 10) :
    fbByte (publishedAll u) a = fbByte u a :=
  congrArg (Memory.read · a.toNat) (publishAll_fb u)

theorem logicalPixel_publishedAll (u : State) (x y : BitVec 8) :
    logicalPixel (publishedAll u) x y = logicalPixel u x y := by
  rw [logicalPixel, storedBit, fbByte_publishedAll, publishedAll, publishAll_inv]
  rfl

theorem sync_withCmdCount (s : State) (n : Nat) :
    Sync { s with cmdCount := n } ↔ Sync s := Iff.rfl

theorem publishedAll_buffered {u : State} (hm : u.cfg.drawMode = .buffered) :
    publishedAll u = { u with
      fb := (publishedAll u).fb, dirty := true, cmdCount := u.cmdCount + 1 } := by
  have hmarked : publishedAll u = { u with dirty := true, cmdCount := u.cmdCount + 1 } :=
    congrArg (fun t : State => { t with cmdCount := u.cmdCount + 1 }) (publishAll_buffered hm)
  rw [hmarked]

/-- In Immediate mode the buffer is sent, and the display then holds it, whatever DEPTH holds. -/
theorem publishedAll_immediate {u : State} (he : u.cfg.devEnc.wf = true) (hd : u.dev.DramWf)
    (hm : u.cfg.drawMode = .immediate) :
    publishedAll u = { u with
      fb := (publishedAll u).fb, trace := (publishedAll u).trace, port := (publishedAll u).port
      dev := (publishedAll u).dev, cmdCount := u.cmdCount + 1 } ∧
    (publishedAll u).trace
      = u.trace ++ (fullTxQuads u.cfg.devEnc (publishedAll u).fb).map .quad ∧
    Sync (publishedAll u) := by
  have hsent : publishedAll u = { fullTx u with cmdCount := u.cmdCount + 1 } :=
    congrArg (fun t : State => { t with cmdCount := u.cmdCount + 1 }) (publishAll_immediate hm)
  rw [hsent]
  exact ⟨by simp, by simp, (sync_withCmdCount ..).2 (sync_fullTx he hd)⟩

/-! ## One byte stored everywhere -/

/-- Every byte of FB stored as `b` (R111, R112). -/
def storeUniform (b : Byte) (s : State) : State := { s with fb := writeAll fun _ => b }

theorem exec_clear_of_ready {s : State} (h : Ready s) :
    exec .clear s = .next (publishedAll (storeUniform (clearByte s.inv) s)) := by
  change execClear s = _
  rw [execClear, command_of_ready h (by simp), complete_publishAll, storeUniform]

theorem exec_fill_of_ready {s : State} (h : Ready s) :
    exec .fill s = .next (publishedAll (storeUniform (fillByte s.inv) s)) := by
  change execFill s = _
  rw [execFill, command_of_ready h (by simp), complete_publishAll, storeUniform]

theorem fbByte_storeUniform (b : Byte) (s : State) (a : BitVec 10) :
    fbByte (storeUniform b s) a = b :=
  read_writeAll (fun _ => b) a.isLt

theorem logicalPixel_storeUniform (b : Byte) (s : State) (x y : BitVec 8) :
    logicalPixel (storeUniform b s) x y = (b.getLsbD (pixelBit y).toNat ^^ s.inv) := by
  rw [logicalPixel, storedBit, fbByte_storeUniform, storeUniform]

/-! ## The bytes that CLEAR and FILL store -/

theorem getLsbD_clearByte (inv : Bool) (b : BitVec 3) :
    (clearByte inv).getLsbD b.toNat = inv := by
  cases inv with
  | false => exact BitVec.getLsbD_zero
  | true => exact (BitVec.getLsbD_allOnes (v := 8)).trans (decide_eq_true (by omega))

/-- FILL stores what CLEAR would store under the other polarity. -/
theorem fillByte_eq_clearByte_not (inv : Bool) : fillByte inv = clearByte (!inv) := by
  cases inv <;> rfl

/-! ## The statements about CLEAR and FILL -/

/-- Settles O18: CLEAR stores INV in every bit, so that every logical pixel is INV ^ INV. -/
theorem clearFollowsItsRule : Obligations.ClearFollowsItsRule := by
  intro s hw he hready
  refine ⟨_, exec_clear_of_ready hready, fun a => ?bytes, fun x y _ _ => ?pixels,
    publishedAll_buffered (u := storeUniform _ s),
    publishedAll_immediate (u := storeUniform _ s) he hw.dramWf⟩
  case bytes => rw [fbByte_publishedAll, fbByte_storeUniform, clearByte]
  case pixels =>
    rw [logicalPixel_publishedAll, logicalPixel_storeUniform, getLsbD_clearByte, Bool.xor_self]

/-- Settles O19: FILL stores the complement of INV in every bit, so that every logical pixel is
¬INV ^ INV. -/
theorem fillFollowsItsRule : Obligations.FillFollowsItsRule := by
  intro s hw he hready
  refine ⟨_, exec_fill_of_ready hready, fun a => ?bytes, fun x y _ _ => ?pixels,
    publishedAll_buffered (u := storeUniform _ s),
    publishedAll_immediate (u := storeUniform _ s) he hw.dramWf⟩
  case bytes => rw [fbByte_publishedAll, fbByte_storeUniform, fillByte]
  case pixels =>
    rw [logicalPixel_publishedAll, logicalPixel_storeUniform, fillByte_eq_clearByte_not,
      getLsbD_clearByte, Bool.not_xor_self]

end Sys2Proof.Machine

/-! SET_PIXEL by its rule (R110): the one bit it writes, what it does in each mode, and that the
pixel reads back (R30). -/

namespace Sys2Proof.Machine

/-! ## The command -/

theorem exec_setPixel_of_ready {s : State} (h : Ready s) (v : Bool) (x y : BitVec 8) :
    exec (.setPixel v x y) s
      = complete (if inRange x y then drawPixel v x y s else s) := by
  change execSetPixel v x y s = _
  rw [execSetPixel, command_of_ready h (by simp)]

theorem inRange_iff {x y : BitVec 8} : inRange x y = true ↔ x.toNat < 128 ∧ y.toNat < 64 := by
  simp [inRange]

theorem exec_setPixel_inside {s : State} (h : Ready s) (v : Bool) {x y : BitVec 8}
    (hx : x.toNat < 128) (hy : y.toNat < 64) :
    exec (.setPixel v x y) s = .next { drawPixel v x y s with cmdCount := s.cmdCount + 1 } := by
  rw [exec_setPixel_of_ready h, if_pos (inRange_iff.2 ⟨hx, hy⟩), complete, drawPixel_cmdCount]

theorem exec_setPixel_outside {s : State} (h : Ready s) (v : Bool) {x y : BitVec 8}
    (hout : 128 ≤ x.toNat ∨ 64 ≤ y.toNat) :
    exec (.setPixel v x y) s = .next { s with cmdCount := s.cmdCount + 1 } := by
  rw [exec_setPixel_of_ready h, if_neg (by rw [inRange_iff]; omega), complete]

/-! ## Where the pixel lies on the display (R51, R60) -/

theorem addrPlane_pixelAddr {x : BitVec 8} (hx : x.toNat < 128) (y : BitVec 8) :
    addrPlane (pixelAddr x y) = decide (64 ≤ x.toNat) := by
  have hplane : (addrPlane (pixelAddr x y)).toNat = x.toNat / 64 := by
    rw [addrPlane_toNat, pixelAddr_toNat]
    omega
  rw [Bool.eq_iff_iff, decide_eq_true_iff, ← Bool.toNat_eq_one]
  omega

theorem addrPage_pixelAddr (x y : BitVec 8) :
    addrPage (pixelAddr x y) = BitVec.ofNat 3 (y.toNat / 8) := by
  apply BitVec.eq_of_toNat_eq
  rw [addrPage_toNat, pixelAddr_toNat, BitVec.toNat_ofNat]
  omega

theorem addrColumn_pixelAddr (x y : BitVec 8) :
    addrColumn (pixelAddr x y) = BitVec.ofNat 6 (x.toNat % 64) := by
  apply BitVec.eq_of_toNat_eq
  rw [addrColumn_toNat, pixelAddr_toNat, BitVec.toNat_ofNat]
  omega

/-- Two pixels of the plane that share a byte and a bit are one (R51). -/
theorem pixelPlace_inj {x y x' y' : BitVec 8} (hx : x.toNat < 128) (hy : y.toNat < 64)
    (hx' : x'.toNat < 128) (hy' : y'.toNat < 64) (ha : pixelAddr x' y' = pixelAddr x y)
    (hb : (pixelBit y').toNat = (pixelBit y).toNat) : x' = x ∧ y' = y := by
  have hb : pixelBit y' = pixelBit y := BitVec.eq_of_toNat_eq hb
  obtain ⟨-, -, hX, hY⟩ := pixelMappingIsABijection.1 x y hx hy
  obtain ⟨-, -, hX', hY'⟩ := pixelMappingIsABijection.1 x' y' hx' hy'
  exact ⟨by rw [← hX', ha, hX], by rw [← hY', ha, hb, hY]⟩

/-! ## The bit it writes -/

/-- `pixelByte` puts v ^ INV in bit `b` and keeps the other seven. -/
theorem getLsbD_pixelByte (old : Byte) (b : BitVec 3) (v inv : Bool) (j : Nat) :
    (pixelByte old b v inv).getLsbD j
      = if j = b.toNat then v ^^ inv else old.getLsbD j := by
  have hb : b.toNat < 8 := b.isLt
  rcases Nat.lt_trichotomy j b.toNat with hj | rfl | hj
  · have hj8 : j < 8 := hj.trans hb
    simp [pixelByte, hj, hj.ne, hj8]
  · simp [pixelByte, bit, hb]
  · have hkeep : old.getLsbD j = true → j < 8 := BitVec.lt_of_getLsbD
    have hj0 : j - b.toNat ≠ 0 := by omega
    simpa [pixelByte, bit, hj.ne', hj0] using hkeep

theorem fbByte_drawPixel {s : State} (hw : WellFormed s) (v : Bool) (x y : BitVec 8)
    (a : BitVec 10) :
    fbByte (drawPixel v x y s) a
      = if a = pixelAddr x y then pixelByte (fbByte s a) (pixelBit y) v s.inv
        else fbByte s a := by
  rw [fbByte, drawPixel_fb, Memory.read_write hw.fb]
  split_ifs with hread haddr haddr
  · subst haddr; rfl
  · exact absurd (BitVec.eq_of_toNat_eq hread) haddr
  · exact absurd (congrArg _ haddr) hread
  · rfl

/-- SET_PIXEL writes one bit of one byte (R110). -/
theorem getLsbD_fbByte_drawPixel {s : State} (hw : WellFormed s) (v : Bool) (x y : BitVec 8)
    (a : BitVec 10) (j : Nat) :
    (fbByte (drawPixel v x y s) a).getLsbD j
      = if a = pixelAddr x y ∧ j = (pixelBit y).toNat then v ^^ s.inv
        else (fbByte s a).getLsbD j := by
  rw [fbByte_drawPixel hw, ite_and]
  split
  · exact getLsbD_pixelByte ..
  · rfl

/-- INV turns the written bit v ^ INV back into v, and every other bit shows what it
showed (R30). -/
theorem logicalPixel_drawPixel {s : State} (hw : WellFormed s) (v : Bool) (x y x' y' : BitVec 8) :
    logicalPixel (drawPixel v x y s) x' y'
      = if pixelAddr x' y' = pixelAddr x y ∧ (pixelBit y').toNat = (pixelBit y).toNat then v
        else logicalPixel s x' y' := by
  rw [logicalPixel, storedBit, getLsbD_fbByte_drawPixel hw, drawPixel_inv]
  split
  · rw [Bool.xor_assoc, Bool.xor_self, Bool.xor_false]
  · rfl

/-- Settles O17: the pixel's own place shows v, and no other pixel of the plane has that place. -/
theorem setPixelThenReadBackGivesTheValue : Obligations.SetPixelThenReadBackGivesTheValue := by
  intro s v x y hw hready hx hy
  refine ⟨_, exec_setPixel_inside hready v hx hy, ?same, fun x' y' hx' hy' hne => ?other⟩
  case same => exact (logicalPixel_drawPixel hw ..).trans (if_pos ⟨rfl, rfl⟩)
  case other =>
    refine (logicalPixel_drawPixel hw ..).trans (if_neg ?_)
    rintro ⟨ha, hb⟩
    obtain ⟨rfl, rfl⟩ := pixelPlace_inj hx hy hx' hy' ha hb
    exact hne rfl

/-! ## BYTE_TX (R141) -/

theorem byteTx_plane {s : State} (he : s.cfg.devEnc.wf = true) (a : BitVec 10) :
    (byteTx a s).dev.plane (addrPlane a)
      = Plane.writeData (fbByte s a)
          { s.dev.plane (addrPlane a) with page := addrPage a, col := addrColumn a } := by
  rw [byteTx, txAll_plane, planeFold_byteTxQuads he, fbByte]

/-- BYTE_TX leaves PAGE and COL where the byte's successor would land; START and the display's
on/off stay as they were. -/
theorem byteTx_plane_frame {s : State} (he : s.cfg.devEnc.wf = true) (a : BitVec 10) :
    (byteTx a s).dev.plane (addrPlane a) = { s.dev.plane (addrPlane a) with
      page := addrPage a, col := addrColumn a + 1
      dram := ((byteTx a s).dev.plane (addrPlane a)).dram } := by
  rw [byteTx_plane he, Plane.writeData]

theorem byteTx_plane_not (a : BitVec 10) (s : State) :
    (byteTx a s).dev.plane (!addrPlane a) = s.dev.plane (!addrPlane a) := by
  rw [byteTx, txAll_plane, planeFold_byteTxQuads_other _ _ _ (Bool.not_ne_self _)]

theorem dramByte_byteTx {s : State} (he : s.cfg.devEnc.wf = true) (hd : s.dev.DramWf)
    (a : BitVec 10) (p : BitVec 3) (c : BitVec 6) :
    dramByte (byteTx a s) (addrPlane a) p c
      = if p = addrPage a ∧ c = addrColumn a then fbByte s a
        else dramByte s (addrPlane a) p c := by
  rw [dramByte, byteTx_plane he, Plane.writeData, Memory.read_write (hd _)]
  refine if_congr ⟨dramAddr_inj, ?_⟩ rfl rfl
  rintro ⟨rfl, rfl⟩
  rfl

/-! ## What follows the write, by mode -/

theorem drawPixel_buffered {s : State} (hm : s.cfg.drawMode = .buffered) (v : Bool)
    (x y : BitVec 8) :
    drawPixel v x y s = { s with fb := (drawPixel v x y s).fb, dirty := true } := by
  rw [drawPixel_fb]
  simp [drawPixel, hm, writeDirty]

/-- Inside a batch nothing but FB changes. -/
theorem drawPixel_inBatch {s : State} (hm : s.cfg.drawMode = .immediate) (hd : s.depth ≠ 0)
    (v : Bool) (x y : BitVec 8) :
    drawPixel v x y s = { s with fb := (drawPixel v x y s).fb } := by
  rw [drawPixel_fb]
  simp only [drawPixel, readDepth, hm, if_true, if_neg hd]

/-- Settles O16: outside the plane the rule does not run; inside it one bit is written, and what
follows is that mode's: DIRTY, nothing, or BYTE_TX at the pixel's address. -/
theorem setPixelFollowsItsRule : Obligations.SetPixelFollowsItsRule := by
  intro s v x y hw he hready
  by_cases hin : x.toNat < 128 ∧ y.toNat < 64
  case neg =>
    exact ⟨_, exec_setPixel_outside hready v (by omega), fun _ => rfl,
      fun hx hy => absurd ⟨hx, hy⟩ hin⟩
  obtain ⟨hx, hy⟩ := hin
  refine ⟨_, exec_setPixel_inside hready v hx hy, fun hout => by omega, fun _ _ =>
    ⟨fun a j => ?bit, fun hm => ?buffered, fun hm hd => ?inBatch, fun hm hd => ?sent⟩⟩
  case bit =>
    refine (getLsbD_fbByte_drawPixel hw v x y a j).trans (if_congr ?_ rfl rfl)
    rw [← BitVec.toNat_inj, pixelAddr_toNat, pixelBit_toNat]
    omega
  case buffered =>
    exact congrArg (fun u : State => { u with cmdCount := s.cmdCount + 1 })
      (drawPixel_buffered hm v x y)
  case inBatch =>
    exact congrArg (fun u : State => { u with cmdCount := s.cmdCount + 1 })
      (drawPixel_inBatch hm hd v x y)
  case sent =>
    rw [← addrPlane_pixelAddr hx y, ← addrPage_pixelAddr, ← addrColumn_pixelAddr,
      drawPixel_sent hm hd]
    generalize (drawPixel v x y s).fb = fb
    exact ⟨rfl, rfl, byteTx_plane_not _ _, byteTx_plane_frame (s := { s with fb }) he _,
      dramByte_byteTx (s := { s with fb }) he hw.dramWf _⟩

end Sys2Proof.Machine

/-! SET_INVERTED by its rule (R120): a change of polarity complements FB and INV together, so that
every logical pixel is kept. -/

namespace Sys2Proof.Machine

/-! ## The command -/

/-- FB and INV both complemented, before anything is marked or sent (R120). -/
def invertPolarity (s : State) : State :=
  { s with fb := writeAll fun a => ~~~Memory.read s.fb a, inv := !s.inv }

theorem exec_setInverted_same {s : State} (h : Ready s) :
    exec (.setInverted s.inv) s = .next { s with cmdCount := s.cmdCount + 1 } := by
  change execSetInverted s.inv s = _
  rw [execSetInverted, command_of_ready h (by simp), if_pos rfl, complete]

theorem exec_setInverted_not {s : State} (h : Ready s) :
    exec (.setInverted (!s.inv)) s = .next (publishedAll (invertPolarity s)) := by
  change execSetInverted (!s.inv) s = _
  rw [execSetInverted, command_of_ready h (by simp), if_neg (Bool.not_ne_self _),
    complete_publishAll, invertPolarity]

/-! ## What a change of polarity does to bytes and pixels (R30) -/

theorem fbByte_invertPolarity (s : State) (a : BitVec 10) :
    fbByte (invertPolarity s) a = ~~~fbByte s a :=
  read_writeAll (fun n => ~~~Memory.read s.fb n) a.isLt

theorem storedBit_invertPolarity (s : State) (x y : BitVec 8) :
    storedBit (invertPolarity s) x y = !storedBit s x y := by
  have hbit : (pixelBit y).toNat < 8 := (pixelBit y).isLt
  rw [storedBit, fbByte_invertPolarity, BitVec.getLsbD_not, decide_eq_true hbit, Bool.true_and,
    storedBit]

/-- The two complements cancel in every logical pixel. -/
theorem logicalPixel_invertPolarity (s : State) (x y : BitVec 8) :
    logicalPixel (invertPolarity s) x y = logicalPixel s x y := by
  rw [logicalPixel, storedBit_invertPolarity, invertPolarity, Bool.not_xor_not, logicalPixel]

/-- Settles O20: with v = INV the command only counts; otherwise v = ¬INV, and it publishes the
buffer of the other polarity, as CLEAR publishes a uniform one. -/
theorem setInvertedFollowsItsRule : Obligations.SetInvertedFollowsItsRule := by
  intro s v hw he hready
  by_cases hv : v = s.inv
  case pos =>
    subst hv
    exact ⟨_, exec_setInverted_same hready, fun _ => rfl, fun hne => absurd rfl hne⟩
  obtain rfl : v = !s.inv := Bool.eq_not_of_ne hv
  refine ⟨_, exec_setInverted_not hready, fun hsame => absurd hsame hv, fun _ =>
    ⟨fun a => ?bytes, fun x y _ _ => ?pixels, publishedAll_buffered (u := invertPolarity s),
      publishedAll_immediate (u := invertPolarity s) he hw.dramWf⟩⟩
  case bytes => rw [fbByte_publishedAll, fbByte_invertPolarity]
  case pixels => rw [logicalPixel_publishedAll, logicalPixel_invertPolarity]

end Sys2Proof.Machine

/-! FLUSH, ENTER_BATCH and LEAVE_BATCH by their rules (R130 to R132), and the display that each
command leaves (R133). -/

namespace Sys2Proof.Machine

/-! ## Commands of one mode (R80) -/

/-- The instruction is a command with this rule, available in mode `m` only, and there once INIT is
done. -/
structure RunsOnlyIn (m : DrawMode) (i : Instr) (rule : State → Outcome) : Prop where
  exec_eq (s : State) : exec i s = command (wordOf i) rule s
  admission_eq (s : State) : admission (wordOf i) s = if s.cfg.drawMode = m then
    (if s.initDone = true then none else some .notInitialized) else some .modeUnavailable

section
variable {m : DrawMode} {i : Instr} {rule : State → Outcome} {s : State}

theorem RunsOnlyIn.exec_of_otherMode (hi : RunsOnlyIn m i rule) (hf : s.fault = .none)
    (hm : s.cfg.drawMode ≠ m) : exec i s = raise .modeUnavailable (wordOf i) s := by
  rw [hi.exec_eq, command_turned_away hf (by rw [hi.admission_eq, if_neg hm])]

theorem RunsOnlyIn.exec_before_init (hi : RunsOnlyIn m i rule) (hf : s.fault = .none)
    (hm : s.cfg.drawMode = m) (hinit : s.initDone = false) :
    exec i s = raise .notInitialized (wordOf i) s := by
  have hadm : admission (wordOf i) s = some .notInitialized := by simp [hi.admission_eq, hm, hinit]
  rw [hi.exec_eq, command_turned_away hf hadm]

theorem RunsOnlyIn.exec_of_ready (hi : RunsOnlyIn m i rule) (h : Ready s)
    (hm : s.cfg.drawMode = m) : exec i s = rule s := by
  obtain ⟨hf, hinit⟩ := h
  rw [hi.exec_eq, command_admitted hf (by rw [hi.admission_eq, if_pos hm, if_pos hinit])]

end

theorem flush_runsOnlyIn :
    RunsOnlyIn .buffered .flush fun s => complete (effect .flush s) where
  exec_eq _ := rfl
  admission_eq s := by
    refine (admission_flush (opcode_plainWord _) s).trans ?_
    cases s.cfg.drawMode <;> rfl

theorem enterBatch_runsOnlyIn :
    RunsOnlyIn .immediate .enterBatch fun s =>
      if depthAtMax s then raise .batchOverflow (wordOf .enterBatch) s
      else complete (effect .enterBatch s) where
  exec_eq _ := rfl
  admission_eq s := by
    refine (admission_batch (.inl (opcode_plainWord _)) s).trans ?_
    cases s.cfg.drawMode <;> rfl

theorem leaveBatch_runsOnlyIn :
    RunsOnlyIn .immediate .leaveBatch fun s =>
      if readDepth s = 0 then raise .batchUnderflow (wordOf .leaveBatch) s
      else complete (effect .leaveBatch s) where
  exec_eq _ := rfl
  admission_eq s := by
    refine (admission_batch (.inr (opcode_plainWord _)) s).trans ?_
    cases s.cfg.drawMode <;> rfl

/-! ## FLUSH (R130) -/

theorem writeDirty_buffered {s : State} (hm : s.cfg.drawMode = .buffered) (v : Bool) :
    writeDirty v s = { s with dirty := v } := if_pos hm

theorem effect_flush_clean {s : State} (hm : s.cfg.drawMode = .buffered) (hd : s.dirty = false) :
    effect .flush s = s := by
  rw [effect_flush, readDirty_buffered hm, hd, if_neg Bool.false_ne_true, writeDirty_buffered hm,
    ← hd]

theorem effect_flush_dirty {s : State} (hm : s.cfg.drawMode = .buffered) (hd : s.dirty = true) :
    effect .flush s = { fullTx s with dirty := false } := by
  rw [effect_flush, readDirty_buffered hm, if_pos hd, writeDirty_buffered (by rwa [fullTx_cfg])]

theorem exec_flush_clean {s : State} (h : Ready s) (hm : s.cfg.drawMode = .buffered)
    (hd : s.dirty = false) : exec .flush s = .next { s with cmdCount := s.cmdCount + 1 } := by
  rw [flush_runsOnlyIn.exec_of_ready h hm, effect_flush_clean hm hd, complete]

theorem exec_flush_dirty {s : State} (h : Ready s) (hm : s.cfg.drawMode = .buffered)
    (hd : s.dirty = true) :
    exec .flush s = .next { fullTx s with dirty := false, cmdCount := s.cmdCount + 1 } := by
  rw [flush_runsOnlyIn.exec_of_ready h hm, effect_flush_dirty hm hd, complete, fullTx_cmdCount]

/-- Settles O24: a dirty FLUSH leaves a ready block with DIRTY = 0, where the second one only
counts. -/
theorem flushFollowsItsRule : Obligations.FlushFollowsItsRule := by
  intro s hf
  refine ⟨fun hm => ?otherMode, flush_runsOnlyIn.exec_before_init hf,
    fun hm hinit hd => exec_flush_clean ⟨hf, hinit⟩ hm hd, fun hm hinit hd => ?dirty⟩
  case otherMode => exact flush_runsOnlyIn.exec_of_otherMode hf (by simp [hm])
  case dirty =>
    refine ⟨_, exec_flush_dirty ⟨hf, hinit⟩ hm hd, by simp, fullTx_trace s, ?_⟩
    exact exec_flush_clean ⟨by simpa using hf, by simpa using hinit⟩ (by simpa using hm) rfl

/-! ## ENTER_BATCH (R131) -/

theorem depthAtMax_iff {s : State} (hm : s.cfg.drawMode = .immediate) :
    depthAtMax s = true ↔ s.depth.toNat = 2 ^ s.cfg.depthBits - 1 := by
  rw [depthAtMax, readDepth_immediate hm, beq_iff_eq]

theorem writeDepth_immediate {s : State} (hm : s.cfg.drawMode = .immediate) (d : BitVec 16) :
    writeDepth d s = { s with depth := d } := if_pos hm

theorem exec_enterBatch_atMax {s : State} (h : Ready s) (hm : s.cfg.drawMode = .immediate)
    (hmax : depthAtMax s = true) :
    exec .enterBatch s = raise .batchOverflow (wordOf .enterBatch) s := by
  rw [enterBatch_runsOnlyIn.exec_of_ready h hm, if_pos hmax]

theorem exec_enterBatch_belowMax {s : State} (h : Ready s) (hm : s.cfg.drawMode = .immediate)
    (hmax : depthAtMax s ≠ true) :
    exec .enterBatch s = .next { s with depth := s.depth + 1, cmdCount := s.cmdCount + 1 } := by
  rw [enterBatch_runsOnlyIn.exec_of_ready h hm, if_neg hmax, effect_enterBatch,
    readDepth_immediate hm, writeDepth_immediate hm, complete]

theorem depth_succ_toNat {s : State} (hw : WellFormed s) (hm : s.cfg.drawMode = .immediate)
    (hmax : depthAtMax s ≠ true) : (s.depth + 1).toNat = s.depth.toNat + 1 := by
  have hne : s.depth + 1 ≠ 0 := depth_succ_ne_zero hw hm (Bool.eq_false_of_not_eq_true hmax)
  bv_omega

/-- Settles O25: at its maximum DEPTH is refused one more, and below it DEPTH + 1 does not wrap. -/
theorem enterBatchFollowsItsRule : Obligations.EnterBatchFollowsItsRule := by
  intro s hw hf
  refine ⟨fun hm => ?otherMode, enterBatch_runsOnlyIn.exec_before_init hf,
    fun hm hinit hmax => ?atMax, fun hm hinit hmax => ?belowMax⟩
  case otherMode => exact enterBatch_runsOnlyIn.exec_of_otherMode hf (by simp [hm])
  case atMax => exact exec_enterBatch_atMax ⟨hf, hinit⟩ hm ((depthAtMax_iff hm).2 hmax)
  case belowMax =>
    rw [Ne, ← depthAtMax_iff hm] at hmax
    exact ⟨_, exec_enterBatch_belowMax ⟨hf, hinit⟩ hm hmax, rfl, depth_succ_toNat hw hm hmax⟩

/-! ## LEAVE_BATCH (R132) -/

theorem exec_leaveBatch_outside {s : State} (h : Ready s) (hm : s.cfg.drawMode = .immediate)
    (hd : s.depth = 0) :
    exec .leaveBatch s = raise .batchUnderflow (wordOf .leaveBatch) s := by
  rw [leaveBatch_runsOnlyIn.exec_of_ready h hm, readDepth_immediate hm, if_pos hd]

theorem exec_leaveBatch_inside {s : State} (h : Ready s) (hm : s.cfg.drawMode = .immediate)
    (hd : s.depth ≠ 0) : exec .leaveBatch s = complete (effect .leaveBatch s) := by
  rw [leaveBatch_runsOnlyIn.exec_of_ready h hm, readDepth_immediate hm, if_neg hd]

/-- LEAVE_BATCH lowers DEPTH, and sends the buffer when that ends the outermost batch. -/
theorem effect_leaveBatch_immediate {s : State} (hm : s.cfg.drawMode = .immediate) :
    effect .leaveBatch s = if s.depth - 1 = 0 then fullTx { s with depth := s.depth - 1 }
      else { s with depth := s.depth - 1 } := by
  rw [effect_leaveBatch, readDepth_immediate hm, writeDepth_immediate hm,
    readDepth_immediate (s := { s with depth := s.depth - 1 }) hm]

theorem exec_leaveBatch_inner {s : State} (h : Ready s) (hm : s.cfg.drawMode = .immediate)
    (hd : 1 < s.depth.toNat) :
    exec .leaveBatch s = .next { s with depth := s.depth - 1, cmdCount := s.cmdCount + 1 } := by
  rw [exec_leaveBatch_inside h hm (by bv_omega), effect_leaveBatch_immediate hm,
    if_neg (by bv_omega), complete]

theorem exec_leaveBatch_outermost {s : State} (h : Ready s) (hm : s.cfg.drawMode = .immediate)
    (hd : s.depth.toNat = 1) :
    exec .leaveBatch s
      = .next { fullTx { s with depth := 0 } with cmdCount := s.cmdCount + 1 } := by
  have hzero : s.depth - 1 = 0 := by bv_omega
  rw [exec_leaveBatch_inside h hm (by bv_omega), effect_leaveBatch_immediate hm, if_pos hzero,
    hzero, complete, fullTx_cmdCount]

/-- Settles O26: the three depths that R132 tells apart, with the buffer sent from the last one
only. -/
theorem leaveBatchFollowsItsRule : Obligations.LeaveBatchFollowsItsRule := by
  intro s hw hf
  refine ⟨fun hm => ?otherMode, leaveBatch_runsOnlyIn.exec_before_init hf,
    fun hm hinit hd => exec_leaveBatch_outside ⟨hf, hinit⟩ hm hd, fun hm hinit hd => ?inner,
    fun hm hinit hd => ?outermost⟩
  case otherMode => exact leaveBatch_runsOnlyIn.exec_of_otherMode hf (by simp [hm])
  case inner =>
    have hdepth : (s.depth - 1).toNat = s.depth.toNat - 1 := by bv_omega
    exact ⟨_, exec_leaveBatch_inner ⟨hf, hinit⟩ hm hd, rfl, hdepth⟩
  case outermost =>
    exact ⟨_, exec_leaveBatch_outermost ⟨hf, hinit⟩ hm hd, by simp,
      fullTx_trace { s with depth := 0 }⟩

/-! ## What every instruction keeps (R6, R25) -/

@[simp] theorem effect_cfg (i : Instr) (s : State) : (effect i s).cfg = s.cfg := by
  cases i with
  | init => exact (resetBody_cfg _).trans (initSetup_cfg s)
  | reset => exact resetBody_cfg s
  | setPixel v x y => rw [effect_setPixel]; split <;> simp
  | clear => exact publishAll_cfg _
  | fill => exact publishAll_cfg _
  | setInverted v => rw [effect_setInverted]; split <;> simp
  | flush => rw [effect_flush]; split <;> simp
  | enterBatch => exact writeDepth_cfg _ s
  | leaveBatch => rw [effect_leaveBatch]; split <;> simp
  | _ => rfl

/-- INIT sets INIT_DONE and no command clears it (R25). -/
theorem effect_initDone {s : State} (h : s.initDone = true) (i : Instr) :
    (effect i s).initDone = true := by
  cases i with
  | init => exact (resetBody_initDone _).trans (initSetup_initDone s)
  | reset => exact (resetBody_initDone s).trans h
  | setPixel v x y => rw [effect_setPixel]; split <;> simp [h]
  | clear => exact (publishAll_initDone _).trans h
  | fill => exact (publishAll_initDone _).trans h
  | setInverted v => rw [effect_setInverted]; split <;> simp [h]
  | flush => rw [effect_flush]; split <;> simp [h]
  | enterBatch => exact (writeDepth_initDone _ s).trans h
  | leaveBatch => rw [effect_leaveBatch]; split <;> simp [h]
  | _ => exact h

theorem exec_cfg {i : Instr} {s t : State} (h : exec i s = .next t) : t.cfg = s.cfg := by
  cases exec_cases h with
  | device cs0 cs1 f _ ht => rw [ht]
  | raised _ _ c _ ht => rw [ht]
  | completed _ _ _ ht => rw [ht]; exact effect_cfg i s

theorem exec_initDone {i : Instr} {s t : State} (h : exec i s = .next t)
    (hinit : s.initDone = true) : t.initDone = true := by
  cases exec_cases h with
  | device cs0 cs1 f _ ht => rw [ht]; exact hinit
  | raised _ _ c _ ht => rw [ht]; exact hinit
  | completed _ _ _ ht => rw [ht]; exact effect_initDone hinit i

/-! ## What the commands promise of the display (R133) -/

theorem planeEffect_of_isCommand {i : Instr} (h : isCommand i = true) : planeEffect i = none := by
  cases i with
  | devSetColumn | devSetPage | devSetStartLine | devWriteData | devDisplayOnOff => cases h
  | _ => rfl

section
variable {i : Instr} {s t : State} (hw : WellFormed s) (he : s.cfg.devEnc.wf = true)
  (hc : Consistent s) (hinit : s.initDone = true) (hi : isCommand i = true)
  (h : exec i s = .next t)
include hw he hc hinit hi h

/-- In Immediate mode every command that ends outside a batch leaves the display equal to the
buffer. -/
theorem sync_of_exec_immediate (hm : s.cfg.drawMode = .immediate) (hd : t.depth = 0) : Sync t :=
  have hcons : Consistent t := consistent_exec hw he hc (planeEffect_of_isCommand hi) h
  (hcons (exec_initDone h hinit)).1 (by rwa [exec_cfg h]) hd

/-- In Buffered mode every command that ends with DIRTY = 0 leaves the display equal to the
buffer. -/
theorem sync_of_exec_buffered (hm : s.cfg.drawMode = .buffered) (hd : t.dirty = false) : Sync t :=
  have hcons : Consistent t := consistent_exec hw he hc (planeEffect_of_isCommand hi) h
  (hcons (exec_initDone h hinit)).2 (by rwa [exec_cfg h]) hd

end

/-- Settles O27: every command keeps consistency, FLUSH ends with DIRTY = 0, and leaving the
outermost batch ends with DEPTH = 0. -/
theorem flushAndOutermostLeaveSynchronise : Obligations.FlushAndOutermostLeaveSynchronise := by
  intro s hw he hc hready
  have hinit : s.initDone = true := hready.2
  refine ⟨fun hm => ?flush, fun hm hd => ?leave, fun i t hi hm h hd => ?every⟩
  case flush =>
    have hclean : (effect .flush s).dirty = false := by
      rw [effect_flush, writeDirty_dirty, if_pos (by split <;> exact hm)]
    have hrun : exec .flush s = complete (effect .flush s) :=
      flush_runsOnlyIn.exec_of_ready hready hm
    exact ⟨_, hrun, sync_of_exec_buffered hw he hc hinit rfl hrun hm hclean, hclean⟩
  case leave =>
    have hrun := exec_leaveBatch_outermost hready hm hd
    exact ⟨_, hrun, sync_of_exec_immediate hw he hc hinit rfl hrun hm rfl⟩
  case every => exact sync_of_exec_immediate hw he hc hinit hi h hm hd

end Sys2Proof.Machine

/-! FULL_TX and BYTE_TX by their rules (R140, R141): what each sends, what it leaves on the device,
and that it changes only TRACE, the pins and the device. -/

namespace Sys2Proof.Machine

theorem Device.dramWf_of_planes {d : Device} (h0 : Memory.wf dramSize d.plane0.dram = true)
    (h1 : Memory.wf dramSize d.plane1.dram = true) : d.DramWf
  | false => h0
  | true => h1

theorem txAll_frame (qs : List Quad) (s : State) : txAll qs s = { s with
    trace := (txAll qs s).trace, port := (txAll qs s).port, dev := (txAll qs s).dev } := rfl

/-- A plane after FULL_TX: both pointers 0, every byte the buffer's, START and the display's on/off
as they were. -/
theorem fullTx_plane {s : State} (he : s.cfg.devEnc.wf = true) (hd : s.dev.DramWf) (k : Bool) :
    ∃ m, (fullTx s).dev.plane k = { s.dev.plane k with col := 0, page := 0, dram := m }
      ∧ ∀ p c, Memory.read m (dramAddr p c)
          = Memory.read s.fb (k.toNat * 512 + p.toNat * 64 + c.toNat) := by
  obtain ⟨m, hplane, -, hread⟩ := planeFold_fullTxQuads he s.fb k (hd k)
  exact ⟨m, by rw [fullTx, txAll_plane, hplane], hread⟩

theorem dramByte_fullTx {s : State} (he : s.cfg.devEnc.wf = true) (hd : s.dev.DramWf) (k : Bool)
    (p : BitVec 3) (c : BitVec 6) : dramByte (fullTx s) k p c
      = Memory.read s.fb (k.toNat * 512 + p.toNat * 64 + c.toNat) := by
  obtain ⟨m, hplane, hread⟩ := fullTx_plane he hd k
  rw [dramByte, hplane, hread]

/-- Settles O28: FULL_TX is a transmission of its quads, which are those of R140, and each plane
ends as `fullTx_plane` says. -/
theorem fullTxMakesTheDisplayEqualTheBuffer : Obligations.FullTxMakesTheDisplayEqualTheBuffer := by
  intro s h0 h1 he
  have hd : s.dev.DramWf := Device.dramWf_of_planes h0 h1
  refine ⟨txAll_frame _ s, ?sequence, dramByte_fullTx he hd, fun k => ?pointers⟩
  case sequence =>
    simp only [fullTx_trace, fullTxQuads, planeQuads, pageQuads, commandTo, quadTo, DevEnc.byteOf,
      List.map_append, List.map_cons, List.map_nil, List.map_flatMap, List.map_map,
      Function.comp_def, List.flatMap_cons, List.flatMap_nil, List.append_nil, List.append_assoc]
  case pointers =>
    obtain ⟨m, hplane, -⟩ := fullTx_plane he hd k
    simp [hplane]

/-- Settles O30: the three quads of BYTE_TX go to the plane of the address, where the last one
writes the byte and moves the column. -/
theorem byteTxWritesExactlyItsByte : Obligations.ByteTxWritesExactlyItsByte := by
  intro s a h0 h1 he
  exact ⟨byteTx_trace a s, byteTx_plane_not a s, byteTx_plane_frame he a,
    dramByte_byteTx he (Device.dramWf_of_planes h0 h1) a⟩

end Sys2Proof.Machine

/-! The quad counts (R151). Which quads are command and which data quads depends on neither DEV_ENC
nor the buffer, so the counts are those of a fixed sequence of modes. -/

namespace Sys2Proof.Machine

/-! ## The modes of what the procedures send -/

theorem countP_mode_eq (m : QuadMode) (qs : List Quad) :
    (qs.countP fun q => q.mode = m) = (qs.map Quad.mode).count m := by
  rw [List.count, List.countP_map]
  rfl

/-- A page select, then the 64 bytes of a page. -/
def pageModes : List QuadMode := .cmd :: List.replicate 64 .data

/-- A column select, then the eight pages of a plane. -/
def planeModes : List QuadMode := .cmd :: (List.replicate 8 pageModes).flatten

theorem pageQuads_modes (e : DevEnc) (fb : Memory) (k : Bool) (p : Nat) :
    (pageQuads e fb k p).map Quad.mode = pageModes := by
  rw [pageQuads, List.map_cons, List.map_map]
  exact congrArg (QuadMode.cmd :: ·) (List.map_const' ..)

theorem planeQuads_modes (e : DevEnc) (fb : Memory) (k : Bool) :
    (planeQuads e fb k).map Quad.mode = planeModes := by
  simp only [planeQuads, List.map_cons, List.map_flatMap, pageQuads_modes]
  rfl

theorem fullTxQuads_modes (e : DevEnc) (fb : Memory) :
    (fullTxQuads e fb).map Quad.mode = planeModes ++ planeModes ++ [.cmd, .cmd] := by
  simp only [fullTxQuads, List.map_append, planeQuads_modes]
  rfl

theorem fullTxQuads_length (e : DevEnc) (fb : Memory) : (fullTxQuads e fb).length = 1044 := by
  rw [← List.length_map (f := Quad.mode), fullTxQuads_modes]
  simp [planeModes, pageModes, -List.reduceReplicate]

theorem zeroPointerQuads_length (e : DevEnc) : (zeroPointerQuads e).length = 6 := rfl

theorem initExtraQuads_length (c : Config) : (initExtraQuads c).length = c.initExtra.length :=
  List.length_map _

/-! ## What RESET and INIT append to TRACE -/

/-- A command that answers a state without a fault has completed. -/
theorem eq_effect_of_exec {i : Instr} {s t : State} (hi : isCommand i = true)
    (h : exec i s = .next t) (hf : t.fault = .none) :
    t = { effect i s with cmdCount := (effect i s).cmdCount + 1 } := by
  cases exec_cases h with
  | device cs0 cs1 f hp _ => cases hp.symm.trans (planeEffect_of_isCommand hi)
  | raised _ _ c hc ht => exact absurd (by rw [ht] at hf; exact hf) hc
  | completed _ _ _ ht => exact ht

theorem count_resetPulse_quads (qs : List Quad) :
    (qs.map TraceEvent.quad).count .resetPulse = 0 := by
  simp [List.count_eq_zero]

theorem resetBody_trace_length (s : State) :
    (resetBody s).trace.length = s.trace.length + 1050 := by
  simp [resetBody_trace, zeroPointerQuads_length, fullTxQuads_length]

theorem resetBody_trace_count_resetPulse (s : State) :
    (resetBody s).trace.count .resetPulse = s.trace.count .resetPulse := by
  simp [resetBody_trace, count_resetPulse_quads]

/-- What INIT step 2 appends to TRACE: six quads, or the reset pulse (R100). -/
def addressingEvents (c : Config) : List TraceEvent :=
  match c.initAddrMethod with
  | .zeroCmds => (zeroPointerQuads c.devEnc).map .quad
  | .hwReset => [.resetPulse]

theorem initAddressing_trace (s : State) :
    (initAddressing s).trace = s.trace ++ addressingEvents s.cfg := by
  cases hm : s.cfg.initAddrMethod <;> simp [initAddressing, addressingEvents, hm]

theorem initSetup_trace (s : State) :
    (initSetup s).trace
      = s.trace ++ addressingEvents s.cfg ++ (initExtraQuads s.cfg).map .quad := by
  simp [initSetup, initAddressing_trace]

theorem effect_init (s : State) : effect .init s = idlePins (resetBody (initSetup s)) := rfl

theorem init_trace_length (s : State) :
    (effect .init s).trace.length
      = s.trace.length + (addressingEvents s.cfg).length + s.cfg.initExtra.length + 1050 := by
  rw [effect_init, idlePins_trace, resetBody_trace_length]
  simp [ initSetup_trace, initExtraQuads_length, Nat.add_assoc]

theorem init_trace_count_resetPulse (s : State) :
    (effect .init s).trace.count .resetPulse
      = s.trace.count .resetPulse + (addressingEvents s.cfg).count .resetPulse := by
  rw [effect_init, idlePins_trace, resetBody_trace_count_resetPulse]
  simp [ initSetup_trace, count_resetPulse_quads]

/-- Settles O31: the modes of FULL_TX are counted, and RESET and INIT append it after the pointers
they zero. -/
theorem quadCountsAreAsGiven : Obligations.QuadCountsAreAsGiven := by
  refine ⟨fun e fb => ⟨fullTxQuads_length e fb, ?data, ?cmd, fun a => ⟨rfl, rfl⟩⟩,
    fun s t h hf => ?reset, fun s t h hf => ?init⟩
  case data | cmd =>
    rw [countP_mode_eq, fullTxQuads_modes]
    simp [planeModes, pageModes, List.count_flatten, List.count_replicate, -List.reduceReplicate]
  case reset =>
    rw [eq_effect_of_exec rfl h hf]
    exact resetBody_trace_length s
  case init =>
    rw [eq_effect_of_exec rfl h hf]
    refine ⟨fun hm => ⟨?zeroLength, ?zeroCount⟩, fun hm => ⟨?pulseLength, ?pulseCount⟩⟩
    case zeroLength | pulseLength =>
      simp [init_trace_length, addressingEvents, hm, zeroPointerQuads_length]
    case zeroCount | pulseCount =>
      simp [init_trace_count_resetPulse, addressingEvents, hm, count_resetPulse_quads]

end Sys2Proof.Machine

/-! A data byte from outside the block on the device's planes (R164). -/

namespace Sys2Proof.Machine

theorem exec_devWriteData (cs0 cs1 : Bool) (d : Byte) (s : State) :
    exec (.devWriteData cs0 cs1 d) s = deviceCommand cs0 cs1 (Plane.writeData d) s := rfl

theorem Plane.writeData_col_toNat (b : Byte) (pl : Plane) :
    (Plane.writeData b pl).col.toNat = (pl.col.toNat + 1) % 64 :=
  BitVec.toNat_add ..

/-- Of a plane's RAM, WRITE_DATA changes the byte at (PAGE, COL) and no other. -/
theorem Plane.read_writeData (b : Byte) {pl : Plane} (hw : Memory.wf dramSize pl.dram = true)
    (p : BitVec 3) (c : BitVec 6) :
    Memory.read (Plane.writeData b pl).dram (dramAddr p c)
      = if p = pl.page ∧ c = pl.col then b else Memory.read pl.dram (dramAddr p c) := by
  rw [Plane.writeData, Memory.read_write hw]
  refine if_congr ⟨dramAddr_inj, ?_⟩ rfl rfl
  rintro ⟨rfl, rfl⟩
  rfl

/-- Settles O37: each selected plane takes WRITE_DATA, whose byte lands at its pointers, and an
unselected plane stays as it was. -/
theorem dataByteLandsAtThePointers : Obligations.DataByteLandsAtThePointers := by
  intro s cs0 cs1 d h0 h1
  refine ⟨_, exec_devWriteData cs0 cs1 d s, rfl, fun k => ?_⟩
  have hplane := Device.onSelected_plane cs0 cs1 (Plane.writeData d) s.dev k
  by_cases hsel : if k then cs1 else cs0
  case pos =>
    rw [if_pos hsel] at hplane ⊢
    simp only [dramByte, hplane]
    exact ⟨Plane.writeData_col_toNat .., rfl,
      Plane.read_writeData d (Device.dramWf_of_planes h0 h1 k)⟩
  case neg =>
    rw [if_neg hsel] at hplane ⊢
    exact hplane

end Sys2Proof.Machine

/-! Faults (R180 to R182): the word that a decoded instruction arrived as, that a raised fault changes
nothing else and is final, and which of the faults that apply a command word ends with. -/

namespace Sys2Proof.Machine

/-! ## The word of a decoded instruction (R73) -/

/-- A word that matches a row is the row's fixed bits and the bits that the mask leaves open. -/
theorem eq_or_of_match {w mask fixed : Word} (h : w &&& mask = fixed) :
    w = fixed ||| (w &&& ~~~mask) := by
  rw [← h]
  ext j
  simp only [BitVec.getElem_or, BitVec.getElem_and, BitVec.getElem_not]
  cases mask[j] <;> simp

theorem eq_of_fullMatch {w fixed : Word} (h : w &&& 0xFFFFFFFF#32 = fixed) : w = fixed := by
  simpa using eq_or_of_match h

theorem commandWord_setPixel (w : Word) :
    commandWord 0x3#4 (operandV w) (operandX w) (operandY w)
      = 0x30000000#32 ||| (w &&& ~~~0xFFFE0000#32) := by
  ext i hi
  interval_cases i <;> simp [commandWord, operandV, operandX, operandY]

theorem commandWord_setInverted (w : Word) :
    commandWord 0x6#4 (operandV w) 0 0 = 0x60000000#32 ||| (w &&& ~~~0xFFFEFFFF#32) := by
  ext i hi
  interval_cases i <;> simp [commandWord, operandV]

theorem row_ok {mask fixed w : Word} {i j : Instr} (h : row mask fixed w i = .ok j) :
    w &&& mask = fixed ∧ i = j := by
  unfold row at h
  split at h
  · exact ⟨‹_›, Except.ok.inj h⟩
  · cases h

/-- The word that an instruction records when it faults is the one it was decoded from. Apart are the
six illegal opcodes, which keep their word, and the two rows with operands. -/
theorem wordOf_of_decodeWord {w : Word} {i : Instr} (h : decodeWord w = .ok i) : wordOf i = w := by
  unfold decodeWord at h
  split at h
  case h_1 | h_12 | h_13 | h_14 | h_15 | h_16 => cases h; rfl
  all_goals obtain ⟨hm, rfl⟩ := row_ok h
  case h_4 => exact (commandWord_setPixel w).trans (eq_or_of_match hm).symm
  case h_7 => exact (commandWord_setInverted w).trans (eq_or_of_match hm).symm
  all_goals exact (eq_of_fullMatch hm).symm

theorem step_of_decodeWord_ok {s : State} {w : Word} {rest : List InboxItem} {i : Instr}
    (hv : s.cfg.valid = true) (hi : s.inbox = .command w :: rest) (hd : decodeWord w = .ok i) :
    step s = exec i { s with inbox := rest } := by
  simp [step, hv, fetch, hi, decode, hd]

/-! ## A raised fault changes nothing else (R181) -/

@[simp] theorem effect_fault (i : Instr) (s : State) : (effect i s).fault = s.fault := by
  cases i with
  | init => exact (resetBody_fault _).trans (initSetup_fault s)
  | reset => exact resetBody_fault s
  | setPixel v x y => rw [effect_setPixel]; split <;> simp
  | clear => exact publishAll_fault _
  | fill => exact publishAll_fault _
  | setInverted v => rw [effect_setInverted]; split <;> simp
  | flush => rw [effect_flush]; split <;> simp
  | enterBatch => exact writeDepth_fault _ s
  | leaveBatch => rw [effect_leaveBatch]; split <;> simp
  | _ => rfl

/-- A step of a command word that ends in a fault has raised it, since a command that completes leaves
FAULT as it was. -/
theorem eq_raised_of_step {s t : State} {w : Word} {rest : List InboxItem} (hf : s.fault = .none)
    (hi : s.inbox = .command w :: rest) (h : step s = .next t) (ht : t.fault ≠ .none) :
    t = { s with
      inbox := rest, fault := t.fault, faultIndex := s.cmdCount, faultWord := w } := by
  obtain ⟨-, hstep⟩ := step_cases h
  cases hstep with
  | idle hnil => cases hi.symm.trans hnil
  | ran item rest' i hcons hd hrun =>
    cases hi.symm.trans hcons
    cases exec_cases hrun with
    | device _ _ _ hp => cases (planeEffect_of_decodeWord hd).symm.trans hp
    | raised _ _ c _ heq => rw [heq, wordOf_of_decodeWord hd]
    | completed _ _ _ heq =>
      have hnone : t.fault = .none := by rw [heq]; exact (effect_fault i _).trans hf
      exact absurd hnone ht
  | reserved w' rest' hcons _ _ heq =>
    cases hi.symm.trans hcons
    rw [heq]
  | passed q rest' hcons => cases hi.symm.trans hcons

/-! ## A faulted block is stuck (R26, R181) -/

theorem command_faulted {w : Word} {rule : State → Outcome} {s : State} (hf : s.fault ≠ .none) :
    command w rule s = .fault (.stuck s.fault) := accept_faulted hf

theorem exec_faulted {i : Instr} {s : State} (hi : planeEffect i = none) (hf : s.fault ≠ .none) :
    exec i s = .fault (.stuck s.fault) := by
  cases i with
  | devSetColumn | devSetPage | devSetStartLine | devWriteData | devDisplayOnOff => cases hi
  | illegalOp0 | illegalOpB | illegalOpC | illegalOpD | illegalOpE | illegalOpF =>
    exact accept_faulted hf
  | _ =>
    unfold exec
    exact command_faulted hf

/-- A faulted block takes no word, whether the word decodes or not. -/
theorem step_command_faulted {s : State} {w : Word} {rest : List InboxItem}
    (hv : s.cfg.valid = true) (hf : s.fault ≠ .none) (hi : s.inbox = .command w :: rest) :
    step s = .fault (.stuck s.fault) := by
  cases hd : decodeWord w with
  | ok i =>
    rw [step_of_decodeWord_ok hv hi hd]
    exact exec_faulted (planeEffect_of_decodeWord hd) hf
  | error r =>
    simp [step, hv, fetch, hi, decode, hd, rejected, reservedCommand, accept_faulted, hf]

/-- Of a faulted block only the display still steps, and it leaves FAULT as it is. -/
theorem step_keeps_fault {s t : State} (hf : s.fault ≠ .none) (h : step s = .next t) :
    t.fault = s.fault := by
  obtain ⟨-, hstep⟩ := step_cases h
  cases hstep with
  | idle _ hnone => exact absurd hnone hf
  | ran item rest i _ _ hrun =>
    cases exec_cases hrun with
    | device _ _ _ _ ht => rw [ht]
    | raised _ hnone => exact absurd hnone hf
    | completed _ hnone => exact absurd hnone hf
  | reserved _ _ _ _ hnone => exact absurd hnone hf
  | passed _ _ _ _ ht => rw [ht]

/-- Settles O10: the step has raised its fault and kept the configuration, and a faulted block takes
no word and keeps its fault. -/
theorem faultsArePreciseAndFinal : Obligations.FaultsArePreciseAndFinal := by
  intro s t w rest hf hi h ht
  have hframe := eq_raised_of_step hf hi h ht
  have hv : t.cfg.valid = true := by rw [hframe]; exact (step_cases h).1
  exact ⟨hframe, fun w' rest' => step_command_faulted hv ht rfl, fun u => step_keeps_fault ht⟩

/-! ## Faults of decoding: the first two of R182 -/

theorem decodeWord_of_illegalOpcode {w : Word} (h : opcode w = 0x0#4 ∨ 0xB ≤ (opcode w).toNat) :
    ∃ i, decodeWord w = .ok i ∧ exec i = illegalCommand w := by
  have hmem : opcode w ∈ [0x0#4, 0xB#4, 0xC#4, 0xD#4, 0xE#4, 0xF#4] := by
    revert h
    generalize opcode w = op
    revert op
    decide
  unfold decodeWord
  generalize opcode w = op at hmem ⊢
  fin_cases hmem <;> exact ⟨_, rfl, rfl⟩

/-- Every other opcode is that of a row of R73. -/
theorem exists_row_of_opcode {op : BitVec 4} (h : ¬ (op = 0x0#4 ∨ 0xB ≤ op.toNat)) :
    ∃ r ∈ commandRows, op = opcode r.2 := by
  revert op
  decide

theorem decodeWord_of_no_match {w : Word} (hop : ¬ (opcode w = 0x0#4 ∨ 0xB ≤ (opcode w).toNat))
    (hno : ∀ r ∈ commandRows, w &&& r.1 ≠ r.2) : decodeWord w = .error .reservedField := by
  obtain ⟨r, hr, hrop⟩ := exists_row_of_opcode hop
  obtain ⟨i, hdec⟩ := decodeWord_eq_row hr hrop
  exact hdec.trans (row_of_mask_ne (hno r hr) i)

/-- The masks of the ten rows keep the opcode. -/
theorem opcode_of_match {w mask fixed : Word} (hrow : (mask, fixed) ∈ commandRows)
    (hm : w &&& mask = fixed) : opcode w = opcode fixed := by
  have hmask : mask.extractLsb' 28 4 = BitVec.allOnes 4 := by fin_cases hrow <;> rfl
  rw [← hm, opcode, opcode, BitVec.extractLsb'_and, hmask, BitVec.and_allOnes]

theorem decodeWord_of_match {w mask fixed : Word} (hrow : (mask, fixed) ∈ commandRows)
    (hm : w &&& mask = fixed) :
    ∃ i, decodeWord w = .ok i ∧ Laws.EncodedForm.tableForm i = .inl (mask, fixed) := by
  unfold decodeWord
  rw [opcode_of_match hrow hm]
  fin_cases hrow <;> exact ⟨_, if_pos hm, rfl⟩

/-! ## Faults of a command of the table: the others of R182 -/

/-- The fault that the rule of a command raises when its depth test fails, by the command's word
(R131, R132). -/
def ruleFault (w : Word) (s : State) : FaultCause :=
  if opcode w = 0xA#4 ∧ s.depth = 0 then .batchUnderflow
  else if opcode w = 0x9#4 ∧ s.depth.toNat = 2 ^ s.cfg.depthBits - 1 then .batchOverflow
  else .none

theorem ruleFault_of_not_batch {w : Word} (h : opcode w ∉ [0x9#4, 0xA#4]) (s : State) :
    ruleFault w s = .none := by
  simp only [List.mem_cons, List.not_mem_nil, or_false, not_or] at h
  obtain ⟨h9, hA⟩ := h
  simp [ruleFault, h9, hA]

theorem ruleFault_enterBatch {s : State} (hm : s.cfg.drawMode = .immediate) :
    ruleFault (wordOf .enterBatch) s = if depthAtMax s then .batchOverflow else .none := by
  simp only [depthAtMax_iff hm]
  simp [ruleFault, wordOf, encode]

theorem ruleFault_leaveBatch {s : State} (hm : s.cfg.drawMode = .immediate) :
    ruleFault (wordOf .leaveBatch) s = if readDepth s = 0 then .batchUnderflow else .none := by
  rw [readDepth_immediate hm]
  simp [ruleFault, wordOf, encode]

/-- The order of R182 after decoding: what turns a command away comes before what its rule raises. -/
theorem admission_getD_ruleFault (w : Word) (s : State) :
    (admission w s).getD (ruleFault w s) =
      if (opcode w = 0x8#4 ∧ s.cfg.drawMode = .immediate) ∨
          ((opcode w = 0x9#4 ∨ opcode w = 0xA#4) ∧ s.cfg.drawMode = .buffered) then
        .modeUnavailable
      else if opcode w = 0x1#4 ∧ s.initDone = true then .reinit
      else if opcode w ≠ 0x1#4 ∧ s.initDone = false then .notInitialized
      else ruleFault w s := by
  rw [admission, ite_or]
  split_ifs <;> rfl

theorem RunsOnlyIn.mode_of_admitted {m : DrawMode} {i : Instr} {rule : State → Outcome} {s : State}
    (hi : RunsOnlyIn m i rule) (ha : admission (wordOf i) s = none) : s.cfg.drawMode = m := by
  by_contra hm
  rw [hi.admission_eq, if_neg hm] at ha
  cases ha

section
variable {i : Instr} {s : State} (hf : s.fault = .none)
include hf

/-- A command ends with the fault that turns it away, or else as its rule does. -/
theorem command_ends {w : Word} {rule : State → Outcome} {c : FaultCause}
    (hrule : admission w s = none → ∃ t, rule s = .next t ∧ t.fault = c) :
    ∃ t, command w rule s = .next t ∧ t.fault = (admission w s).getD c := by
  cases ha : admission w s with
  | none => simpa [command_admitted hf ha] using hrule ha
  | some c' => exact ⟨_, command_turned_away hf ha, rfl⟩

theorem complete_ends : ∃ t, complete (effect i s) = .next t ∧ t.fault = .none :=
  ⟨_, rfl, (effect_fault i s).trans hf⟩

/-- A rule that tests for a fault first, as R131 and R132 do. -/
theorem guarded_ends (p : Prop) [Decidable p] (c : FaultCause) (w : Word) :
    ∃ t, (if p then raise c w s else complete (effect i s)) = .next t ∧
      t.fault = if p then c else .none := by
  split
  · exact ⟨_, rfl, rfl⟩
  · exact complete_ends hf

theorem exec_ends_of_completing (hop : opcode (wordOf i) ∉ [0x9#4, 0xA#4])
    (hrun : exec i s = command (wordOf i) (fun s => complete (effect i s)) s) :
    ∃ t, exec i s = .next t ∧
      t.fault = (admission (wordOf i) s).getD (ruleFault (wordOf i) s) := by
  rw [hrun, ruleFault_of_not_batch hop]
  exact command_ends hf fun _ => complete_ends hf

/-- Every command of the table ends with the fault that turns it away, or else with the one its rule
raises, and completes when there is neither. -/
theorem exec_ends {r : Word × Word} (hr : r ∈ commandRows)
    (hi : Laws.EncodedForm.tableForm i = .inl r) :
    ∃ t, exec i s = .next t ∧
      t.fault = (admission (wordOf i) s).getD (ruleFault (wordOf i) s) := by
  cases i with
  | enterBatch =>
    rw [enterBatch_runsOnlyIn.exec_eq]
    refine command_ends hf fun ha => ?_
    rw [ruleFault_enterBatch (enterBatch_runsOnlyIn.mode_of_admitted ha)]
    exact guarded_ends hf ..
  | leaveBatch =>
    rw [leaveBatch_runsOnlyIn.exec_eq]
    refine command_ends hf fun ha => ?_
    rw [ruleFault_leaveBatch (leaveBatch_runsOnlyIn.mode_of_admitted ha)]
    exact guarded_ends hf ..
  | illegalOp0 | illegalOpB | illegalOpC | illegalOpD | illegalOpE | illegalOpF =>
    cases hi
    exact absurd hr (by decide)
  | devSetColumn | devSetPage | devSetStartLine | devWriteData | devDisplayOnOff => cases hi
  | _ => exact exec_ends_of_completing hf (by simp [wordOf, encode]) rfl

end

/-- Settles O9: an illegal opcode and a word of no row end in decoding's faults, and a word of a row
is a command, whose admission and rule decide in the order of R182. -/
theorem firstApplicableFaultIsReported : Obligations.FirstApplicableFaultIsReported := by
  intro s w rest hv hf hi
  by_cases hop : opcode w = 0x0#4 ∨ 0xB ≤ (opcode w).toNat
  · obtain ⟨i, hd, hrun⟩ := decodeWord_of_illegalOpcode hop
    rw [step_of_decodeWord_ok hv hi hd, hrun]
    exact ⟨_, accept_running hf, (if_pos hop).symm⟩
  simp only [if_neg hop]
  by_cases hno : ∀ r ∈ commandRows, w &&& r.1 ≠ r.2
  · exact ⟨_, step_of_decodeWord_error hv hf hi (decodeWord_of_no_match hop hno),
      (if_pos hno).symm⟩
  simp only [if_neg hno]
  push Not at hno
  obtain ⟨r, hr, hm⟩ := hno
  obtain ⟨i, hd, hform⟩ := decodeWord_of_match hr hm
  obtain ⟨t, hrun, ht⟩ := exec_ends (s := { s with inbox := rest }) hf hr hform
  rw [wordOf_of_decodeWord hd, admission_getD_ruleFault] at ht
  exact ⟨t, (step_of_decodeWord_ok hv hi hd).trans hrun, ht⟩

end Sys2Proof.Machine

/-! After power-on (R200): before INIT has run, R80 turns away every command but INIT. -/

namespace Sys2Proof.Machine

theorem powerOn_reset : PowerOn State.reset := ⟨rfl, rfl, rfl, rfl, rfl, rfl, fun _ => rfl⟩

/-- Whatever its mode, a command other than INIT is not admitted before INIT (R80). -/
theorem exists_admission_before_init {w : Word} {s : State} (hw : opcode w ≠ 0x1#4)
    (hinit : s.initDone = false) : ∃ c, admission w s = some c := by
  simp [admission, hw, hinit, ← apply_ite]

section
variable {s : State} (hf : s.fault = .none) (hinit : s.initDone = false)
include hf

theorem illegalCommand_raises (w : Word) :
    ∃ t, illegalCommand w s = .next t ∧ t.fault ≠ .none :=
  ⟨_, accept_running hf, nofun⟩

include hinit

theorem exec_init_before_init : exec .init s = complete (effect .init s) := by
  have hadm : admission (wordOf .init) s = none :=
    (admission_init (opcode_plainWord _) s).trans (if_neg (by simp [hinit]))
  exact command_admitted (rule := fun s => complete (effect .init s)) hf hadm

theorem command_raises_before_init {w : Word} (hw : opcode w ≠ 0x1#4) (rule : State → Outcome) :
    ∃ t, command w rule s = .next t ∧ t.fault ≠ .none := by
  obtain ⟨c, hadm⟩ := exists_admission_before_init hw hinit
  refine ⟨_, command_turned_away hf hadm, ?_⟩
  rcases admission_ne_none hadm with rfl | rfl | rfl <;> exact nofun

theorem exec_raises_before_init {i : Instr} (hi : isCommand i = true) (hne : i ≠ .init) :
    ∃ t, exec i s = .next t ∧ t.fault ≠ .none := by
  cases i with
  | init => exact absurd rfl hne
  | devSetColumn | devSetPage | devSetStartLine | devWriteData | devDisplayOnOff => cases hi
  | illegalOp0 w | illegalOpB w | illegalOpC w | illegalOpD w | illegalOpE w | illegalOpF w =>
    exact illegalCommand_raises hf w
  | _ =>
    unfold exec
    refine command_raises_before_init hf hinit ?_ _
    simp

end

/-- Settles O13: INIT is admitted and completes; an illegal opcode raises its fault, and every other
command is turned away. -/
theorem onlyInitRunsAfterPowerOn : Obligations.OnlyInitRunsAfterPowerOn := by
  refine ⟨powerOn_reset, fun s hs => ?_⟩
  obtain ⟨hinit, hf, -⟩ := hs
  refine ⟨?init, fun i => exec_raises_before_init hf hinit⟩
  case init =>
    rw [exec_init_before_init hf hinit]
    exact complete_ends hf

end Sys2Proof.Machine

/-! Encoding and decoding undo each other, in both directions (R73, R76, R161, R162). -/

namespace Sys2Proof.Machine

/-! ## Decoding an encoding -/

theorem decodeWord_setPixel (v : Bool) (x y : BitVec 8) :
    decodeWord (commandWord 0x3#4 v x y) = .ok (.setPixel v x y) := by
  have hrow : decodeWord (commandWord 0x3#4 v x y)
      = row 0xFFFE0000#32 0x30000000#32 (commandWord 0x3#4 v x y) (.setPixel v x y) := by
    unfold decodeWord
    rw [opcode_commandWord, operandV_commandWord, operandX_commandWord, operandY_commandWord]
    rfl
  rw [hrow, row, if_pos (Laws.EncodedForm.setPixel_form v x y)]

/-- A command byte of a well-formed DEV_ENC is its command's instruction, with the quad's selects. -/
theorem decodeQuad_byteOf {e : DevEnc} (he : e.wf = true) (cs0 cs1 : Bool) (d : DevCmd) :
    decodeQuad e ⟨cs0, cs1, .cmd, e.byteOf d⟩ = .ok (deviceInstr cs0 cs1 d) := by
  simp only [decodeQuad, DevEnc.decodeByte_byteOf he]

/-- Settles O1: an operand is read back from its field, an illegal word by its opcode, and a device
command by its byte, which no other command has. -/
theorem decodeOfEncodeIsTheInstruction : Obligations.DecodeOfEncodeIsTheInstruction := by
  intro e i he hi
  cases i with
  | setPixel v x y => exact decodeWord_setPixel v x y
  | setInverted v => cases v <;> rfl
  | illegalOp0 w | illegalOpB w | illegalOpC w | illegalOpD w | illegalOpE w | illegalOpF w =>
    have hop := (hasOpcode_iff _ w).1 hi
    change decodeWord w = _
    unfold decodeWord
    rw [hop]
    rfl
  | devSetColumn cs0 cs1 c => exact decodeQuad_byteOf he cs0 cs1 (.setColumn c)
  | devSetPage cs0 cs1 p => exact decodeQuad_byteOf he cs0 cs1 (.setPage p)
  | devSetStartLine cs0 cs1 l => exact decodeQuad_byteOf he cs0 cs1 (.setStartLine l)
  | devDisplayOnOff cs0 cs1 on => exact decodeQuad_byteOf he cs0 cs1 (.display on)
  | _ => rfl

/-! ## Encoding what was decoded -/

/-- The word of a command instruction is the same under every DEV_ENC. -/
theorem encode_of_planeEffect_none {i : Instr} (hi : planeEffect i = none) (e : DevEnc) :
    encode e i = .command (wordOf i) := by
  cases i with
  | devSetColumn | devSetPage | devSetStartLine | devWriteData | devDisplayOnOff => cases hi
  | _ => rfl

/-- A byte found in a list of DEV_ENC is the list's byte at the index found. -/
theorem getD_of_idxOf? {l : List Byte} {b : Byte} {n : Nat} (h : l.idxOf? b = some n) :
    n < l.length ∧ l.getD n 0 = b := by
  obtain ⟨hn, hb, -⟩ := List.idxOf?_eq_some_iff.1 h
  exact ⟨hn, by rw [List.getD_eq_getElem _ _ hn]; simpa using hb⟩

/-- A list with a byte for every value of a field: the index found is that of a field. -/
theorem getD_ofNat_of_idxOf? {l : List Byte} {b : Byte} {n w : Nat} (hl : l.length = 2 ^ w)
    (h : l.idxOf? b = some n) : l.getD (BitVec.ofNat w n).toNat 0 = b := by
  obtain ⟨hn, hb⟩ := getD_of_idxOf? h
  rwa [BitVec.toNat_ofNat, Nat.mod_eq_of_lt (hl ▸ hn)]

/-- The byte a command was decoded from is the command's byte. -/
theorem byteOf_of_decodeByte {e : DevEnc} (he : e.wf = true) {b : Byte} {d : DevCmd}
    (h : e.decodeByte b = some d) : e.byteOf d = b := by
  obtain ⟨hpage, hcol, hline, hdisp, -⟩ := e.wf_iff.1 he
  unfold DevEnc.decodeByte at h
  split at h
  case h_1 n hn => cases h; exact getD_ofNat_of_idxOf? hpage hn
  split at h
  case h_1 n hn => cases h; exact getD_ofNat_of_idxOf? hcol hn
  split at h
  case h_1 n hn => cases h; exact getD_ofNat_of_idxOf? hline hn
  split at h
  case h_1 n hn =>
    cases h
    obtain ⟨hlt, hb⟩ := getD_of_idxOf? hn
    have hbit : (n != 0).toNat = n := by
      rw [hdisp] at hlt
      interval_cases n <;> rfl
    rwa [DevEnc.byteOf, DevEnc.display, hbit]
  case h_2 => cases h

theorem encode_deviceInstr (e : DevEnc) (cs0 cs1 : Bool) (d : DevCmd) :
    encode e (deviceInstr cs0 cs1 d) = .quad ⟨cs0, cs1, .cmd, e.byteOf d⟩ := by
  cases d <;> rfl

/-- Settles O2: a command word is the word its instruction records, and a quad's byte the one of the
command it was decoded to. -/
theorem encodeOfDecodeIsTheWord : Obligations.EncodeOfDecodeIsTheWord := by
  refine ⟨fun e w i h => ?word, fun e q i he h => ?quad⟩
  case word =>
    rw [encode_of_planeEffect_none (planeEffect_of_decodeWord h), wordOf_of_decodeWord h]
  case quad =>
    obtain ⟨cs0, cs1, mode, b⟩ := q
    cases mode with
    | data => cases h; rfl
    | cmd =>
      cases hd : e.decodeByte b with
      | none => simp [decodeQuad, hd] at h
      | some d =>
        simp only [decodeQuad, hd] at h
        cases h
        rw [encode_deviceInstr, byteOf_of_decodeByte he hd]

/-- Settles O3: the decoder run on each of the words and quads. -/
theorem specWordsDecodeAsWritten : Obligations.SpecWordsDecodeAsWritten := by
  unfold Obligations.SpecWordsDecodeAsWritten
  decide

end Sys2Proof.Machine

/-! What the effect of each command leaves alone, field by field (R20 to R25, R75), and the statements
that follow from it alone. -/

namespace Sys2Proof.Machine

/-! ## The fields that few commands write -/

/-- The effect of each command by its rule, for `simp`. -/
theorem effect_rules (s : State) :
    effect .init s = idlePins (resetBody (initSetup s)) ∧
    effect .reset s = resetBody s ∧
    (∀ v x y, effect (.setPixel v x y) s = if inRange x y then drawPixel v x y s else s) ∧
    effect .clear s = publishAll { s with fb := writeAll fun _ => clearByte s.inv } ∧
    effect .fill s = publishAll { s with fb := writeAll fun _ => fillByte s.inv } ∧
    (∀ v, effect (.setInverted v) s = if v = s.inv then s
      else publishAll { s with fb := writeAll fun a => ~~~Memory.read s.fb a, inv := v }) ∧
    effect .flush s = writeDirty false (if readDirty s then fullTx s else s) ∧
    effect .enterBatch s = writeDepth (readDepth s + 1) s ∧
    effect .leaveBatch s = if readDepth (writeDepth (readDepth s - 1) s) = 0 then
      fullTx (writeDepth (readDepth s - 1) s) else writeDepth (readDepth s - 1) s :=
  ⟨rfl, rfl, fun _ _ _ => rfl, rfl, rfl, fun _ => rfl, rfl, rfl, rfl⟩

@[simp] theorem effect_cmdCount (i : Instr) (s : State) : (effect i s).cmdCount = s.cmdCount := by
  cases i with
  | setPixel | setInverted | flush | leaveBatch => simp [effect_rules, apply_ite State.cmdCount]
  | init | reset | clear | fill | enterBatch => simp [effect_rules]
  | _ => rfl

theorem effect_resp {i : Instr} (hi : i ≠ .getInverted) (s : State) :
    (effect i s).resp = s.resp := by
  cases i with
  | getInverted => exact absurd rfl hi
  | setPixel | setInverted | flush | leaveBatch => simp [effect_rules, apply_ite State.resp]
  | init | reset | clear | fill | enterBatch => simp [effect_rules]
  | _ => rfl

theorem effect_respStamp {i : Instr} (hi : i ≠ .getInverted) (s : State) :
    (effect i s).respStamp = s.respStamp := by
  cases i with
  | getInverted => exact absurd rfl hi
  | setPixel | setInverted | flush | leaveBatch => simp [effect_rules, apply_ite State.respStamp]
  | init | reset | clear | fill | enterBatch => simp [effect_rules]
  | _ => rfl

theorem effect_initDone_eq {i : Instr} (hi : i ≠ .init) (s : State) :
    (effect i s).initDone = s.initDone := by
  cases i with
  | init => exact absurd rfl hi
  | setPixel | setInverted | flush | leaveBatch => simp [effect_rules, apply_ite State.initDone]
  | reset | clear | fill | enterBatch => simp [effect_rules]
  | _ => rfl

/-- The commands that write DEPTH (R24). -/
def writesDepth (i : Instr) : Prop := i = .enterBatch ∨ i = .leaveBatch

theorem effect_depth {i : Instr} (hi : ¬ writesDepth i) (s : State) :
    (effect i s).depth = s.depth := by
  cases i with
  | enterBatch => exact absurd (.inl rfl) hi
  | leaveBatch => exact absurd (.inr rfl) hi
  | setPixel | setInverted | flush => simp [effect_rules, apply_ite State.depth]
  | init | reset | clear | fill => simp [effect_rules]
  | _ => rfl

theorem effect_depth_buffered {s : State} (hm : s.cfg.drawMode = .buffered) (i : Instr) :
    (effect i s).depth = s.depth := by
  cases i with
  | enterBatch => rw [effect_enterBatch, writeDepth_buffered hm]
  | leaveBatch => simp [effect_leaveBatch, writeDepth_buffered hm, apply_ite State.depth]
  | _ => exact effect_depth (by simp [writesDepth]) s

/-- The commands that write INV (R22). -/
def writesInv (i : Instr) : Prop := (∃ v, i = .setInverted v) ∨ i = .reset ∨ i = .init

theorem effect_inv {i : Instr} (hi : ¬ writesInv i) (s : State) : (effect i s).inv = s.inv := by
  cases i with
  | setInverted v => exact absurd (.inl ⟨v, rfl⟩) hi
  | reset => exact absurd (.inr (.inl rfl)) hi
  | init => exact absurd (.inr (.inr rfl)) hi
  | setPixel | flush | leaveBatch => simp [effect_rules, apply_ite State.inv]
  | clear | fill | enterBatch => simp [effect_rules]
  | _ => rfl

/-- The commands that write FB (R20). -/
def writesBuffer (i : Instr) : Prop :=
  (∃ v x y, i = .setPixel v x y) ∨ i = .clear ∨ i = .fill ∨ (∃ v, i = .setInverted v) ∨
    i = .reset ∨ i = .init

theorem effect_fb {i : Instr} (hi : ¬ writesBuffer i) (s : State) : (effect i s).fb = s.fb := by
  cases i with
  | setPixel | clear | fill | setInverted | reset | init => simp [writesBuffer] at hi
  | flush | leaveBatch => simp [effect_rules, apply_ite State.fb]
  | enterBatch => simp [effect_rules]
  | _ => rfl

/-- The commands that write DIRTY in Buffered mode (R23). -/
def writesDirty (i : Instr) : Prop :=
  (∃ v x y, i = .setPixel v x y) ∨ i = .clear ∨ i = .fill ∨ (∃ v, i = .setInverted v) ∨
    i = .flush ∨ i = .reset ∨ i = .init

theorem effect_dirty {i : Instr} (hi : ¬ writesDirty i) (s : State) :
    (effect i s).dirty = s.dirty := by
  cases i with
  | setPixel | clear | fill | setInverted | flush | reset | init => simp [writesDirty] at hi
  | leaveBatch => simp [effect_rules, apply_ite State.dirty]
  | enterBatch => simp [effect_rules]
  | _ => rfl

theorem drawPixel_dirty_immediate {s : State} (hm : s.cfg.drawMode = .immediate) (v : Bool)
    (x y : BitVec 8) : (drawPixel v x y s).dirty = s.dirty := by
  simp only [drawPixel, hm]
  split <;> simp

theorem publishAll_dirty_immediate {s : State} (hm : s.cfg.drawMode = .immediate) :
    (publishAll s).dirty = s.dirty := by
  rw [publishAll_immediate hm, fullTx_dirty]

theorem effect_dirty_immediate {s : State} (hm : s.cfg.drawMode = .immediate) (i : Instr) :
    (effect i s).dirty = s.dirty := by
  cases i with
  | setPixel v x y => rw [effect_setPixel]; split <;> simp [drawPixel_dirty_immediate hm]
  | clear | fill => exact publishAll_dirty_immediate hm
  | setInverted v =>
    rw [effect_setInverted]
    split
    · rfl
    · exact publishAll_dirty_immediate hm
  | flush => rw [effect_flush, readDirty_immediate hm]; simp [writeDirty_immediate hm]
  | reset => exact (resetBody_dirty s).trans (if_neg (by simp [hm]))
  | init =>
    refine (resetBody_dirty (initSetup s)).trans ?_
    simp [hm]
  | _ => exact effect_dirty (by simp [writesDirty]) s

/-! ## From effects to instructions -/

/-- A field that is not of the device, the fault or CMD_COUNT changes by a command's effect only. -/
theorem exec_keeps {α : Type} (field : State → α) {i : Instr} {s t : State}
    (h : exec i s = .next t) (heff : field (effect i s) = field s)
    (hdev : ∀ d, field { s with dev := d } = field s := by exact fun _ => rfl)
    (hraise : ∀ c n w, field { s with fault := c, faultIndex := n, faultWord := w } = field s := by
      exact fun _ _ _ => rfl)
    (hcount : ∀ n, field { effect i s with cmdCount := n } = field (effect i s) := by
      exact fun _ => rfl) : field t = field s := by
  cases exec_cases h with
  | device cs0 cs1 f _ ht => rw [ht, hdev]
  | raised _ _ c _ ht => rw [ht, hraise]
  | completed _ _ _ ht => rw [ht, hcount, heff]

section
variable {i : Instr} {s t : State} (h : exec i s = .next t)
include h

theorem exec_resp (hi : i ≠ .getInverted) : t.resp = s.resp :=
  exec_keeps State.resp h (effect_resp hi s)

theorem exec_respStamp (hi : i ≠ .getInverted) : t.respStamp = s.respStamp :=
  exec_keeps State.respStamp h (effect_respStamp hi s)

theorem exec_fb (hi : ¬ writesBuffer i) : t.fb = s.fb :=
  exec_keeps State.fb h (effect_fb hi s)

theorem exec_inv (hi : ¬ writesInv i) : t.inv = s.inv :=
  exec_keeps State.inv h (effect_inv hi s)

theorem exec_dirty (hi : ¬ writesDirty i) : t.dirty = s.dirty :=
  exec_keeps State.dirty h (effect_dirty hi s)

theorem exec_dirty_immediate (hm : s.cfg.drawMode = .immediate) : t.dirty = s.dirty :=
  exec_keeps State.dirty h (effect_dirty_immediate hm i)

theorem exec_depth (hi : ¬ writesDepth i) : t.depth = s.depth :=
  exec_keeps State.depth h (effect_depth hi s)

theorem exec_depth_buffered (hm : s.cfg.drawMode = .buffered) : t.depth = s.depth :=
  exec_keeps State.depth h (effect_depth_buffered hm i)

theorem exec_initDone_eq (hi : i ≠ .init) : t.initDone = s.initDone :=
  exec_keeps State.initDone h (effect_initDone_eq hi s)

end

/-! ## The statements about who writes what -/

/-- Settles O42: every other instruction leaves FB alone. -/
theorem onlyTheNamedCommandsWriteTheBuffer : Obligations.OnlyTheNamedCommandsWriteTheBuffer := by
  intro i s t h hne
  by_contra hi
  exact hne (exec_fb h hi)

theorem eq_buffered_of_ne_immediate {m : DrawMode} (h : m ≠ .immediate) : m = .buffered := by
  cases m
  · rfl
  · exact absurd rfl h

theorem eq_immediate_of_ne_buffered {m : DrawMode} (h : m ≠ .buffered) : m = .immediate := by
  cases m
  · exact absurd rfl h
  · rfl

/-- Settles O43: each flag is kept by every instruction that does not write it, DIRTY by all in
Immediate mode and DEPTH by all in Buffered mode; and INIT_DONE is never cleared. -/
theorem eachFlagHasOnlyItsWriters : Obligations.EachFlagHasOnlyItsWriters := by
  intro i s t h
  refine ⟨fun hne => ?inv, fun hne => ⟨?dirtyMode, ?dirty⟩, fun hne => ⟨?depthMode, ?depth⟩,
    fun hne => ?initDone⟩
  case inv => exact not_not.1 fun hi => hne (exec_inv h hi)
  case dirtyMode => exact eq_buffered_of_ne_immediate fun hm => hne (exec_dirty_immediate h hm)
  case dirty => exact not_not.1 fun hi => hne (exec_dirty h hi)
  case depthMode => exact eq_immediate_of_ne_buffered fun hm => hne (exec_depth_buffered h hm)
  case depth => exact not_not.1 fun hi => hne (exec_depth h hi)
  case initDone =>
    refine ⟨not_not.1 fun hi => hne (exec_initDone_eq h hi), ?_⟩
    cases hs : s.initDone with
    | true => exact exec_initDone h hs
    | false => exact Bool.eq_true_of_not_eq_false (hs ▸ hne)

/-! ## CMD_COUNT (R21) -/

/-- Settles O12: a word that is raised or refused leaves CMD_COUNT alone, and one whose rule runs to
its end adds one and leaves FAULT as it was. -/
theorem completedCommandsAreCounted : Obligations.CompletedCommandsAreCounted := by
  intro s t w rest hi h
  obtain ⟨-, hstep⟩ := step_cases h
  cases hstep with
  | idle hnil => cases hi.symm.trans hnil
  | ran item rest' i hcons hd hrun =>
    cases hi.symm.trans hcons
    cases exec_cases hrun with
    | device _ _ _ hp => cases (planeEffect_of_decodeWord hd).symm.trans hp
    | raised _ _ c hc ht => subst ht; exact ⟨fun h0 => absurd h0 hc, fun _ => rfl⟩
    | completed _ hf _ ht =>
      have hnone : t.fault = .none := by rw [ht]; exact (effect_fault i _).trans hf
      have hcount : t.cmdCount = s.cmdCount + 1 := by
        rw [ht]
        exact congrArg (· + 1) (effect_cmdCount i _)
      exact ⟨fun _ => hcount, fun hne => absurd hnone hne⟩
  | reserved w' rest' _ _ _ ht => subst ht; exact ⟨nofun, fun _ => rfl⟩
  | passed q rest' hcons => cases hi.symm.trans hcons

/-! ## RESP (R32, R75, R121) -/

theorem exec_getInverted_of_ready {s : State} (h : Ready s) :
    exec .getInverted s = .next { s with
      resp := (bit s.inv).zeroExtend 32, respStamp := some (s.cmdCount + 1)
      cmdCount := s.cmdCount + 1 } := by
  change execGetInverted s = _
  rw [execGetInverted, command_of_ready h (by simp), complete]

/-- Settles O22: a ready block answers INV as a word. -/
theorem getInvertedFollowsItsRule : Obligations.GetInvertedFollowsItsRule := by
  intro s h
  have hword : (bit s.inv).zeroExtend 32 = if s.inv then 0x00000001 else 0x00000000 := by
    cases s.inv <;> rfl
  rw [exec_getInverted_of_ready h, hword]

/-- Settles O23: no other effect writes RESP or its mark; and right after GET_INVERTED the mark is the
count and nothing has faulted, so the host reads RESP itself. -/
theorem onlyGetInvertedResponds : Obligations.OnlyGetInvertedResponds := by
  refine ⟨fun i s t h hi => ⟨exec_resp h hi, exec_respStamp h hi⟩, fun s hs => ?_⟩
  refine ⟨_, exec_getInverted_of_ready hs, ?_⟩
  rw [hostReadResp, if_pos ⟨rfl, hs.1⟩]
  exact ⟨rfl, rfl⟩

end Sys2Proof.Machine

/-! What every step keeps: the configuration (R6), the registers of a faulted block (R26), and the form
of the state (R20, R23 to R26, R160, R200). -/

namespace Sys2Proof.Machine

/-! ## The configuration and the port (R6, R70) -/

/-- Settles O44: an instruction keeps both, and the item it was decoded from is what a step takes off
the port. -/
theorem configurationNeverChanges : Obligations.ConfigurationNeverChanges := by
  intro s t h
  have hkept : t.cfg = s.cfg ∧ t.inbox = s.inbox.drop 1 := by
    obtain ⟨-, hstep⟩ := step_cases h
    cases hstep with
    | idle hi _ ht => subst ht; simp [hi]
    | ran item rest i hi _ hrun => simp [exec_cfg hrun, exec_inbox hrun, hi]
    | reserved w rest hi _ _ ht => subst ht; simp [hi]
    | passed q rest hi _ ht => subst ht; simp [hi]
  obtain ⟨hcfg, hinbox⟩ := hkept
  exact ⟨hcfg, congrArg configView hcfg, hinbox⟩

/-! ## One step around exec (R70, R192, R211) -/

theorem step_of_valid_nil {s : State} (hv : s.cfg.valid = true) (hi : s.inbox = []) :
    step s = idle s := by
  simp [step, hv, fetch, hi]

theorem step_of_decode {s : State} {item : InboxItem} {rest : List InboxItem} {i : Instr}
    (hv : s.cfg.valid = true) (hi : s.inbox = item :: rest)
    (hd : decode s.cfg.devEnc item = .ok i) : step s = exec i { s with inbox := rest } := by
  simp [step, hv, fetch, hi, hd]

/-- A quad with a device-defined byte passes (R168). -/
theorem step_of_decodeQuad_error {s : State} {q : Quad} {rest : List InboxItem} {r : DecodeReject}
    (hv : s.cfg.valid = true) (hi : s.inbox = .quad q :: rest)
    (hd : decodeQuad s.cfg.devEnc q = .error r) : step s = .next { s with inbox := rest } := by
  simp [step, hv, fetch, hi, decode, hd, rejected, deviceDefinedQuad]

/-- Settles O6: the branches of the step, one lemma for each. -/
theorem stepRunsTheDecodedInstruction : Obligations.StepRunsTheDecodedInstruction := by
  intro s
  refine ⟨fun _ _ _ => step_of_decode, fun w rest r hv hi hd hf => ?reserved,
    fun _ _ _ => step_of_decodeQuad_error, fun hv hi hf => ?idle, fun hv => ?refused⟩
  case reserved => exact step_of_decodeWord_error hv hf hi hd
  case idle => rw [step_of_valid_nil hv hi, idle, accept_running hf]
  case refused => rw [step, if_neg (by simp [hv])]

/-- Settles O8: all six rows run the one rule of an illegal opcode, which a block that has not faulted
accepts. -/
theorem illegalOpcodesRaiseIllegalOpcode : Obligations.IllegalOpcodesRaiseIllegalOpcode := by
  intro s w hf
  have hraise : illegalCommand w s = raise .illegalOpcode w s := accept_running hf
  exact ⟨hraise, hraise, hraise, hraise, hraise, hraise⟩

/-! ## A faulted block (R26) -/

/-- A step that a faulted block takes changes the display and the port at most. -/
theorem step_faulted {s t : State} (hf : s.fault ≠ .none) (h : step s = .next t) :
    t = { s with dev := t.dev, inbox := t.inbox } := by
  obtain ⟨-, hstep⟩ := step_cases h
  cases hstep with
  | idle _ hnone => exact absurd hnone hf
  | ran item rest i _ _ hrun =>
    cases exec_cases hrun with
    | device _ _ _ _ ht => rw [ht]
    | raised _ hnone => exact absurd hnone hf
    | completed _ hnone => exact absurd hnone hf
  | reserved _ _ _ _ hnone => exact absurd hnone hf
  | passed _ _ _ _ ht => rw [ht]

/-- Settles O11: commands and idling are refused, and what still steps is the display. -/
theorem faultedBlockAcceptsNoCommand : Obligations.FaultedBlockAcceptsNoCommand := by
  intro s hf
  refine ⟨fun i hi => exec_faulted (planeEffect_of_isCommand hi) hf, fun hv hi => ?idle,
    fun t h => ?kept⟩
  case idle => rw [step_of_valid_nil hv hi, idle, accept_faulted hf]
  case kept =>
    rw [step_faulted hf h]
    exact ⟨rfl, rfl, rfl, rfl, rfl, rfl⟩

/-! ## The memories stay canonical (R20, R160) -/

theorem wf_fb_effect {s : State} (hw : WellFormed s) (i : Instr) :
    Memory.wf fbSize (effect i s).fb = true := by
  cases i with
  | init | reset => simp [effect_rules, writeAll_wf]
  | setPixel v x y =>
    rw [effect_setPixel]
    split
    · rw [drawPixel_fb]
      exact Memory.write_wf hw.fb (pixelAddr x y).isLt _
    · exact hw.fb
  | clear | fill => simp [effect_rules, writeAll_wf]
  | setInverted v =>
    rw [effect_setInverted]
    split
    · exact hw.fb
    · simp [writeAll_wf]
  | _ =>
    rw [effect_fb (by simp [writesBuffer])]
    exact hw.fb

theorem dramWf_fullTx {s : State} (hd : s.dev.DramWf) : (fullTx s).dev.DramWf := dramWf_txAll hd _

theorem dramWf_publishAll {s : State} (hd : s.dev.DramWf) : (publishAll s).dev.DramWf := by
  cases hm : s.cfg.drawMode with
  | buffered => rw [publishAll_buffered hm]; exact hd
  | immediate => rw [publishAll_immediate hm]; exact dramWf_fullTx hd

theorem dramWf_resetBody {s : State} (hd : s.dev.DramWf) : (resetBody s).dev.DramWf := by
  have hsent : (txAll (zeroPointerQuads s.cfg.devEnc) { s with inv := false }).dev.DramWf :=
    dramWf_txAll hd _
  rw [resetBody, writeDirty_dev]
  exact dramWf_fullTx hsent

theorem dramWf_drawPixel {s : State} (hd : s.dev.DramWf) (v : Bool) (x y : BitVec 8) :
    (drawPixel v x y s).dev.DramWf := by
  cases hm : s.cfg.drawMode with
  | buffered => rw [drawPixel_buffered hm]; exact hd
  | immediate =>
    by_cases hdepth : s.depth = 0
    · rw [drawPixel_sent hm hdepth]; exact dramWf_txAll hd _
    · rw [drawPixel_inBatch hm hdepth]; exact hd

theorem dramWf_effect {s : State} (hd : s.dev.DramWf) (i : Instr) : (effect i s).dev.DramWf := by
  cases i with
  | init => exact dramWf_resetBody (dramWf_initSetup hd)
  | reset => exact dramWf_resetBody hd
  | setPixel v x y =>
    rw [effect_setPixel]
    split
    · exact dramWf_drawPixel hd v x y
    · exact hd
  | clear | fill => exact dramWf_publishAll hd
  | setInverted v =>
    rw [effect_setInverted]
    split
    · exact hd
    · exact dramWf_publishAll hd
  | flush =>
    rw [effect_flush, writeDirty_dev]
    split
    · exact dramWf_fullTx hd
    · exact hd
  | enterBatch => rwa [effect_enterBatch, writeDepth_dev]
  | leaveBatch =>
    have hdev (d : BitVec 16) : (writeDepth d s).dev.DramWf := by rwa [writeDepth_dev]
    rw [effect_leaveBatch]
    split
    · exact dramWf_fullTx (hdev _)
    · exact hdev _
  | _ => exact hd

/-- A device form leaves a canonical display RAM canonical. -/
theorem planeEffect_wf {i : Instr} {cs0 cs1 : Bool} {f : Plane → Plane}
    (hp : planeEffect i = some (cs0, cs1, f)) {pl : Plane}
    (h : Memory.wf dramSize pl.dram = true) : Memory.wf dramSize (f pl).dram = true := by
  cases i with
  | devWriteData a b d => cases hp; exact Plane.writeData_wf d h
  | devSetColumn | devSetPage | devSetStartLine | devDisplayOnOff => cases hp; exact h
  | _ => cases hp

theorem dramWf_onSelected {d : Device} (hd : d.DramWf) {f : Plane → Plane}
    (hf : ∀ pl : Plane, Memory.wf dramSize pl.dram = true → Memory.wf dramSize (f pl).dram = true)
    (cs0 cs1 : Bool) : (Device.onSelected cs0 cs1 f d).DramWf := by
  intro k
  rw [Device.onSelected_plane]
  by_cases hsel : if k then cs1 else cs0
  · rw [if_pos hsel]; exact hf _ (hd k)
  · rw [if_neg hsel]; exact hd k

/-! ## DEPTH stays within DEPTH_BITS (R24, R131, R132) -/

/-- A command of the table that leaves no fault was admitted, and its rule raised none. -/
theorem ruleFault_of_exec {i : Instr} {s t : State} {r : Word × Word} (hf : s.fault = .none)
    (hr : r ∈ commandRows) (hi : Laws.EncodedForm.tableForm i = .inl r)
    (h : exec i s = .next t) (ht : t.fault = .none) :
    admission (wordOf i) s = none ∧ ruleFault (wordOf i) s = .none := by
  obtain ⟨t', ht', hend⟩ := exec_ends hf hr hi
  cases h.symm.trans ht'
  rw [ht] at hend
  cases ha : admission (wordOf i) s with
  | none => exact ⟨rfl, by rw [ha] at hend; exact hend.symm⟩
  | some c =>
    rw [ha] at hend
    cases hend
    simpa using admission_ne_none ha

/-- LEAVE_BATCH raises outside a batch, so where it leaves no fault it was in one (R132). -/
theorem depth_ne_zero_of_leaveBatch {s t : State} (hf : s.fault = .none)
    (h : exec .leaveBatch s = .next t) (ht : t.fault = .none) : s.depth ≠ 0 := by
  obtain ⟨-, hrule⟩ := ruleFault_of_exec hf (by decide) rfl h ht
  intro h0
  simp [ruleFault, wordOf, encode, h0] at hrule

theorem depthBits_effect {i : Instr} {s t : State} (hw : WellFormed s) (hf : s.fault = .none)
    (h : exec i s = .next t) (ht : t.fault = .none) :
    (effect i s).depth.toNat < 2 ^ s.cfg.depthBits := by
  have hlt := hw.depthBits
  cases hm : s.cfg.drawMode with
  | buffered => rwa [effect_depth_buffered hm]
  | immediate =>
    cases i with
    | enterBatch =>
      have hmax := depthAtMax_of_enterBatch h ht
      have hsucc := depth_succ_toNat hw hm (by simp [hmax])
      rw [effect_enterBatch, readDepth_immediate hm, writeDepth_immediate hm, hsucc]
      rw [← Bool.not_eq_true, depthAtMax_iff hm] at hmax
      omega
    | leaveBatch =>
      have hne := depth_ne_zero_of_leaveBatch hf h ht
      have hpred : (effect .leaveBatch s).depth = s.depth - 1 := by
        rw [effect_leaveBatch_immediate hm]
        split <;> simp
      rw [hpred]
      bv_omega
    | _ => rwa [effect_depth (by simp [writesDepth])]

/-! ## The form of the state -/

/-- Before INIT only INIT completes, so a completed command leaves INIT_DONE set (R200). -/
theorem initDone_of_completed {i : Instr} {s t : State} (hi : isCommand i = true)
    (hf : s.fault = .none) (h : exec i s = .next t) (ht : t.fault = .none) :
    (effect i s).initDone = true := by
  cases hinit : s.initDone with
  | true => exact effect_initDone hinit i
  | false =>
    by_cases hne : i = .init
    · subst hne; exact (resetBody_initDone _).trans (initSetup_initDone s)
    · obtain ⟨t', ht', hfault⟩ := exec_raises_before_init hf hinit hi hne
      cases h.symm.trans ht'
      exact absurd ht hfault

theorem respStamp_effect {s : State} (hw : WellFormed s) (i : Instr) {n : Nat}
    (h : (effect i s).respStamp = some n) : n ≤ s.cmdCount + 1 := by
  by_cases hi : i = .getInverted
  · subst hi
    exact (Option.some.inj h).symm.le
  · rw [effect_respStamp hi] at h
    exact (hw.respStamp n h).trans (Nat.le_succ _)

theorem isCommand_of_planeEffect {i : Instr} (hi : planeEffect i = none) : isCommand i = true := by
  cases i with
  | devSetColumn | devSetPage | devSetStartLine | devWriteData | devDisplayOnOff => cases hi
  | _ => rfl

theorem WellFormed.withDev {s : State} (hw : WellFormed s) {d : Device} (hd : d.DramWf) :
    WellFormed { s with dev := d } :=
  { hw with dram0 := hd false, dram1 := hd true }

/-- Recording a fault at the current count keeps the form (R180, R181). -/
theorem WellFormed.raised {s : State} (hw : WellFormed s) (c : FaultCause) (w : Word) :
    WellFormed { s with fault := c, faultIndex := s.cmdCount, faultWord := w } :=
  { hw with faultIndex := fun _ => rfl }

theorem WellFormed.completed {i : Instr} {s t : State} (hw : WellFormed s)
    (hi : isCommand i = true) (hf : s.fault = .none) (h : exec i s = .next t)
    (ht : t = { effect i s with cmdCount := (effect i s).cmdCount + 1 }) : WellFormed t := by
  have htf : t.fault = .none := by rw [ht]; exact (effect_fault i s).trans hf
  have hinit := initDone_of_completed hi hf h htf
  have hbits := depthBits_effect hw hf h htf
  have hdram := dramWf_effect hw.dramWf i
  subst ht
  exact {
    cfg := (congrArg Config.valid (effect_cfg i s)).trans hw.cfg
    fb := wf_fb_effect hw i
    dram0 := hdram false
    dram1 := hdram true
    dirty := fun hm => by
      have hm : s.cfg.drawMode = .immediate := by rwa [effect_cfg] at hm
      exact (effect_dirty_immediate hm i).trans (hw.dirty hm)
    depth := fun hm => by
      have hm : s.cfg.drawMode = .buffered := by rwa [effect_cfg] at hm
      exact (effect_depth_buffered hm i).trans (hw.depth hm)
    depthBits := by rwa [effect_cfg]
    fresh := fun hfresh => absurd (hinit.symm.trans hfresh) nofun
    faultIndex := fun hne => absurd htf hne
    respStamp := fun n hn => by rw [effect_cmdCount]; exact respStamp_effect hw i hn }

theorem WellFormed.exec {i : Instr} {s t : State} (hw : WellFormed s)
    (h : Machine.exec i s = .next t) : WellFormed t := by
  cases exec_cases h with
  | device cs0 cs1 f hp ht =>
    subst ht
    exact hw.withDev (dramWf_onSelected hw.dramWf (fun _ => planeEffect_wf hp) cs0 cs1)
  | raised _ _ c _ ht => subst ht; exact hw.raised c _
  | completed hp hf _ ht => exact hw.completed (isCommand_of_planeEffect hp) hf h ht

/-- Settles O45: taking an item off the port, recording a fault, running a device form and completing
a command each keep the form. -/
theorem everyStepKeepsTheStateWellFormed : Obligations.EveryStepKeepsTheStateWellFormed := by
  intro s t hw h
  obtain ⟨-, hstep⟩ := step_cases h
  cases hstep with
  | idle _ _ ht => subst ht; exact hw
  | ran item rest i _ _ hrun => exact (hw.withInbox rest).exec hrun
  | reserved w rest _ _ _ ht => subst ht; exact (hw.withInbox rest).raised .reservedField w
  | passed q rest _ _ ht => subst ht; exact hw.withInbox rest

/-- Settles O46: empty memories, nothing set, and the configuration of log 1. -/
theorem resetStateIsWellFormed : Obligations.ResetStateIsWellFormed where
  cfg := by decide
  fb := rfl
  dram0 := rfl
  dram1 := rfl
  dirty := fun _ => rfl
  depth := fun _ => rfl
  depthBits := by decide
  fresh := fun _ => ⟨rfl, rfl, rfl, rfl⟩
  faultIndex := nofun
  respStamp := nofun

end Sys2Proof.Machine

/-! What each command sends (R142, R143, R152): its quads are appended to TRACE, driven onto the pins
and applied by the device, in one order. -/

namespace Sys2Proof.Machine

/-! ## Sending a list of quads -/

/-- From `s` to `u` the quads `qs` were sent: they are appended to TRACE, and nothing but them moved
the pins or the device (R143, R150). -/
structure Sent (qs : List Quad) (s u : State) : Prop where
  cfg : u.cfg = s.cfg
  trace : u.trace = s.trace ++ qs.map .quad
  port : u.port = qs.foldl (driveQuad s.cfg) s.port
  dev : u.dev = qs.foldl (Device.apply s.cfg.devEnc) s.dev

namespace Sent

theorem txAll (qs : List Quad) (s : State) : Sent qs s (txAll qs s) := ⟨rfl, rfl, rfl, rfl⟩

theorem fullTx (s : State) : Sent (fullTxQuads s.cfg.devEnc s.fb) s (fullTx s) := txAll _ s

theorem nothing (s : State) : Sent [] s s := ⟨rfl, (List.append_nil _).symm, rfl, rfl⟩

theorem trans {qs qs' : List Quad} {s u v : State} (h : Sent qs s u) (h' : Sent qs' u v) :
    Sent (qs ++ qs') s v where
  cfg := h'.cfg.trans h.cfg
  trace := by rw [h'.trace, h.trace, List.map_append, List.append_assoc]
  port := by rw [h'.port, h.port, h.cfg, List.foldl_append]
  dev := by rw [h'.dev, h.dev, h.cfg, List.foldl_append]

/-- Only the configuration, TRACE, the pins and the device say what was sent. -/
theorem congr {qs : List Quad} {s u v : State} (h : Sent qs s u) (hcfg : v.cfg = u.cfg)
    (htrace : v.trace = u.trace) (hport : v.port = u.port) (hdev : v.dev = u.dev) :
    Sent qs s v :=
  ⟨hcfg.trans h.cfg, htrace.trans h.trace, hport.trans h.port, hdev.trans h.dev⟩

theorem writeDirty {qs : List Quad} {s u : State} (h : Sent qs s u) (v : Bool) :
    Sent qs s (writeDirty v u) := h.congr (by simp) (by simp) (by simp) (by simp)

/-- The quads that were sent, read back from TRACE. -/
theorem quads_eq {qs : List Quad} {s u : State} (h : Sent qs s u) :
    (u.trace.drop s.trace.length).filterMap TraceEvent.quad? = qs := by
  rw [h.trace, List.drop_left, filterMap_quad]

end Sent

/-! ## Each list selects one plane at a time (R142) -/

theorem quadTo_onePlane (k : Bool) (mode : QuadMode) (b : Byte) :
    (quadTo k mode b).cs0 ≠ (quadTo k mode b).cs1 := Bool.not_ne_self k

theorem zeroPointerQuads_onePlane (e : DevEnc) :
    ∀ q ∈ zeroPointerQuads e, q.cs0 ≠ q.cs1 := by
  simp [zeroPointerQuads, commandTo, quadTo]

theorem byteTxQuads_onePlane (e : DevEnc) (fb : Memory) (a : BitVec 10) :
    ∀ q ∈ byteTxQuads e fb a, q.cs0 ≠ q.cs1 := by
  simp [byteTxQuads, commandTo, quadTo]

theorem planeQuads_onePlane (e : DevEnc) (fb : Memory) (k : Bool) :
    ∀ q ∈ planeQuads e fb k, q.cs0 ≠ q.cs1 := by
  intro q hq
  simp only [planeQuads, pageQuads, List.mem_cons, List.mem_flatMap, List.mem_map] at hq
  rcases hq with rfl | ⟨_, _, rfl | ⟨_, _, rfl⟩⟩ <;> exact quadTo_onePlane _ _ _

theorem fullTxQuads_onePlane (e : DevEnc) (fb : Memory) :
    ∀ q ∈ fullTxQuads e fb, q.cs0 ≠ q.cs1 := by
  intro q hq
  simp only [fullTxQuads, List.mem_append, List.mem_cons, List.not_mem_nil, or_false] at hq
  rcases hq with (hq | hq) | rfl | rfl
  · exact planeQuads_onePlane e fb false q hq
  · exact planeQuads_onePlane e fb true q hq
  · exact quadTo_onePlane _ _ _
  · exact quadTo_onePlane _ _ _

/-- From `s` to `u` some quads were sent, each to one plane. -/
def SentToOnePlane (s u : State) : Prop := ∃ qs, Sent qs s u ∧ ∀ q ∈ qs, q.cs0 ≠ q.cs1

theorem sentToOnePlane_nothing {s u : State} (hcfg : u.cfg = s.cfg) (htrace : u.trace = s.trace)
    (hport : u.port = s.port) (hdev : u.dev = s.dev) : SentToOnePlane s u :=
  ⟨[], (Sent.nothing s).congr hcfg htrace hport hdev, nofun⟩

theorem sentToOnePlane_fullTx (s : State) : SentToOnePlane s (fullTx s) :=
  ⟨_, .fullTx s, fullTxQuads_onePlane _ _⟩

/-! ## What each command but INIT sends -/

/-- The body of RESET with any buffer in the place of the cleared one. -/
theorem sent_pointers_fullTx (fb : Memory) (s : State) :
    Sent (zeroPointerQuads s.cfg.devEnc ++ fullTxQuads s.cfg.devEnc fb) s
      (writeDirty false (fullTx
        { txAll (zeroPointerQuads s.cfg.devEnc) { s with inv := false } with fb := fb })) := by
  have hpointers : Sent (zeroPointerQuads s.cfg.devEnc) s
      { txAll (zeroPointerQuads s.cfg.devEnc) { s with inv := false } with fb := fb } :=
    ⟨rfl, rfl, rfl, rfl⟩
  exact (hpointers.trans (.fullTx _)).writeDirty false

/-- What RESET sends: the zeroed pointers, then the cleared buffer (R101). -/
def resetQuads (e : DevEnc) : List Quad :=
  zeroPointerQuads e ++ fullTxQuads e (writeAll fun _ => 0x00)

theorem resetQuads_onePlane (e : DevEnc) : ∀ q ∈ resetQuads e, q.cs0 ≠ q.cs1 :=
  List.forall_mem_append.2 ⟨zeroPointerQuads_onePlane e, fullTxQuads_onePlane e _⟩

theorem sent_resetBody (s : State) : Sent (resetQuads s.cfg.devEnc) s (resetBody s) :=
  sent_pointers_fullTx _ s

theorem sentToOnePlane_publishAll (s : State) : SentToOnePlane s (publishAll s) := by
  cases hm : s.cfg.drawMode with
  | buffered => rw [publishAll_buffered hm]; exact sentToOnePlane_nothing rfl rfl rfl rfl
  | immediate => rw [publishAll_immediate hm]; exact sentToOnePlane_fullTx s

/-- What was in FB and INV before a command stored its own does not show in what is sent. -/
theorem sentToOnePlane_publish (s : State) (fb : Memory) (inv : Bool) :
    SentToOnePlane s (publishAll { s with fb := fb, inv := inv }) := by
  obtain ⟨qs, hsent, hone⟩ := sentToOnePlane_publishAll { s with fb := fb, inv := inv }
  exact ⟨qs, ⟨hsent.cfg, hsent.trace, hsent.port, hsent.dev⟩, hone⟩

theorem sentToOnePlane_drawPixel (v : Bool) (x y : BitVec 8) (s : State) :
    SentToOnePlane s (drawPixel v x y s) := by
  cases hm : s.cfg.drawMode with
  | buffered => rw [drawPixel_buffered hm]; exact sentToOnePlane_nothing rfl rfl rfl rfl
  | immediate =>
    by_cases hd : s.depth = 0
    · rw [drawPixel_sent hm hd]
      exact ⟨_, ⟨rfl, rfl, rfl, rfl⟩, byteTxQuads_onePlane _ _ _⟩
    · rw [drawPixel_inBatch hm hd]; exact sentToOnePlane_nothing rfl rfl rfl rfl

theorem sentToOnePlane_effect {i : Instr} (hi : i ≠ .init) (s : State) :
    SentToOnePlane s (effect i s) := by
  have hnothing : SentToOnePlane s s := sentToOnePlane_nothing rfl rfl rfl rfl
  cases i with
  | init => exact absurd rfl hi
  | reset => exact ⟨_, sent_resetBody s, resetQuads_onePlane _⟩
  | setPixel v x y =>
    rw [effect_setPixel]
    split
    · exact sentToOnePlane_drawPixel v x y s
    · exact hnothing
  | clear | fill => exact sentToOnePlane_publish s _ s.inv
  | setInverted v =>
    rw [effect_setInverted]
    split
    · exact hnothing
    · exact sentToOnePlane_publish s _ v
  | flush =>
    obtain ⟨qs, hsent, hone⟩ : SentToOnePlane s (if readDirty s then fullTx s else s) := by
      split
      · exact sentToOnePlane_fullTx s
      · exact hnothing
    exact ⟨qs, hsent.writeDirty false, hone⟩
  | getInverted => exact sentToOnePlane_nothing rfl rfl rfl rfl
  | enterBatch =>
    rw [effect_enterBatch]
    exact sentToOnePlane_nothing (by simp) (by simp) (by simp) (by simp)
  | leaveBatch =>
    have hlower (d : BitVec 16) : Sent [] s (writeDepth d s) :=
      (Sent.nothing s).congr (by simp) (by simp) (by simp) (by simp)
    rw [effect_leaveBatch]
    split
    · exact ⟨_, (hlower _).trans (.fullTx _), fullTxQuads_onePlane _ _⟩
    · exact ⟨_, hlower _, nofun⟩
  | _ => exact hnothing

/-! ## What INIT sends -/

/-- What INIT sends after its step 2: INIT_EXTRA, then the quads of its full reset (R100). -/
def initQuads (c : Config) : List Quad := initExtraQuads c ++ resetQuads c.devEnc

theorem initQuads_onePlane (c : Config) : ∀ q ∈ initQuads c, q.cs0 ≠ q.cs1 :=
  List.forall_mem_append.2 ⟨fun _ => initExtraQuads_onePlane, resetQuads_onePlane c.devEnc⟩

theorem sent_init_after_addressing (s : State) :
    Sent (initQuads s.cfg) (initAddressing (idlePins s)) (resetBody (initSetup s)) := by
  have hextra : Sent (initExtraQuads s.cfg) (initAddressing (idlePins s)) (initSetup s) := by
    have hcfg : (initAddressing (idlePins s)).cfg = s.cfg := by simp
    rw [← hcfg]
    exact ⟨rfl, rfl, rfl, rfl⟩
  have hreset := sent_resetBody (initSetup s)
  rw [initSetup_cfg] at hreset
  exact hextra.trans hreset

theorem initAddressing_zeroCmds {s : State} (hm : s.cfg.initAddrMethod = .zeroCmds) :
    initAddressing s = txAll (zeroPointerQuads s.cfg.devEnc) s := by
  simp [initAddressing, hm]

theorem initAddressing_hwReset {s : State} (hm : s.cfg.initAddrMethod = .hwReset) :
    initAddressing s = resetPulse s := by
  simp [initAddressing, hm]

/-- With ZERO_CMDS everything INIT sends is quads, from pins at IDLE_LEVELS on (R100). -/
theorem sent_init_zeroCmds {s : State} (hm : s.cfg.initAddrMethod = .zeroCmds) :
    Sent (zeroPointerQuads s.cfg.devEnc ++ initQuads s.cfg) (idlePins s)
      (resetBody (initSetup s)) := by
  have hpointers : Sent (zeroPointerQuads s.cfg.devEnc) (idlePins s)
      (initAddressing (idlePins s)) := by
    rw [initAddressing_zeroCmds (s := idlePins s) hm]
    exact Sent.txAll _ _
  exact hpointers.trans (sent_init_after_addressing s)

theorem quad_mem_map {q : Quad} {qs : List Quad} :
    TraceEvent.quad q ∈ qs.map TraceEvent.quad ↔ q ∈ qs := by
  simp

theorem addressingEvents_onePlane {c : Config} {q : Quad} (h : .quad q ∈ addressingEvents c) :
    q.cs0 ≠ q.cs1 := by
  unfold addressingEvents at h
  split at h
  · exact zeroPointerQuads_onePlane _ q (quad_mem_map.1 h)
  · simp at h

/-- What INIT appends to TRACE: the addressing, then quads. -/
theorem init_trace (s : State) :
    (effect .init s).trace
      = s.trace ++ (addressingEvents s.cfg ++ (initQuads s.cfg).map .quad) := by
  rw [effect_init, idlePins_trace, (sent_init_after_addressing s).trace, initAddressing_trace,
    idlePins_trace, idlePins_cfg, List.append_assoc]

/-! ## The statements about what is sent -/

/-- Settles O32: a device form and a fault append nothing, INIT appends its addressing and then quads,
and every other command sends quads; each of them goes to one plane. -/
theorem traceOnlyGrowsByOnePlaneQuads : Obligations.TraceOnlyGrowsByOnePlaneQuads := by
  intro i s t h
  cases exec_cases h with
  | device cs0 cs1 f _ ht => subst ht; exact ⟨[], (List.append_nil _).symm, fun _ => rfl, nofun⟩
  | raised _ _ c _ ht => subst ht; exact ⟨[], (List.append_nil _).symm, fun _ => rfl, nofun⟩
  | completed hp _ _ ht =>
    have hcommand : isCommand i = true := isCommand_of_planeEffect hp
    have htrace : t.trace = (effect i s).trace := by rw [ht]
    rw [htrace]
    by_cases hi : i = .init
    · subst hi
      refine ⟨_, init_trace s, nofun, fun q hq => ?_⟩
      rcases List.mem_append.1 hq with hq | hq
      · exact addressingEvents_onePlane hq
      · exact initQuads_onePlane _ q (quad_mem_map.1 hq)
    · obtain ⟨qs, hsent, hone⟩ := sentToOnePlane_effect hi s
      exact ⟨_, hsent.trace, fun hno => absurd (hcommand.symm.trans hno) nofun,
        fun q hq => hone q (quad_mem_map.1 hq)⟩

/-- Settles O33: a fault sends nothing, every other command sends its quads, and INIT with ZERO_CMDS
sends its own after driving IDLE_LEVELS, which moves no part of the device. -/
theorem sentQuadsAreDrivenAndAppliedInOrder : Obligations.SentQuadsAreDrivenAndAppliedInOrder := by
  intro i s t hi h
  have of_sent {qs : List Quad} (hsent : Sent qs s t) :
      t.dev = ((t.trace.drop s.trace.length).filterMap TraceEvent.quad?).foldl
          (Device.apply s.cfg.devEnc) s.dev ∧
        t.port = ((t.trace.drop s.trace.length).filterMap TraceEvent.quad?).foldl
          (driveQuad s.cfg) s.port := by
    rw [hsent.quads_eq]
    exact ⟨hsent.dev, hsent.port⟩
  cases exec_cases h with
  | device cs0 cs1 f hp => cases hp.symm.trans (planeEffect_of_isCommand hi)
  | raised _ _ c _ ht =>
    have hsent : Sent [] s t := (Sent.nothing s).congr (by rw [ht]) (by rw [ht]) (by rw [ht])
      (by rw [ht])
    exact ⟨fun _ => (of_sent hsent).1, fun _ => (of_sent hsent).2⟩
  | completed _ _ _ ht =>
    by_cases hinit : i = .init
    · subst hinit
      refine ⟨fun hm => ?_, fun hne => absurd rfl hne⟩
      have hsent : Sent _ (idlePins s) { t with port := (resetBody (initSetup s)).port } :=
        (sent_init_zeroCmds (hm rfl)).congr (by rw [ht]; rfl) (by rw [ht]; rfl) rfl (by rw [ht]; rfl)
      have hquads := hsent.quads_eq
      simp only [idlePins_trace] at hquads
      rw [hquads]
      exact hsent.dev
    · obtain ⟨qs, hsent, -⟩ := sentToOnePlane_effect hinit s
      have hsent : Sent qs s t := hsent.congr (by rw [ht]) (by rw [ht]) (by rw [ht]) (by rw [ht])
      exact ⟨fun _ => (of_sent hsent).1, fun _ => (of_sent hsent).2⟩

end Sys2Proof.Machine

/-! INIT by its rule (R100): its frame, the pins it drives, and the device it leaves, which depends on
nothing that is unspecified after power-on (D26). -/

namespace Sys2Proof.Machine

/-! ## The command -/

theorem exec_init_fresh {s : State} (hf : s.fault = .none) (hinit : s.initDone = false) :
    exec .init s = .next { effect .init s with cmdCount := s.cmdCount + 1 } := by
  rw [exec_init_before_init hf hinit, complete, effect_cmdCount]

theorem exec_init_again {s : State} (hf : s.fault = .none) (hinit : s.initDone = true) :
    exec .init s = raise .reinit (wordOf .init) s := by
  have hadm : admission (wordOf .init) s = some .reinit :=
    (admission_init (opcode_plainWord _) s).trans (if_pos hinit)
  exact command_turned_away (rule := fun s => complete (effect .init s)) hf hadm

/-! ## The state it leaves -/

/-- What INIT may change. -/
theorem effect_init_frame {s : State} (hw : WellFormed s) :
    effect .init s = { s with
      initDone := true, inv := false, dirty := false, fb := (effect .init s).fb
      trace := (effect .init s).trace, port := (effect .init s).port, dev := (effect .init s).dev
      draws := (effect .init s).draws } := by
  have hdirty : (resetBody (initSetup s)).dirty = false := by
    rw [resetBody_dirty, initSetup_cfg, initSetup_dirty]
    cases hm : s.cfg.drawMode with
    | buffered => rfl
    | immediate => exact hw.dirty hm
  rw [State.mk.injEq]
  simp [effect_init, hdirty]

theorem fbByte_init (s : State) (a : BitVec 10) : fbByte (effect .init s) a = 0 :=
  fbByte_resetBody (initSetup s) a

/-- A plane after INIT: zeroed pointers, an empty image, and the on/off that INIT_EXTRA left. -/
theorem init_plane {s : State} (hw : WellFormed s) (he : s.cfg.devEnc.wf = true) (k : Bool) :
    ∃ m, (effect .init s).dev.plane k
        = { (initSetup s).dev.plane k with start := 0, page := 0, col := 0, dram := m }
      ∧ ∀ p c, Memory.read m (dramAddr p c) = 0 :=
  resetBody_plane (s := initSetup s) (by rwa [initSetup_cfg]) (dramWf_initSetup hw.dramWf) k

/-! ## The pins (R33) -/

/-- The pins before INIT's first quad: at IDLE_LEVELS, and after the reset pulse if there is one. -/
def initPort (c : Config) (p : OutPort) : OutPort :=
  match c.initAddrMethod with
  | .zeroCmds => driveIdle c p
  | .hwReset => { driveIdle c p with rst := !c.rstActiveLevel }

theorem init_port (s : State) :
    (effect .init s).port = driveIdle s.cfg
      ((((effect .init s).trace.drop s.trace.length).filterMap TraceEvent.quad?).foldl
        (driveQuad s.cfg) (initPort s.cfg s.port)) := by
  rw [init_trace, List.drop_left, List.filterMap_append, filterMap_quad, effect_init,
    idlePins_port, resetBody_cfg, initSetup_cfg]
  congr 1
  cases hm : s.cfg.initAddrMethod with
  | zeroCmds =>
    have hquads : (addressingEvents s.cfg).filterMap TraceEvent.quad?
        = zeroPointerQuads s.cfg.devEnc := by
      simp only [addressingEvents, hm]
      exact filterMap_quad _
    rw [(sent_init_zeroCmds hm).port, hquads]
    simp [initPort, hm]
  | hwReset =>
    have hquads : (addressingEvents s.cfg).filterMap TraceEvent.quad? = [] := by
      simp only [addressingEvents, hm]
      rfl
    rw [(sent_init_after_addressing s).port, initAddressing_hwReset (s := idlePins s) hm, hquads]
    simp [initPort, hm, resetPulse, portAfter, resetPulseWave]

/-! ## The rule -/

/-- Settles O14: before INIT the command is admitted and its effect is as above; after it, REINIT is
what admission answers. -/
theorem initFollowsItsRule : Obligations.InitFollowsItsRule := by
  intro s hw he hf
  refine ⟨fun hinit => exec_init_again hf hinit, fun hinit => ?fresh, fun p => ?idle⟩
  case idle =>
    refine ⟨fun hm => driveIdle_parallel hm p, fun hm => driveIdle_serial hm p, fun hm => ?_,
      fun hm => ?_⟩ <;> simp [driveIdle_rst, hm]
  case fresh =>
    have plane := init_plane hw he
    have hport : (effect .init s).port
        = driveIdle s.cfg (resetBody (initSetup s)).port := by simp [effect_init]
    refine ⟨_, exec_init_fresh hf hinit, ?frame, fbByte_init s, fun k => ?pointers,
      fun k p c => ?dram, ?trace, init_port s, fun hm => ?lines, fun hm => ?wires, fun hm => ?rst⟩
    case frame =>
      exact congrArg (fun u : State => { u with cmdCount := s.cmdCount + 1 }) (effect_init_frame hw)
    case pointers =>
      obtain ⟨m, hplane, -⟩ := plane k
      simp [hplane]
    case dram =>
      obtain ⟨m, hplane, hread⟩ := plane k
      simp [dramByte, hplane, hread]
    case trace =>
      refine (init_trace s).trans ?_
      have hfb : (effect .init s).fb = writeAll fun _ => 0x00 := resetBody_fb _
      simp only [hfb, initQuads, resetQuads, List.map_append, List.append_assoc]
      rfl
    case lines => rw [hport]; exact (driveIdle_parallel hm _).1
    case wires => rw [hport]; exact driveIdle_serial hm _
    case rst => rw [hport]; simp [driveIdle_rst, hm]

/-! ## From power-on (R33, R170) -/

theorem sync_init {s : State} (hw : WellFormed s) (he : s.cfg.devEnc.wf = true) :
    Sync (effect .init s) := by
  rw [effect_init, sync_idlePins]
  exact sync_resetBody (by rwa [initSetup_cfg]) (dramWf_initSetup hw.dramWf)

/-- Settles O48: before INIT nothing is asked of the display, and INIT ends in SYNC. -/
theorem consistencyHoldsFromPowerOn : Obligations.ConsistencyHoldsFromPowerOn := by
  refine ⟨⟨nofun, nofun⟩, fun s hpower hw he => ?_⟩
  obtain ⟨hinit, hf, -⟩ := hpower
  have hsync : Sync { effect .init s with cmdCount := s.cmdCount + 1 } := sync_init hw he
  exact ⟨_, exec_init_fresh hf hinit, (resetBody_initDone _).trans (initSetup_initDone s),
    consistent_of_sync fun _ => hsync, hsync⟩

/-- A canonical display RAM that reads 0 everywhere is the empty one. -/
theorem Memory.eq_nil_of_read_dram {m : Memory} (hm : Memory.wf dramSize m = true)
    (h : ∀ p c, Memory.read m (dramAddr p c) = 0) : m = [] := by
  refine Memory.ext_wf hm rfl fun a => ?_
  by_cases ha : a < dramSize
  · have haddr : dramAddr (BitVec.ofNat 3 (a / 64)) (BitVec.ofNat 6 (a % 64)) = a := by
      unfold dramSize at ha
      simp only [dramAddr, BitVec.toNat_ofNat]
      omega
    rw [← haddr]
    exact h _ _
  · exact Memory.read_above hm (Nat.le_of_not_lt ha)

/-- A plane after INIT is known but for its on/off. -/
theorem init_plane_eq {s : State} (hw : WellFormed s) (he : s.cfg.devEnc.wf = true) (k : Bool) :
    (effect .init s).dev.plane k
      = { page := 0, col := 0, start := 0, dram := [], on := ((effect .init s).dev.plane k).on } := by
  have hdram : Memory.wf dramSize ((effect .init s).dev.plane k).dram = true :=
    dramWf_effect hw.dramWf .init k
  obtain ⟨m, hplane, hread⟩ := init_plane hw he k
  rw [hplane] at hdram ⊢
  have hnil : m = [] := Memory.eq_nil_of_read_dram hdram hread
  subst hnil
  rfl

/-- Settles O49: what INIT leaves in these fields is the same constant from both states. -/
theorem initForgetsWhatWasUnspecified : Obligations.InitForgetsWhatWasUnspecified := by
  intro s₁ s₂ hw₁ hw₂ hp₁ hp₂ he₁ he₂
  obtain ⟨hinit₁, hf₁, hdepth₁, hcount₁, -⟩ := hp₁
  obtain ⟨hinit₂, hf₂, hdepth₂, hcount₂, -⟩ := hp₂
  refine ⟨_, _, exec_init_fresh hf₁ hinit₁, exec_init_fresh hf₂ hinit₂, ?fb, ?inv, ?dirty, ?depth,
    ?initDone, ?fault, ?count, fun k => ?plane⟩
  case fb => exact (resetBody_fb _).trans (resetBody_fb _).symm
  case inv | dirty | initDone => rw [effect_init_frame hw₁, effect_init_frame hw₂]
  case depth =>
    rw [effect_init_frame hw₁, effect_init_frame hw₂]
    exact hdepth₁.trans hdepth₂.symm
  case fault => simp [hf₁, hf₂]
  case count => exact congrArg (· + 1) (hcount₁.trans hcount₂.symm)
  case plane =>
    have h₁ := init_plane_eq hw₁ he₁ k
    have h₂ := init_plane_eq hw₂ he₂ k
    exact h₁.trans (congrArg (fun pl : Plane =>
      { pl with on := ((effect .init s₁).dev.plane k).on }) h₂).symm

end Sys2Proof.Machine

/-! The corrected inversion round trip (C2). -/

namespace Sys2Proof.Machine

/-- Complementing every byte twice gives the buffer back, as data. -/
theorem writeAll_complement_twice {fb : Memory} (hfb : Memory.wf fbSize fb = true) :
    (writeAll fun a => ~~~Memory.read (writeAll fun a => ~~~Memory.read fb a) a) = fb := by
  refine Memory.ext_wf (writeAll_wf _) hfb fun a => ?_
  by_cases ha : a < fbSize
  · rw [read_writeAll _ ha, read_writeAll _ ha, BitVec.not_not]
  · rw [Memory.read_above (writeAll_wf _) (Nat.le_of_not_lt ha),
      Memory.read_above hfb (Nat.le_of_not_lt ha)]

theorem publishedAll_fb (u : State) : (publishedAll u).fb = u.fb := publishAll_fb u
theorem publishedAll_inv (u : State) : (publishedAll u).inv = u.inv := publishAll_inv u

theorem ready_publishedAll {u : State} (h : Ready u) : Ready (publishedAll u) :=
  ⟨(publishAll_fault u).trans h.1, (publishAll_initDone u).trans h.2⟩

/-- Settles O21: both commands change the polarity, and two complements are none. -/
theorem inversionRoundTripRestoresTheBuffer : Obligations.InversionRoundTripRestoresTheBuffer := by
  intro s hw hready hinv
  have hfirst := exec_setInverted_not hready
  have hinv₁ : (publishedAll (invertPolarity s)).inv = true := by
    rw [publishedAll_inv, invertPolarity, hinv]
    rfl
  have hsecond := exec_setInverted_not (ready_publishedAll (u := invertPolarity s) hready)
  rw [hinv₁] at hsecond
  rw [hinv] at hfirst
  refine ⟨_, _, hfirst, hinv₁, hsecond, ?fb, ?inv⟩
  case fb =>
    rw [publishedAll_fb, invertPolarity, publishedAll_fb, invertPolarity]
    exact writeAll_complement_twice hw.fb
  case inv =>
    rw [publishedAll_inv, invertPolarity, hinv₁]
    rfl

end Sys2Proof.Machine

/-! The sequence of FULL_TX by index (R140, R205), the device forms (R161 to R168), the shown image
(R167), and the delays of a quad (R212). -/

namespace Sys2Proof.Machine

/-! ## FULL_TX by index -/

/-- Rows of one length, end to end: entry `j` of row `i` is at `m * i + j`. -/
theorem getElem?_flatMap_range {α : Type} {f : Nat → List α} {m n i j : Nat}
    (hlen : ∀ i, (f i).length = m) (hi : i < n) (hj : j < m) :
    ((List.range n).flatMap f)[m * i + j]? = (f i)[j]? := by
  have hbefore (n : Nat) : ((List.range n).flatMap f).length = m * n := by
    simp [List.length_flatMap, hlen, Nat.mul_comm]
  induction n with
  | zero => omega
  | succ n ih =>
    rw [List.range_succ, List.flatMap_append, List.flatMap_singleton]
    rcases Nat.lt_succ_iff_lt_or_eq.1 hi with hi | rfl
    · have hlt : m * i + j < m * n := by
        calc m * i + j < m * i + m := by omega
          _ = m * (i + 1) := (Nat.mul_succ m i).symm
          _ ≤ m * n := Nat.mul_le_mul_left m hi
      rw [List.getElem?_append_left (by rwa [hbefore]), ih hi]
    · rw [List.getElem?_append_right (by rw [hbefore]; omega), hbefore, Nat.add_sub_cancel_left]

section
variable (e : DevEnc) (fb : Memory) (k : Bool)

theorem pageQuads_length (p : Nat) : (pageQuads e fb k p).length = 65 := by simp [pageQuads]

theorem planeQuads_length : (planeQuads e fb k).length = 521 := by
  simp [planeQuads, List.length_flatMap, pageQuads_length]

theorem planeQuads_getElem?_page {p j : Nat} (hp : p < 8) (hj : j < 65) :
    (planeQuads e fb k)[65 * p + j + 1]? = (pageQuads e fb k p)[j]? := by
  rw [planeQuads, List.getElem?_cons_succ]
  exact getElem?_flatMap_range (pageQuads_length e fb k) hp hj

theorem planeQuads_getElem?_pageSelect {p : Nat} (hp : p < 8) :
    (planeQuads e fb k)[65 * p + 1]? = some (commandTo e k (.setPage (BitVec.ofNat 3 p))) :=
  planeQuads_getElem?_page e fb k hp (j := 0) (by omega)

theorem planeQuads_getElem?_data {p c : Nat} (hp : p < 8) (hc : c < 64) :
    (planeQuads e fb k)[65 * p + c + 2]?
      = some (quadTo k .data (Memory.read fb (k.toNat * 512 + p * 64 + c))) := by
  refine (planeQuads_getElem?_page e fb k hp (j := c + 1) (by omega)).trans ?_
  simp [pageQuads, hc]

theorem fullTxQuads_getElem?_plane0 {n : Nat} (hn : n < 521) :
    (fullTxQuads e fb)[n]? = (planeQuads e fb false)[n]? := by
  rw [fullTxQuads, List.getElem?_append_left (by simp [planeQuads_length]; omega),
    List.getElem?_append_left (by simpa [planeQuads_length])]

theorem fullTxQuads_getElem?_plane1 {n : Nat} (hn : n < 521) :
    (fullTxQuads e fb)[521 + n]? = (planeQuads e fb true)[n]? := by
  rw [fullTxQuads, List.getElem?_append_left (by simp [planeQuads_length]; omega),
    List.getElem?_append_right (by simp [planeQuads_length]), planeQuads_length,
    Nat.add_sub_cancel_left]

theorem fullTxQuads_getElem?_home (n : Nat) :
    (fullTxQuads e fb)[1042 + n]?
      = [commandTo e false (.setPage 0), commandTo e true (.setPage 0)][n]? := by
  rw [fullTxQuads, List.getElem?_append_right (by simp [planeQuads_length])]
  simp [planeQuads_length]

end

/-- Settles O29: both planes' rows of 65 quads, each found at its index in the plane's list. -/
theorem fullTxSendsTheProtocolSequence : Obligations.FullTxSendsTheProtocolSequence := by
  intro e fb
  refine ⟨fullTxQuads_length e fb, rfl, ?column1, fun p hp => ⟨?page0, ?page1⟩,
    fun p hp c hc => ⟨?data0, ?data1⟩, fullTxQuads_getElem?_home e fb 0,
    fullTxQuads_getElem?_home e fb 1⟩
  case column1 => exact fullTxQuads_getElem?_plane1 e fb (n := 0) (by omega)
  case page0 =>
    rw [Nat.add_comm, fullTxQuads_getElem?_plane0 e fb (by omega),
      planeQuads_getElem?_pageSelect e fb false hp]
    rfl
  case page1 =>
    rw [show 522 + 65 * p = 521 + (65 * p + 1) by omega,
      fullTxQuads_getElem?_plane1 e fb (by omega), planeQuads_getElem?_pageSelect e fb true hp]
    rfl
  case data0 =>
    rw [show 2 + 65 * p + c = 65 * p + c + 2 by omega,
      fullTxQuads_getElem?_plane0 e fb (by omega), planeQuads_getElem?_data e fb false hp hc]
    simp [quadTo, Nat.mul_comm]
  case data1 =>
    rw [show 523 + 65 * p + c = 521 + (65 * p + c + 2) by omega,
      fullTxQuads_getElem?_plane1 e fb (by omega), planeQuads_getElem?_data e fb true hp hc]
    simp [quadTo, Nat.mul_comm]

/-! ## Quads from outside the block (R161 to R168) -/

theorem exec_deviceInstr (cs0 cs1 : Bool) (d : DevCmd) (s : State) :
    exec (deviceInstr cs0 cs1 d) s = deviceCommand cs0 cs1 (Plane.exec d) s := by
  cases d <;> rfl

theorem onSelected_id (cs0 cs1 : Bool) (d : Device) : Device.onSelected cs0 cs1 id d = d := by
  simp [Device.onSelected]

/-- Settles O38: a decoded quad runs as the response to its byte, and a device-defined byte changes
no plane. -/
theorem foreignQuadsActAsSentOnes : Obligations.ForeignQuadsActAsSentOnes := by
  intro s q rest hv hi
  have hdev : (txAll [q] s).dev = Device.apply s.cfg.devEnc s.dev q := rfl
  rw [hdev]
  obtain ⟨cs0, cs1, mode, b⟩ := q
  cases mode with
  | data => exact step_of_decode hv hi rfl
  | cmd =>
    cases hd : s.cfg.devEnc.decodeByte b with
    | some d =>
      rw [step_of_decode (i := deviceInstr cs0 cs1 d) hv hi (by simp [decode, decodeQuad, hd]),
        exec_deviceInstr]
      simp [deviceCommand, Device.apply, planeResponse, hd]
    | none =>
      rw [step_of_decodeQuad_error hv hi (r := .deviceDefined) (by simp [decodeQuad, hd])]
      simp [Device.apply, planeResponse, hd, onSelected_id]

/-- A device form writes its planes and nothing else. -/
theorem exec_of_planeEffect {i : Instr} {cs0 cs1 : Bool} {f : Plane → Plane}
    (hp : planeEffect i = some (cs0, cs1, f)) (s : State) :
    ∃ t, exec i s = .next t ∧ t = { s with dev := t.dev } ∧
      ∀ k, t.dev.plane k = if (if k then cs1 else cs0) then f (s.dev.plane k)
        else s.dev.plane k := by
  have hrun : exec i s = deviceCommand cs0 cs1 f s := by
    cases i with
    | devSetColumn | devSetPage | devSetStartLine | devWriteData | devDisplayOnOff =>
      cases hp; rfl
    | _ => cases hp
  exact ⟨_, hrun, rfl, Device.onSelected_plane cs0 cs1 f s.dev⟩

/-- Settles O36: each of the four writes its register on the planes it selects. -/
theorem deviceCommandsWriteTheirRegister : Obligations.DeviceCommandsWriteTheirRegister :=
  fun s cs0 cs1 => ⟨fun p => exec_of_planeEffect (i := .devSetPage cs0 cs1 p) rfl s,
    fun c => exec_of_planeEffect (i := .devSetColumn cs0 cs1 c) rfl s,
    fun l => exec_of_planeEffect (i := .devSetStartLine cs0 cs1 l) rfl s,
    fun d => exec_of_planeEffect (i := .devDisplayOnOff cs0 cs1 d) rfl s⟩

/-! ## The shown image (R167) -/

/-- Settles O39: an unrotated row of the image is the page and the bit that R51 gives its pixel. -/
theorem shownImageIsTheStoredBits : Obligations.ShownImageIsTheStoredBits := by
  intro s x r hsync hstart
  have hx : (x.zeroExtend 8).toNat = x.toNat := BitVec.toNat_setWidth_of_le (by decide)
  have hr : (r.zeroExtend 8).toNat = r.toNat := BitVec.toNat_setWidth_of_le (by decide)
  have hplane : addrPlane (pixelAddr (x.zeroExtend 8) (r.zeroExtend 8)) = x.getLsbD 6 := by
    rw [addrPlane_pixelAddr (by omega), hx]
    exact (BitVec.msb_eq_decide x).symm.trans (BitVec.msb_eq_getLsbD_last x)
  have hpage : addrPage (pixelAddr (x.zeroExtend 8) (r.zeroExtend 8)) = r.extractLsb' 3 3 := by
    rw [addrPage_pixelAddr, hr]
    exact BitVec.eq_of_toNat_eq (by rw [toNat_field, BitVec.toNat_ofNat]; rfl)
  have hcol : addrColumn (pixelAddr (x.zeroExtend 8) (r.zeroExtend 8)) = x.extractLsb' 0 6 := by
    rw [addrColumn_pixelAddr, hx]
    exact BitVec.eq_of_toNat_eq (by rw [toNat_field, BitVec.toNat_ofNat]; omega)
  have hbit : (r.extractLsb' 0 3).toNat = (pixelBit (r.zeroExtend 8)).toNat := by
    rw [pixelBit_toNat, hr, toNat_field, pow_zero, Nat.div_one]
    rfl
  rw [storedBit, ← hsync, hplane, hpage, hcol, ← hbit, shownPixel, hstart]
  simp

end Sys2Proof.Machine

/-! The two transmitters (R145 to R149, R212): what each leaves on the pins, what the device takes at
the falling edges of E, and how long a quad lasts. -/

namespace Sys2Proof.Machine

/-! ## The levels of a quad (R144) -/

/-- The levels of R144, written out. -/
theorem quadLines_eq (c : Config) (q : Quad) (e : Bool) :
    quadLines c q e =
      { cs0 := if c.csActiveHigh then q.cs0 else !q.cs0
        cs1 := if c.csActiveHigh then q.cs1 else !q.cs1
        rs := if q.mode = .data then c.rsDataLevel else !c.rsDataLevel
        d := q.byte
        e := e } := by
  obtain ⟨cs0, cs1, mode, byte⟩ := q
  cases mode <;> rfl

/-! ## The serial transmitter (R147, R148) -/

/-- How often E falls from `e` on, over the levels of a strobe. -/
def fallCount (e : Bool) (strobe : List Bool) : Nat :=
  ((e :: strobe).zip strobe).countP fun x => x.1 && !x.2

theorem fallCount_cons (e e' : Bool) (strobe : List Bool) :
    fallCount e (e' :: strobe) = fallCount e' strobe + if e && !e' then 1 else 0 := by
  rw [fallCount, List.zip_cons_cons, List.countP_cons]
  rfl

/-- At rest SCLK and SLATCH are low, so that the next rise of either is an edge (R148). -/
def WiresAtRest (p : OutPort) : Prop := p.wires.sclk = false ∧ p.wires.slatch = false

section
variable {c : Config} (hv : c.serMapValid = true) (q : Quad)
include hv

/-- From rest, TX_SER ends at rest, with the quad's levels on the lines and E at the strobe's last
level; and each fall of E on the way shows the quad's levels. -/
theorem serialWave_cases (strobe : List Bool) {p : OutPort} (hp : WiresAtRest p) :
    (strobe ≠ [] →
      (portAfter p (serialWave c q strobe p)).lines = quadLines c q (strobe.getLastD false)) ∧
    WiresAtRest (portAfter p (serialWave c q strobe p)) ∧
    strobed p.lines (serialWave c q strobe p)
      = List.replicate (fallCount p.lines.e strobe) (quadLines c q false) := by
  induction strobe generalizing p with
  | nil => exact ⟨fun h => absurd rfl h, hp, rfl⟩
  | cons e es ih =>
    obtain ⟨hlines, hsclk, hslatch, hstrobed⟩ := frameWave_cases hv q e hp.1 hp.2
    obtain ⟨ihlines, ihrest, ihstrobed⟩ := ih ⟨hsclk, hslatch⟩
    rw [hlines] at ihstrobed
    rw [serialWave, portAfter_append]
    refine ⟨fun _ => ?lines, ihrest, ?strobed⟩
    case lines =>
      cases es with
      | nil => exact hlines
      | cons e' es => exact ihlines (List.cons_ne_nil _ _)
    case strobed =>
      rw [hstrobed, ihstrobed, fallCount_cons]
      cases hfall : p.lines.e && !e with
      | false => rfl
      | true =>
        have he : e = false := by simpa using (Bool.and_eq_true_iff.1 hfall).2
        subst he
        rfl

end

/-- Settles O52: in Serial mode a quad is TX_SER over SER_STROBE. -/
theorem serialFramesShowTheQuad : Obligations.SerialFramesShowTheQuad := by
  intro c q p hm hv hsclk hslatch hne
  obtain ⟨hlines, hrest, hstrobed⟩ := serialWave_cases hv q c.serStrobe (p := p) ⟨hsclk, hslatch⟩
  have hwave : quadWave c q p = serialWave c q c.serStrobe p := by simp [quadWave, hm]
  simp only [← quadLines_eq, driveQuad, hwave]
  exact ⟨hlines hne, hrest.1, hrest.2, hstrobed⟩

/-! ## Both transmitters present the quad once (R149) -/

/-- TX_PAR raises and lowers E once, at the quad's levels, and touches no serial wire (R145). -/
theorem parallelWave_cases (c : Config) (q : Quad) {p : OutPort} (he : p.lines.e = false)
    (hp : WiresAtRest p) :
    strobed p.lines (parallelWave c q p) = [quadLines c q false] ∧
    (portAfter p (parallelWave c q p)).lines.e = false ∧
    WiresAtRest (portAfter p (parallelWave c q p)) := by
  refine ⟨?_, rfl, hp⟩
  simp [parallelWave, strobed, he, OutPort.setE, quadLines]

/-- From pins at rest, the waveform of either transmitter. -/
theorem quadWave_cases {c : Config} (q : Quad) {p : OutPort} (he : p.lines.e = false)
    (hp : WiresAtRest p)
    (hser : c.txMode = .serial → c.serMapValid = true ∧ c.serStrobe = [false, true, false]) :
    strobed p.lines (quadWave c q p) = [quadLines c q false] ∧
    (driveQuad c p q).lines.e = false ∧ WiresAtRest (driveQuad c p q) := by
  cases hm : c.txMode with
  | parallel =>
    have hwave : quadWave c q p = parallelWave c q p := by simp [quadWave, hm]
    rw [driveQuad, hwave]
    exact parallelWave_cases c q he hp
  | serial =>
    obtain ⟨hv, hstrobe⟩ := hser hm
    have hwave : quadWave c q p = serialWave c q [false, true, false] p := by
      simp [quadWave, hm, hstrobe]
    obtain ⟨hlines, hrest, hstrobed⟩ := serialWave_cases hv q [false, true, false] hp
    rw [he] at hstrobed
    rw [driveQuad, hwave, hlines (List.cons_ne_nil _ _)]
    exact ⟨hstrobed, rfl, hrest⟩

/-- Settles O34: the one falling edge shows the levels of R144, which read back as the quad. -/
theorem bothTransmittersPresentTheQuadOnce : Obligations.BothTransmittersPresentTheQuadOnce := by
  intro c q p he hsclk hslatch hser
  obtain ⟨hstrobed, hlow, hrest⟩ := quadWave_cases q he ⟨hsclk, hslatch⟩ hser
  refine ⟨⟨_, hstrobed, linesQuad_quadLines c q false, ?_⟩, hlow, hrest.1, hrest.2⟩
  rw [quadLines_eq]
  exact ⟨rfl, rfl, rfl, rfl⟩

/-! ## How long a quad lasts (R212) -/

theorem waveDuration_append (w w' : List PinStep) :
    waveDuration (w ++ w') = waveDuration w + waveDuration w' := by
  simp [waveDuration]

/-- A shift clock has no length of its own (log 17). -/
theorem waveDuration_shiftWave (c : Config) (bits : List Bool) (p : OutPort) :
    waveDuration (shiftWave c bits p) = 0 := by
  induction bits generalizing p with
  | nil => rfl
  | cons b bits ih => simpa [shiftWave, waveDuration] using ih _

theorem waveDuration_frameWave (c : Config) (f : List Bool) (p : OutPort) :
    waveDuration (frameWave c f p) = c.tLatch := by
  rw [frameWave, waveDuration_append, waveDuration_shiftWave]
  simp [waveDuration]

theorem waveDuration_serialWave (c : Config) (q : Quad) (strobe : List Bool) (p : OutPort) :
    waveDuration (serialWave c q strobe p) = strobe.length * c.tLatch := by
  induction strobe generalizing p with
  | nil => simp [serialWave, waveDuration]
  | cons e es ih =>
    rw [serialWave, waveDuration_append, waveDuration_frameWave, ih, List.length_cons, Nat.succ_mul,
      Nat.add_comm]

/-- Settles O35: three delays in Parallel mode; in Serial mode one T_LATCH for each frame. -/
theorem quadDurationIsTheSumOfItsDelays : Obligations.QuadDurationIsTheSumOfItsDelays := by
  intro c q p
  refine ⟨fun hm => ?parallel, fun hm => ?serial⟩
  case parallel => simp [quadWave, hm, parallelWave, waveDuration, Nat.add_assoc]
  case serial =>
    simp only [quadWave, hm]
    exact waveDuration_serialWave c q c.serStrobe p

end Sys2Proof.Machine

/-! Runs without a fault (R181): drawing commands from a ready block (R193), and nested batches
(R131, R132). -/

namespace Sys2Proof.Machine

/-! ## Runs -/

/-- `n` steps lead from `s` to `t`, and no state on the way is faulted. -/
inductive SafeSteps : Nat → State → State → Prop
  | refl {s : State} (hf : s.fault = .none) : SafeSteps 0 s s
  | head {n : Nat} {s s' t : State} (hf : s.fault = .none) (h : step s = .next s')
      (hrest : SafeSteps n s' t) : SafeSteps (n + 1) s t

theorem run_succ {s s' : State} (h : step s = .next s') (n : Nat) :
    core.run (n + 1) s = core.run n s' := by
  have hcore : core.step s = .next s' := h
  simp only [Host.Core.run, hcore]

namespace SafeSteps

theorem trans {m n : Nat} {s u t : State} (h : SafeSteps m s u) (h' : SafeSteps n u t) :
    SafeSteps (m + n) s t := by
  induction h with
  | refl => rwa [Nat.zero_add]
  | head hf hstep _ ih =>
    rw [Nat.succ_add]
    exact .head hf hstep (ih h')

theorem single {s t : State} (hf : s.fault = .none) (h : step s = .next t)
    (ht : t.fault = .none) : SafeSteps 1 s t := .head hf h (.refl ht)

theorem run {n : Nat} {s t : State} (h : SafeSteps n s t) : core.run n s = .next t := by
  induction h with
  | refl => rfl
  | head _ hstep _ ih => exact (run_succ hstep _).trans ih

theorem wellFormed {n : Nat} {s t : State} (h : SafeSteps n s t) (hw : WellFormed s) :
    WellFormed t := by
  induction h with
  | refl => exact hw
  | head _ hstep _ ih => exact ih (everyStepKeepsTheStateWellFormed _ _ hw hstep)

theorem safeRun {n : Nat} {s t : State} (h : SafeSteps n s t) : SafeRun n s := by
  intro k hk
  induction h generalizing k with
  | refl hf =>
    obtain rfl := Nat.le_zero.1 hk
    exact ⟨_, rfl, hf⟩
  | head hf hstep _ ih =>
    cases k with
    | zero => exact ⟨_, rfl, hf⟩
    | succ k =>
      obtain ⟨u, hrun, hu⟩ := ih k (Nat.le_of_succ_le_succ hk)
      exact ⟨u, (run_succ hstep k).trans hrun, hu⟩

end SafeSteps

/-! ## Drawing commands (R193) -/

/-- The commands that no ready block faults on. -/
def IsDrawing (i : Instr) : Prop :=
  (∃ v x y, i = .setPixel v x y) ∨ i = .clear ∨ i = .fill ∨ (∃ v, i = .setInverted v) ∨
    i = .getInverted ∨ i = .reset

theorem decode_encode_of_isDrawing {i : Instr} (hi : IsDrawing i) (e : DevEnc) :
    decode e (encode e i) = .ok i := by
  obtain ⟨v, x, y, rfl⟩ | rfl | rfl | ⟨v, rfl⟩ | rfl | rfl := hi
  · exact decodeWord_setPixel v x y
  · rfl
  · rfl
  · cases v <;> rfl
  · rfl
  · rfl

/-- What a command that completes leaves. -/
def completed (i : Instr) (s : State) : State := { effect i s with cmdCount := s.cmdCount + 1 }

@[simp] theorem completed_cfg (i : Instr) (s : State) : (completed i s).cfg = s.cfg := effect_cfg i s
@[simp] theorem completed_inbox (i : Instr) (s : State) : (completed i s).inbox = s.inbox :=
  effect_inbox i s
@[simp] theorem completed_cmdCount (i : Instr) (s : State) :
    (completed i s).cmdCount = s.cmdCount + 1 := rfl

theorem ready_completed {s : State} (h : Ready s) (i : Instr) : Ready (completed i s) :=
  ⟨(effect_fault i s).trans h.1, effect_initDone h.2 i⟩

/-- Each of them is admitted in both modes, and its rule raises nothing. -/
theorem exec_of_isDrawing {i : Instr} (hi : IsDrawing i) {s : State} (h : Ready s) :
    exec i s = .next (completed i s) := by
  have hrun : exec i s = command (wordOf i) (fun s => complete (effect i s)) s := by
    obtain ⟨v, x, y, rfl⟩ | rfl | rfl | ⟨v, rfl⟩ | rfl | rfl := hi <;> rfl
  have hop : opcode (wordOf i) ∉ [0x1#4, 0x8#4, 0x9#4, 0xA#4] := by
    obtain ⟨v, x, y, rfl⟩ | rfl | rfl | ⟨v, rfl⟩ | rfl | rfl := hi <;> simp [wordOf, encode]
  rw [hrun, command_of_ready h hop, complete, effect_cmdCount, completed]

theorem safeSteps_drawing {is : List Instr} (his : ∀ i ∈ is, IsDrawing i) {s : State}
    (hv : s.cfg.valid = true) (h : Ready s) (hin : s.inbox = is.map (encode s.cfg.devEnc)) :
    ∃ t, SafeSteps is.length s t ∧ t.cmdCount = s.cmdCount + is.length := by
  induction is generalizing s with
  | nil => exact ⟨s, .refl h.1, rfl⟩
  | cons i is ih =>
    obtain ⟨hi, his⟩ := List.forall_mem_cons.1 his
    have hdec := decode_encode_of_isDrawing hi s.cfg.devEnc
    generalize hrest : is.map (encode s.cfg.devEnc) = rest at hin
    have hready : Ready { s with inbox := rest } := h
    have hstep : step s = .next (completed i { s with inbox := rest }) := by
      rw [step_of_decode hv (by rw [hin, List.map_cons, hrest]) hdec]
      exact exec_of_isDrawing hi hready
    obtain ⟨t, hsteps, hcount⟩ := ih his (s := completed i { s with inbox := rest })
      (by simpa using hv) (ready_completed hready i) (by simp [hrest])
    refine ⟨t, .head h.1 hstep hsteps, ?_⟩
    rw [hcount, completed_cmdCount, List.length_cons, Nat.add_assoc, Nat.add_comm 1]

/-- Settles O50: every drawing command leaves a ready block ready. -/
theorem drawingCommandsNeverFault : Obligations.DrawingCommandsNeverFault := by
  intro s is hv h his
  obtain ⟨t, hsteps, hcount⟩ :=
    safeSteps_drawing his (s := { s with inbox := is.map (encode s.cfg.devEnc) }) hv h rfl
  refine ⟨hsteps.safeRun, fun t' ht' => ?_⟩
  cases hsteps.run.symm.trans ht'
  exact hcount

/-! ## Nested batches (R131, R132) -/

section
variable {s : State} (hw : WellFormed s) (h : Ready s) (hm : s.cfg.drawMode = .immediate)
include hw h hm

/-- `n` times ENTER_BATCH, as long as DEPTH_BITS allow. -/
theorem safeSteps_enterBatch {n : Nat} {rest : List InboxItem}
    (hin : s.inbox = List.replicate n (.command 0x90000000) ++ rest)
    (hmax : s.depth.toNat + n ≤ 2 ^ s.cfg.depthBits - 1) :
    SafeSteps n s { s with
      depth := s.depth + BitVec.ofNat 16 n, cmdCount := s.cmdCount + n, inbox := rest } := by
  induction n generalizing s with
  | zero =>
    have hsame : { s with
        depth := s.depth + BitVec.ofNat 16 0, cmdCount := s.cmdCount + 0, inbox := rest } = s := by
      rw [← show s.inbox = rest from hin]
      simp
    rw [hsame]
    exact .refl h.1
  | succ n ih =>
    have hbelow : depthAtMax s ≠ true := by rw [Ne, depthAtMax_iff hm]; omega
    have hstep : step s = .next { s with
        inbox := List.replicate n (.command 0x90000000) ++ rest
        depth := s.depth + 1, cmdCount := s.cmdCount + 1 } := by
      rw [step_of_decodeWord_ok hw.cfg hin (i := .enterBatch) rfl]
      exact exec_enterBatch_belowMax (s := { s with inbox := _ }) h hm hbelow
    have hsucc : (s.depth + 1).toNat = s.depth.toNat + 1 := depth_succ_toNat hw hm hbelow
    have hmax' : (s.depth + 1).toNat + n ≤ 2 ^ s.cfg.depthBits - 1 := by omega
    have hrest := ih (everyStepKeepsTheStateWellFormed _ _ hw hstep) h hm rfl hmax'
    have hdepth : s.depth + 1 + BitVec.ofNat 16 n = s.depth + BitVec.ofNat 16 (n + 1) := by
      bv_omega
    have hcount : s.cmdCount + 1 + n = s.cmdCount + (n + 1) := by omega
    rw [← hdepth, ← hcount]
    exact .head h.1 hstep hrest

/-- LEAVE_BATCH from every depth down to 0: the last one sends the buffer. -/
theorem safeSteps_leaveBatch {n : Nat}
    (hin : s.inbox = List.replicate (n + 1) (.command 0xA0000000))
    (hdepth : s.depth.toNat = n + 1) :
    ∃ t, SafeSteps (n + 1) s t ∧ t.depth = 0 ∧ t.fb = s.fb ∧ t.cmdCount = s.cmdCount + (n + 1) ∧
      t.trace = s.trace ++ (fullTxQuads s.cfg.devEnc s.fb).map .quad := by
  have hexec : step s = exec .leaveBatch
      { s with inbox := List.replicate n (.command 0xA0000000) } :=
    step_of_decodeWord_ok hw.cfg hin rfl
  induction n generalizing s with
  | zero =>
    refine ⟨_, .single h.1 (hexec.trans (exec_leaveBatch_outermost h hm hdepth)) ?_, rfl, ?_, rfl,
      fullTx_trace _⟩
    · exact (fullTx_fault _).trans h.1
    · exact fullTx_fb _
  | succ n ih =>
    have hstep := hexec.trans
      (exec_leaveBatch_inner (s := { s with inbox := _ }) h hm (by rw [hdepth]; omega))
    have hw' := everyStepKeepsTheStateWellFormed _ _ hw hstep
    have hpred : (s.depth - 1).toNat = n + 1 := by bv_omega
    obtain ⟨t, hrest, ht, hfb, hcount, htrace⟩ :=
      ih hw' h hm rfl hpred (step_of_decodeWord_ok hw'.cfg rfl rfl)
    refine ⟨t, .head h.1 hstep hrest, ht, hfb, ?_, htrace⟩
    rw [hcount, Nat.add_assoc, Nat.add_comm 1]

end

/-- Settles O51: DEPTH goes up to n and down again, and only the last LEAVE_BATCH sends. -/
theorem nestedBatchesTransmitOnce : Obligations.NestedBatchesTransmitOnce := by
  intro s n hw h hm hd hpos hmax
  obtain ⟨m, rfl⟩ := Nat.exists_eq_succ_of_ne_zero hpos.ne'
  have hbits : 2 ^ s.cfg.depthBits ≤ 2 ^ 16 :=
    Nat.pow_le_pow_right (by decide) (depthBits_bounds_of_valid hw.cfg).2
  have hdepth : (s.depth + BitVec.ofNat 16 (m + 1)).toNat = m + 1 := by
    rw [hd]
    bv_omega
  have hin : s.depth.toNat + (m + 1) ≤ 2 ^ s.cfg.depthBits - 1 := by
    rw [hd]
    simpa using hmax
  intro s₀
  have hw₀ : WellFormed s₀ := hw.withInbox _
  have hup := safeSteps_enterBatch (s := s₀) hw₀ h hm rfl hin
  obtain ⟨t, hdown, ht, hfb, hcount, htrace⟩ :=
    safeSteps_leaveBatch (hup.wellFormed hw₀) h hm rfl hdepth
  have hall := hup.trans hdown
  rw [← Nat.two_mul] at hall
  refine ⟨hall.safeRun, t, hall.run, ht, hfb, ?_, htrace⟩
  rw [hcount, Nat.two_mul, Nat.add_assoc]

end Sys2Proof.Machine

/-! The assembler's lines (R78): the one form with operands of more than one spelling, and that
whatever line gives a word, the word is a command of the table. -/

namespace Sys2Proof.Machine

/-! ## The words of the ten forms -/

/-- What SET_PIXEL's row fixes of a word, as a number: the opcode and eleven zeros (R73). -/
theorem setPixel_fixedBits (v : Bool) (x y : BitVec 8) :
    ((commandWord 0x3#4 v x y).extractLsb' 17 15).toNat = 0x3 * 2 ^ 11 := by
  have hmask : (0xFFFE0000#32).extractLsb' 17 15 = BitVec.allOnes 15 := rfl
  have hform := congrArg (BitVec.extractLsb' 17 15) (Laws.EncodedForm.setPixel_form v x y)
  rw [BitVec.extractLsb'_and, hmask, BitVec.and_allOnes] at hform
  rw [hform]
  rfl

/-- `(OP << 28) | (v << 16) | (x << 8) | y` of SET_PIXEL by its arithmetic (R78): the word is made
up of its fields. -/
theorem commandWord_setPixel_toNat (v : Bool) (x y : BitVec 8) :
    (commandWord 0x3#4 v x y).toNat
      = 0x3 * 2 ^ 28 + v.toNat * 2 ^ 16 + x.toNat * 2 ^ 8 + y.toNat := by
  have hfixed := setPixel_fixedBits v x y
  have hv := congrArg Bool.toNat (operandV_commandWord 0x3#4 v x y)
  have hx := congrArg BitVec.toNat (operandX_commandWord 0x3#4 v x y)
  have hy := congrArg BitVec.toNat (operandY_commandWord 0x3#4 v x y)
  rw [operandV, BitVec.getLsbD, Nat.toNat_testBit] at hv
  rw [operandX, toNat_field] at hx
  rw [operandY, toNat_field] at hy
  rw [toNat_field] at hfixed
  omega

/-- The commands of the table, by their words. -/
def IsTableWord (w : Word) : Prop :=
  (∃ op ∈ [0x1#4, 0x2#4, 0x4#4, 0x5#4, 0x7#4, 0x8#4, 0x9#4, 0xA#4], w = plainWord op) ∨
    (∃ v x y, w = commandWord 0x3#4 v x y) ∨ ∃ v, w = commandWord 0x6#4 v 0 0

theorem assembleCommand_isTableWord {mnemonic : String} {operands : List (List Char)} {w : Word}
    (h : assembleCommand mnemonic operands = some w) : IsTableWord w := by
  unfold assembleCommand at h
  split at h
  case h_3 =>
    split at h
    · cases h; exact .inr (.inl ⟨_, _, _, rfl⟩)
    · cases h
  case h_6 =>
    split at h
    · cases h; exact .inr (.inr ⟨_, rfl⟩)
    · cases h
  case h_11 => cases h
  all_goals
    cases h
    exact .inl ⟨_, by simp, rfl⟩

theorem legal_of_isTableWord {w : Word} (h : IsTableWord w) :
    1 ≤ (opcode w).toNat ∧ (opcode w).toNat ≤ 10 ∧ ∃ i, decodeWord w = .ok i := by
  obtain ⟨op, hop, rfl⟩ | ⟨v, x, y, rfl⟩ | ⟨v, rfl⟩ := h
  · rw [opcode_plainWord]
    fin_cases hop <;> exact ⟨by decide, by decide, _, rfl⟩
  · rw [opcode_commandWord]
    exact ⟨by decide, by decide, _, decodeWord_setPixel v x y⟩
  · rw [opcode_commandWord]
    refine ⟨by decide, by decide, .setInverted v, ?_⟩
    cases v <;> rfl

/-! ## A line and its command -/

theorem assembleLine_word {line : List Char} {w : Word} (h : assembleLine line = .word w) :
    ∃ mnemonic operands, assembleCommand mnemonic operands = some w := by
  unfold assembleLine at h
  simp only at h
  split at h
  · cases h
  · split at h
    · cases h; exact ⟨_, _, ‹_›⟩
    · cases h

theorem assembleLine_of_command {line code : List Char} {w : Word} {operands : List (List Char)}
    (mnemonic : String) (hcode : trim (line.takeWhile (· != ';')) = code) (hne : code ≠ [])
    (hm : String.ofList (code.takeWhile fun c => !isBlank c) = mnemonic)
    (ho : (splitCommas (code.dropWhile fun c => !isBlank c)).map trim = operands)
    (hw : assembleCommand mnemonic operands = some w) : assembleLine line = .word w := by
  obtain ⟨c, cs, rfl⟩ := List.exists_cons_of_ne_nil hne
  simp only [assembleLine, hcode, hm, ho, hw]

/-- A line that neither begins nor ends with a blank is its own trimming. -/
theorem trim_of_ends {c d : Char} (hc : isBlank c = false) (hd : isBlank d = false)
    (cs : List Char) : trim (c :: cs ++ [d]) = c :: cs ++ [d] := by
  have hfront : (c :: cs ++ [d]).dropWhile isBlank = c :: cs ++ [d] := by simp [hc]
  have hback : (c :: cs ++ [d]).reverse.dropWhile isBlank = (c :: cs ++ [d]).reverse := by
    simp [hd]
  rw [trim, hfront, hback, List.reverse_reverse]

/-! ## SET_PIXEL -/

/-- An operand's characters: nothing that ends it. -/
def IsOperand (xs : List Char) : Prop := ∀ c ∈ xs, isBlank c = false ∧ c ≠ ',' ∧ c ≠ ';'

/-- SET_PIXEL with its three operands, as the spec writes it. -/
def setPixelLine (xs ys vs : List Char) : List Char :=
  "SET_PIXEL ".toList ++ xs ++ ", ".toList ++ ys ++ ", ".toList ++ vs

theorem setPixelLine_eq (xs ys vs : List Char) : setPixelLine xs ys vs
    = "SET_PIXEL ".toList ++ xs ++ ", ".toList ++ ys ++ ", ".toList ++ vs := rfl

section
variable {xs ys : List Char} {d : Char} (hxs : IsOperand xs) (hys : IsOperand ys)
  (hd : IsOperand [d])
include hxs hys hd

/-- The line holds no comment, and it begins with S and ends with a digit. -/
theorem setPixelLine_code :
    trim ((setPixelLine xs ys [d]).takeWhile (· != ';')) = setPixelLine xs ys [d] := by
  have operand {zs : List Char} (hzs : IsOperand zs) : ∀ c ∈ zs, (c != ';') = true :=
    fun c hc => bne_iff_ne.2 (hzs c hc).2.2
  have hname : ∀ c ∈ "SET_PIXEL ".toList, (c != ';') = true := by simp
  have hcomma : ∀ c ∈ ", ".toList, (c != ';') = true := by simp
  have hplain : ∀ c ∈ setPixelLine xs ys [d], (c != ';') = true := by
    simp only [setPixelLine_eq, List.forall_mem_append]
    exact ⟨⟨⟨⟨⟨hname, operand hxs⟩, hcomma⟩, operand hys⟩, hcomma⟩, operand hd⟩
  rw [List.takeWhile_eq_self_iff.2 hplain]
  exact trim_of_ends (c := 'S') rfl (hd d (by simp)).1 _

theorem setPixelLine_operands :
    (splitCommas ((setPixelLine xs ys [d]).dropWhile fun c => !isBlank c)).map trim
      = [xs, ys, [d]] := by
  have hdrop : (setPixelLine xs ys [d]).dropWhile (fun c => !isBlank c)
      = (' ' :: xs) ++ ',' :: ((' ' :: ys) ++ ',' :: [' ', d]) := by
    simp [setPixelLine_eq, isBlank]
  have comma {zs : List Char} (hzs : IsOperand zs) : ',' ∉ ' ' :: zs := by
    intro hm
    rcases List.mem_cons.1 hm with h | h
    · exact absurd h (by decide)
    · exact (hzs _ h).2.1 rfl
  have trimmed {zs : List Char} (hzs : IsOperand zs) : trim (' ' :: zs) = zs :=
    trim_blank_cons.trans (trim_eq_self fun c hc => (hzs c hc).1)
  rw [hdrop, splitCommas_append (comma hxs), splitCommas_append (comma hys),
    splitCommas_single (comma hd)]
  simp only [List.map_cons, List.map_nil, trimmed hxs, trimmed hys, trimmed hd]

end

/-- A spelling of a coordinate, in decimal or in 0x hexadecimal. -/
def Spells (x : BitVec 8) (xs : List Char) : Prop :=
  xs = Nat.toDigits 10 x.toNat ∨ xs = '0' :: 'x' :: Nat.toDigits 16 x.toNat

theorem Spells.isOperand {x : BitVec 8} {xs : List Char} (h : Spells x xs) : IsOperand xs := by
  intro c hc
  refine digits_plain x c (List.mem_append.2 ?_)
  rcases h with rfl | rfl
  · exact .inl hc
  · exact .inr hc

theorem Spells.coordinate_eq {x : BitVec 8} {xs : List Char} (h : Spells x xs) :
    coordinate xs = some x := by
  rcases h with rfl | rfl
  · exact (coordinate_digits x).1
  · exact (coordinate_digits x).2

theorem assembleLine_setPixel {x y : BitVec 8} {xs ys : List Char} (hxs : Spells x xs)
    (hys : Spells y ys) (v : Bool) :
    assembleLine (setPixelLine xs ys [if v then '1' else '0'])
      = .word (commandWord 0x3#4 v x y) := by
  have hd : IsOperand [if v then '1' else '0'] := by cases v <;> simp [IsOperand, isBlank]
  have hbit : bitOperand [if v then '1' else '0'] = some v := by cases v <;> rfl
  refine assembleLine_of_command "SET_PIXEL" (setPixelLine_code hxs.isOperand hys.isOperand hd)
    (by simp [setPixelLine_eq]) rfl (setPixelLine_operands hxs.isOperand hys.isOperand hd) ?_
  simp [assembleCommand, hxs.coordinate_eq, hys.coordinate_eq, hbit]

/-- Settles O4: the nine forms without a coordinate are evaluated, SET_PIXEL's operands are read back
from either spelling, and every word comes from one of the ten forms. -/
theorem assembledLinesAreLegalCommands : Obligations.AssembledLinesAreLegalCommands := by
  refine ⟨by decide, by decide, fun v x y xs ys hxs hys => ?setPixel, by decide, by decide,
    by decide, by decide, by decide, by decide, by decide, by decide, fun line comment => ?comment,
    fun line w h => ?legal⟩
  case setPixel =>
    have hv : v.toNat = if v then 1 else 0 := by cases v <;> rfl
    refine (assembleLine_setPixel hxs hys v).trans ?_
    rw [← hv, ← commandWord_setPixel_toNat, BitVec.ofNat_toNat, BitVec.setWidth_eq]
  case comment => simp only [assembleLine, takeWhile_comment]
  case legal =>
    obtain ⟨mnemonic, operands, hw⟩ := assembleLine_word h
    exact legal_of_isTableWord (assembleCommand_isTableWord hw)

end Sys2Proof.Machine
